-- ==== Sys2Proof/Word.lean ====
section
/-! DEFINITION. The word types of the engine (00_scope.md R4, R13, 30_encoding.md R100) and the fixed-size grids its
macroblock buffer is made of (10_state.md R21). Arithmetic stands in Machine/Numeric.lean. -/

namespace Sys2Proof

/-- A command word, and every value a register read returns (R100, R57). -/
abbrev Word := BitVec 32

/-- An unsigned 8-bit sample (R4, R13). -/
abbrev Sample := BitVec 8

/-- A word of the macroblock buffer: 16 bits, two's complement (R13, R21). -/
abbrev Coef := BitVec 16

/-- A word of the output stream to the entropy coder (R80). -/
abbrev OutWord := BitVec 16

/-- A square grid of `n` rows of `n` elements, row 0 at the top, column 0 at the left (R21). -/
abbrev Grid (n : Nat) (α : Type) := Vector (Vector α n) n

end Sys2Proof
end

