-- ==== Sys2Proof/Syntax.lean ====
section
/-! DEFINITION. The commands of the engine: one constructor per row of spec/opcode_table.json (30_encoding.md R103),
and the pseudo-commands of the assembler (R108). A command's operands are the unsigned integers of R102; that each
fits its field is `Instr.wellFormed`. -/

namespace Sys2Proof

/-- The 21 commands of R103, in the table's order. -/
inductive Instr where
  | nop
  | setDim (picw pich : Nat)
  | setWin (winx winy : Nat)
  | setQp (qp : Nat)
  | setIint (iint : Nat)
  | setFeat (feat : Nat)
  | setOvh (ovh : Nat)
  | start
  | beginFrame
  | loadMb
  | emit
  | install
  | intraPred
  | intraRecon
  | mcPred
  | mcRecon
  | fdct
  | idct
  | quant
  | dequant
  | reset
  deriving DecidableEq, Repr

/-- The pseudo-commands of R108. -/
inductive Pseudo where
  | encMbI
  | encMbP
  | encFrameI (n : Nat)
  | encFrameP (n : Nat)
  | config (picw pich winx winy qp iint feat ovh : Nat)
  deriving DecidableEq, Repr

end Sys2Proof
end

