-- ==== Sys2Proof/WellFormed.lean ====
section
/-! DEFINITION. When a command's operands fit the fields of its format (30_encoding.md R101, R107: "An operand that
does not fit its field is an assembly error"). The fields' VALUES are not checked here: R106 stores any bit pattern. -/

namespace Sys2Proof

/-- Every operand fits its field: formats P (two 8-bit fields), B (8 bits), H (16 bits), N (4 bits), W (24 bits), Z (none). -/
def Instr.wellFormed : Instr → Bool
  | .setDim picw pich => decide (picw < 2 ^ 8) && decide (pich < 2 ^ 8)
  | .setWin winx winy => decide (winx < 2 ^ 8) && decide (winy < 2 ^ 8)
  | .setQp qp => decide (qp < 2 ^ 8)
  | .setIint iint => decide (iint < 2 ^ 16)
  | .setFeat feat => decide (feat < 2 ^ 4)
  | .setOvh ovh => decide (ovh < 2 ^ 24)
  | .nop => true
  | .start => true
  | .beginFrame => true
  | .loadMb => true
  | .emit => true
  | .install => true
  | .intraPred => true
  | .intraRecon => true
  | .mcPred => true
  | .mcRecon => true
  | .fdct => true
  | .idct => true
  | .quant => true
  | .dequant => true
  | .reset => true

end Sys2Proof
end

