-- ==== Sys2Proof/Decode.lean ====
section
/-! DEFINITION. The command encoding (30_encoding.md R100 to R106): field extraction, the opcode map as rows of match,
mask and format, the total decoder, and the encoder (the word column of R107). -/

namespace Sys2Proof

/-- Bits 31:24 of a command word, the opcode (R100). -/
def opField (w : Word) : Nat := (w.extractLsb' 24 8).toNat

/-- `w[hi:lo]` as an unsigned integer, for the field of `width` bits whose lowest bit is `lo` (R17, R102). -/
def argField (w : Word) (lo width : Nat) : Nat := (w.extractLsb' lo width).toNat

/-- A row of the opcode map R103: `w` is this command when `w AND mask = pattern`, with the operands `build` takes from it. -/
structure OpcodeRow where
  pattern : Word
  mask : Word
  build : Word → Instr

/-- `w` satisfies the row (R103). -/
def OpcodeRow.matches (row : OpcodeRow) (w : Word) : Bool := w &&& row.mask == row.pattern

/-- The configuration commands' rows of R103, high nibble 0x0. -/
def configRows : List OpcodeRow :=
  [ ⟨0x00000000, 0xFFFFFFFF, fun _ => .nop⟩,
    ⟨0x01000000, 0xFFFF0000, fun w => .setDim (argField w 0 8) (argField w 8 8)⟩,
    ⟨0x02000000, 0xFFFF0000, fun w => .setWin (argField w 0 8) (argField w 8 8)⟩,
    ⟨0x03000000, 0xFFFFFF00, fun w => .setQp (argField w 0 8)⟩,
    ⟨0x04000000, 0xFFFF0000, fun w => .setIint (argField w 0 16)⟩,
    ⟨0x05000000, 0xFFFFFFF0, fun w => .setFeat (argField w 0 4)⟩,
    ⟨0x06000000, 0xFF000000, fun w => .setOvh (argField w 0 24)⟩,
    ⟨0x07000000, 0xFFFFFFFF, fun _ => .start⟩ ]

/-- The sequencing, datapath and reset commands' rows of R103, all of format Z. -/
def commandRows : List OpcodeRow :=
  [ ⟨0x10000000, 0xFFFFFFFF, fun _ => .beginFrame⟩,
    ⟨0x11000000, 0xFFFFFFFF, fun _ => .loadMb⟩,
    ⟨0x12000000, 0xFFFFFFFF, fun _ => .emit⟩,
    ⟨0x13000000, 0xFFFFFFFF, fun _ => .install⟩,
    ⟨0x20000000, 0xFFFFFFFF, fun _ => .intraPred⟩,
    ⟨0x21000000, 0xFFFFFFFF, fun _ => .intraRecon⟩,
    ⟨0x30000000, 0xFFFFFFFF, fun _ => .mcPred⟩,
    ⟨0x31000000, 0xFFFFFFFF, fun _ => .mcRecon⟩,
    ⟨0x40000000, 0xFFFFFFFF, fun _ => .fdct⟩,
    ⟨0x41000000, 0xFFFFFFFF, fun _ => .idct⟩,
    ⟨0x50000000, 0xFFFFFFFF, fun _ => .quant⟩,
    ⟨0x51000000, 0xFFFFFFFF, fun _ => .dequant⟩,
    ⟨0xFF000000, 0xFFFFFFFF, fun _ => .reset⟩ ]

/-- The opcode map of R103. -/
def opcodeMap : List OpcodeRow := configRows ++ commandRows

/-- Why a word is illegal (R104): its opcode is none of the 21, or a must-be-zero bit of its format is 1. -/
inductive Illegal where
  | unknownOpcode
  | reservedBitSet
  deriving DecidableEq, Repr

/-- The reason an illegal word is illegal (R104). -/
def illegalReason (w : Word) : Illegal :=
  if opcodeMap.any (fun row => opField row.pattern == opField w) then .reservedBitSet else .unknownOpcode

/-- Decoding is total (R105): the command of the row the word satisfies, or why it is illegal. -/
def decode (w : Word) : Except Illegal Instr :=
  match opcodeMap.find? (fun row => row.matches w) with
  | some row => .ok (row.build w)
  | none => .error (illegalReason w)

/-- The word of a command (R107's word column, R103's match column). On a command whose operands do not fit their fields
it is no encoding: `Instr.wellFormed` rules those out. -/
def encode : Instr → Word
  | .nop => 0x00000000
  | .setDim picw pich => BitVec.ofNat 32 (0x01000000 + pich * 256 + picw)
  | .setWin winx winy => BitVec.ofNat 32 (0x02000000 + winy * 256 + winx)
  | .setQp qp => BitVec.ofNat 32 (0x03000000 + qp)
  | .setIint iint => BitVec.ofNat 32 (0x04000000 + iint)
  | .setFeat feat => BitVec.ofNat 32 (0x05000000 + feat)
  | .setOvh ovh => BitVec.ofNat 32 (0x06000000 + ovh)
  | .start => 0x07000000
  | .beginFrame => 0x10000000
  | .loadMb => 0x11000000
  | .emit => 0x12000000
  | .install => 0x13000000
  | .intraPred => 0x20000000
  | .intraRecon => 0x21000000
  | .mcPred => 0x30000000
  | .mcRecon => 0x31000000
  | .fdct => 0x40000000
  | .idct => 0x41000000
  | .quant => 0x50000000
  | .dequant => 0x51000000
  | .reset => 0xFF000000

/-- The instruction the decoder reads from the word whose low `nbits` bits are those of `w` and whose other bits are 0.
A command is one 32-bit word (R100), consumed whole by the command port: it has no byte order (R72). -/
def decodeTableWord (nbits w : Nat) : Option Instr :=
  if nbits ≤ 32 then (decode (BitVec.ofNat 32 (w % 2 ^ nbits))).toOption else none

end Sys2Proof
end

