-- ==== Sys2Proof/Config.lean ====
section
/-! DEFINITION. The free values of the model: opaque constants, so that nothing proved can rest on what they are.
The engine's configuration is no parameter here: the host writes it into registers (00_scope.md R10, R11). -/

namespace Sys2Proof

/-- The sample at key `k` of a store whose unspecified content carries the tag `fill` (93_implementation_defined.md
U2, U3, U4: "any value"). Log 4. -/
opaque Config.unspecifiedSample (fill k : Nat) : Sample

/-- Element `k` of the macroblock buffer after a reset, for the tag `fill` (U1: "any value"). Log 3. -/
opaque Config.unspecifiedCoef (fill k : Nat) : Coef

/-- Element `k` of the edge registers after a reset, for the tag `fill` (U2: "any value"). Log 3. -/
opaque Config.unspecifiedEdge (fill k : Nat) : Sample

/-- The quotient of `x` by 0: R17 uses `div` only with a positive divisor. Log 16. -/
opaque Config.quotientByZero (x : Nat) : Nat

/-- The remainder of `x` by 0: R17 uses `mod` only with a positive divisor. Log 16. -/
opaque Config.remainderByZero (x : Nat) : Nat

end Sys2Proof
end

