-- ==== Sys2Proof/Machine/Numeric.lean ====
section
/-! DEFINITION. The fixed constants of the engine (00_scope.md R4 to R9) and the arithmetic primitives of its rules
(R17): unbounded integers, a width imposed only where a rule names it. -/

namespace Sys2Proof.Machine

/-- DEFAULT_SAMPLE (R7). -/
def defaultSample : Sample := 128

/-- SAMPLE_MAX (R4). -/
def sampleMax : Int := 255

/-- QP_MIN and QP_MAX (R10). -/
def qpMin : Nat := 2
def qpMax : Nat := 52

/-- WIN_MAX (R10). -/
def winMax : Nat := 16

/-- STEPS, the step sizes of the motion search (R8). -/
def searchSteps : List Int := [4, 2, 1]

/-- BASIS_FRAC and COEF_FRAC (R9). -/
def basisFrac : Nat := 16
def coefFrac : Nat := 3

/-- INF_COST, the cost of an unreachable motion candidate (R9). -/
def infCost : Int := 2 ^ 32 - 1

/-- CHROMA_DIV (R5). -/
def chromaDiv : Nat := 2

/-- `x div y` (R17), used with a positive divisor; by 0 a free value (log 16). -/
def floorDiv (x y : Nat) : Nat := if y = 0 then Config.quotientByZero x else x / y

/-- `x mod y` (R17), used with a positive divisor; by 0 a free value (log 16). -/
def floorMod (x y : Nat) : Nat := if y = 0 then Config.remainderByZero x else x % y

/-- `clamp(v, lo, hi)` (R17). -/
def clamp (v lo hi : Int) : Int := if v < lo then lo else if hi < v then hi else v

/-- `clip255(v)` (R17). -/
def clip255 (v : Int) : Int := clamp v 0 sampleMax

/-- `sat16(v)` (R17). -/
def sat16 (v : Int) : Int := clamp v (-32768) 32767

/-- `rnd_shr(a, s)`: a / 2^s to nearest, ties away from zero, for s >= 1 (R12, R17). -/
def rndShr (a : Int) (s : Nat) : Int := a.sign * ((a.natAbs + 2 ^ (s - 1)) / 2 ^ s : Nat)

/-- `rnd_div(a, d)`: a / d to nearest, ties away from zero, for d > 0 (R12, R17). -/
def rndDiv (a : Int) (d : Nat) : Int := a.sign * (floorDiv (2 * a.natAbs + d) (2 * d) : Nat)

/-- `sum over i in 0..n-1 of f(i)` on unbounded integers. -/
def sumTo : Nat → (Nat → Int) → Int
  | 0, _ => 0
  | n + 1, f => sumTo n f + f n

/-- `sum over r, c in 0..n-1 of f(r, c)`. -/
def sumSquare (n : Nat) (f : Nat → Nat → Int) : Int := sumTo n fun r => sumTo n fun c => f r c

/-- `tc_8`, `tc_16` and `tc_32` of a signed integer (R17): its two's-complement pattern. A value outside the width, which
no run produces, keeps its low bits (log 8). -/
def tc8 (v : Int) : BitVec 8 := BitVec.ofInt 8 v
def tc16 (v : Int) : BitVec 16 := BitVec.ofInt 16 v
def tc32 (v : Int) : BitVec 32 := BitVec.ofInt 32 v

end Sys2Proof.Machine
end

