-- ==== Sys2Proof/Machine/State.lean ====
section
/-! DEFINITION. Everything the spec gives the machine, as plain data (10_state.md R20), and its value after reset (R62).
The stores' operations stand in Machine/Ops.lean. -/

namespace Sys2Proof.Machine

/-- PHASE (R40, 60_exceptions.md R240). Code 3 never occurs (U8). -/
inductive Phase where
  | config
  | run
  | halt
  deriving DecidableEq, Repr

/-- FTYPE (R41): I, an intra-only frame, or P, a predicted frame. -/
inductive FrameType where
  | intra
  | predicted
  deriving DecidableEq, Repr

/-- STAGE, the pipeline-stage tag (R42). Codes 9 to 15 never occur (U8). -/
inductive Stage where
  | empty
  | raw
  | resid
  | xform
  | quant
  | sent
  | deq
  | ires
  | recon
  deriving DecidableEq, Repr

/-- MODE, the intra mode, in the document's priority order (R47). -/
inductive IntraMode where
  | dc
  | vertical
  | horizontal
  | diagonal
  deriving DecidableEq, Repr

/-- ERRCODE (R55, R231): no fault yet, or the code of the first fault. Codes 11 to 255 are never written (U8). -/
inductive ErrCode where
  | ok
  | illegal
  | phase
  | stage
  | ftype
  | cfgQp
  | cfgDim
  | cfgWin
  | cfgIint
  | incomplete
  | mbRange
  deriving DecidableEq, Repr

/-- The three channels, in the order Y, Cb, Cr (R5, R21). -/
inductive Plane where
  | y
  | cb
  | cr
  deriving DecidableEq, Repr

/-- A motion vector: dx points right, dy down, in luma samples, each a signed byte (R49). -/
structure MotionVec where
  dx : BitVec 8
  dy : BitVec 8
  deriving DecidableEq, Repr

/-- MBUF, the macroblock buffer: 384 signed 16-bit words (R21). -/
structure Mbuf where
  y : Grid 16 Coef
  cb : Grid 8 Coef
  cr : Grid 8 Coef
  deriving DecidableEq, Repr

/-- One channel's edge registers: the top edge left to right, the left edge top to bottom, the corner (R24). -/
structure EdgeChannel (n : Nat) where
  t : Vector Sample n
  l : Vector Sample n
  k : Sample
  deriving DecidableEq, Repr

/-- EDGE, the intra predictor's edge registers: 33 + 17 + 17 samples (R24). -/
structure Edge where
  y : EdgeChannel 16
  cb : EdgeChannel 8
  cr : EdgeChannel 8
  deriving DecidableEq, Repr

/-- The samples of a store that some rule has written, by key, in canonical form: keys strictly rising (`Memory.wf`). -/
abbrev Memory := List Host.Cell

/-- A sample store (REF, REC, SB; R25, R27, R28): the samples written, and the tag of its unspecified content, which every
other sample reads from (U2 to U4, log 4). -/
structure Store where
  cells : Memory
  fill : Nat
  deriving DecidableEq, Repr

/-- A picture of the frame source: three planes, each a list of rows (R29, 20_memory.md R71). -/
structure Picture where
  y : List (List Sample)
  cb : List (List Sample)
  cr : List (List Sample)
  deriving DecidableEq, Repr

/-- What the host does to the engine that changes state: it writes a command word (R57), or the platform asserts the
hardware reset input (70_reset_and_hazards.md R260). -/
inductive HostOp where
  | cmdWrite (w : Word)
  | hardReset
  deriving DecidableEq, Repr

/-- The whole state (R20): the host's side, the engine's registers, its stores, and the model's own two fields. -/
structure State where
  /-- The host's operations not yet performed, oldest first: the MODEL's own field (log 1). -/
  port : List HostOp
  /-- SRC, the pictures not yet delivered (R29). -/
  src : List Picture
  /-- CUR, held by the frame source: the picture delivered by the last successful BEGIN_FRAME, or none (R29). -/
  cur : Option Picture
  /-- OUT, the words handed to the entropy coder, oldest first (R56). -/
  out : List OutWord
  /-- DIM (R30). -/
  picw : BitVec 8
  pich : BitVec 8
  /-- WIN (R31). -/
  winx : BitVec 8
  winy : BitVec 8
  /-- QP (R32). -/
  qp : BitVec 8
  /-- IINT (R33). -/
  iint : BitVec 16
  /-- FEAT: bit 0 EN_INTRA, 1 EN_MC, 2 EN_T, 3 EN_Q (R34). -/
  feat : BitVec 4
  /-- OVH (R35). -/
  ovh : BitVec 24
  /-- PHASE (R40). -/
  phase : Phase
  /-- FOPEN (R41). -/
  fopen : Bool
  /-- FTYPE (R41). -/
  ftype : FrameType
  /-- STAGE (R42). -/
  stage : Stage
  /-- MBIDX (R43). -/
  mbidx : BitVec 16
  /-- IPOS (R44). -/
  ipos : BitVec 16
  /-- EOS (R45). -/
  eos : Bool
  /-- MODE (R47). -/
  mode : IntraMode
  /-- PART (R48). -/
  part : Bool
  /-- MV[0..3] (R49). -/
  mv : Vector MotionVec 4
  /-- MBQP (R50). -/
  mbqp : BitVec 8
  /-- COST0, COST1 (R51). -/
  cost0 : BitVec 32
  cost1 : BitVec 32
  /-- REFVALID (R52). -/
  refValid : Bool
  /-- SBVALID (R53). -/
  sbValid : Bool
  /-- SAT, sticky (R54). -/
  sat : Bool
  /-- ERRCODE, ERRCMD (R55). -/
  errCode : ErrCode
  errCmd : Word
  /-- MBUF (R21). -/
  mbuf : Mbuf
  /-- EDGE (R24). -/
  edge : Edge
  /-- SB (R25). -/
  sb : Store
  /-- REF (R27). -/
  refStore : Store
  /-- REC (R28). -/
  recStore : Store
  /-- The next unused tag of an unspecified content: the MODEL's own field (log 4). -/
  fillNext : Nat
  deriving DecidableEq, Repr

/-- Why the MODEL stops although the engine's rules never do: an index outside a store, which 20_memory.md R73 says is
never produced. Each is raised only in states that no run reaches, and is safe: no claim about a run can use it (log 7). -/
inductive Fault where
  /-- LOAD_MB when CUR is none or has not the planes of R71. Safe. -/
  | noCurrentPicture
  /-- INTRA_PRED, INTRA_RECON, MC_PRED, MC_RECON when MBIDX is not below NMB, where mbx and mby mean nothing (R37). Safe. -/
  | macroblockOutsidePicture
  /-- MC_RECON when a stored vector would read outside the search buffer (R151). Safe. -/
  | vectorOutsideSearchBuffer
  deriving DecidableEq, Repr

/-- Why a step has no meaning in the model. -/
inductive Refusal where
  /-- Raised by an arm of `exec` whose command has no meaning yet. Safe. -/
  | notModelled (mnemonic : String)
  /-- BEGIN_FRAME when the frame source delivers a picture that has not the configured size: "outside the spec" (U5, log 6). Safe. -/
  | pictureNotOfConfiguredSize
  deriving DecidableEq, Repr

/-- The edge registers of one channel at the model's reset value (log 2). -/
def EdgeChannel.zero (n : Nat) : EdgeChannel n := ⟨Vector.replicate n 0, Vector.replicate n 0, 0⟩

/-- The machine right after reset (R62). MBUF and EDGE, unspecified there, hold the value log 2 names; REF, REC and SB list
nothing; the frame source, the output stream and the port, outside the engine, are empty (logs 1, 11). -/
def State.reset : State where
  port := []
  src := []
  cur := none
  out := []
  picw := 0
  pich := 0
  winx := 0
  winy := 0
  qp := 0
  iint := 0
  feat := 0
  ovh := 0
  phase := .config
  fopen := false
  ftype := .intra
  stage := .empty
  mbidx := 0
  ipos := 0
  eos := false
  mode := .dc
  part := false
  mv := Vector.replicate 4 ⟨0, 0⟩
  mbqp := 0
  cost0 := 0
  cost1 := 0
  refValid := false
  sbValid := false
  sat := false
  errCode := .ok
  errCmd := 0
  mbuf := ⟨Vector.replicate 16 (Vector.replicate 16 0), Vector.replicate 8 (Vector.replicate 8 0),
    Vector.replicate 8 (Vector.replicate 8 0)⟩
  edge := ⟨EdgeChannel.zero 16, EdgeChannel.zero 8, EdgeChannel.zero 8⟩
  sb := ⟨[], 2⟩
  refStore := ⟨[], 0⟩
  recStore := ⟨[], 1⟩
  fillNext := 3

end Sys2Proof.Machine
end

