-- ==== Sys2Proof/Machine/Ops.lean ====
section
/-! DEFINITION. The named operations over the stores and the registers: memory in canonical form, sample stores, the
macroblock buffer, the fault (60_exceptions.md R232: the engine's only exception), the order of checks (R237), the HALT
phase (R241), and reset (70_reset_and_hazards.md R260: the only way on after a fault). -/

namespace Sys2Proof.Machine

/-! Memory: the samples of a store that some rule has written -/

/-- The canonical form: keys strictly rising. An unlisted key holds no value here, so no entry can equal one (log 4). -/
abbrev Memory.wf (m : Memory) : Prop := (m.map Prod.fst).Pairwise (· < ·)

/-- What a rule has written at key `k`, if any has. -/
def Memory.read : Memory → Nat → Option Sample
  | [], _ => none
  | (a, b) :: rest, k => if a = k then some b else Memory.read rest k

/-- Write `b` at key `k`, keeping the keys rising. -/
def Memory.write : Memory → Nat → Sample → Memory
  | [], k, b => [(k, b)]
  | (a, x) :: rest, k, b =>
    if k < a then (k, b) :: (a, x) :: rest
    else if k = a then (k, b) :: rest
    else (a, x) :: Memory.write rest k b

/-- The key of the sample at row `y`, column `x` of plane `p`: an injective packing of the three indices, rows and columns
below 2^20 (no store has more than 16 * 65536 of either). It is no address of the engine (R70). -/
def Plane.index : Plane → Nat
  | .y => 0
  | .cb => 1
  | .cr => 2

def sampleKey (p : Plane) (y x : Nat) : Nat := (p.index * 2 ^ 20 + y) * 2 ^ 20 + x

/-- `MemRead(S.P[y][x], 1)` (R17): the sample written there, or, where no rule has written, the store's unspecified content
(U2 to U4). -/
def Store.read (st : Store) (p : Plane) (y x : Nat) : Sample :=
  (Memory.read st.cells (sampleKey p y x)).getD (Config.unspecifiedSample st.fill (sampleKey p y x))

/-- `MemWrite(S.P[y][x], 1, v)` (R17). -/
def Store.write (st : Store) (p : Plane) (y x : Nat) (v : Sample) : Store :=
  { st with cells := Memory.write st.cells (sampleKey p y x) v }

/-- The cells of one luma-shaped table of `rows` rows by `cols` columns, in key order. -/
def Memory.table (rows cols : Nat) (f : Nat → Nat → Sample) : Memory :=
  (List.range rows).flatMap fun y => (List.range cols).map fun x => (sampleKey .y y x, f y x)

/-! The macroblock buffer -/

/-- N of a channel: 16 for Y, 8 for Cb and Cr (R21, R24). -/
def Plane.size : Plane → Nat
  | .y => 16
  | .cb => 8
  | .cr => 8

/-- The three channels in order (R5). -/
def planes : List Plane := [.y, .cb, .cr]

/-- The grid whose element at row r, column c is `f r c`. -/
def Grid.ofFn {α : Type} (n : Nat) (f : Nat → Nat → α) : Grid n α :=
  Vector.ofFn fun r => Vector.ofFn fun c => f r c

/-- The element at row r, column c; outside the grid, where no rule indexes (R73), `d`. -/
def Grid.get {α : Type} {n : Nat} (g : Grid n α) (r c : Nat) (d : α) : α :=
  if h : r < n ∧ c < n then (g[r]'h.1)[c]'h.2 else d

/-- The macroblock buffer whose word at row r, column c of plane p is `f p r c`. -/
def Mbuf.ofFn (f : Plane → Nat → Nat → Coef) : Mbuf :=
  ⟨Grid.ofFn 16 (f .y), Grid.ofFn 8 (f .cb), Grid.ofFn 8 (f .cr)⟩

/-- The word `MBUF.P[r][c]` (R21). -/
def Mbuf.word (m : Mbuf) : Plane → Nat → Nat → Coef
  | .y, r, c => Grid.get m.y r c 0
  | .cb, r, c => Grid.get m.cb r c 0
  | .cr, r, c => Grid.get m.cr r c 0

/-- The word `MBUF.P[r][c]` as a signed integer (R13). -/
def Mbuf.val (m : Mbuf) (p : Plane) (r c : Nat) : Int := (Mbuf.word m p r c).toInt

/-- Write all 384 words: `MBUF.P[r][c] <- f p r c` (R23). The values fit 16 bits in every run (log 8). -/
def setMbuf (f : Plane → Nat → Nat → Int) (s : State) : State :=
  { s with mbuf := Mbuf.ofFn fun p r c => tc16 (f p r c) }

/-! Derived quantities (R37) -/

/-- NMB = PICW * PICH. -/
def nmb (s : State) : Nat := s.picw.toNat * s.pich.toNat

/-- mbx = MBIDX mod PICW. -/
def mbx (s : State) : Nat := floorMod s.mbidx.toNat s.picw.toNat

/-- mby = MBIDX div PICW. -/
def mby (s : State) : Nat := floorDiv s.mbidx.toNat s.picw.toNat

/-- LW and LH, the luma plane's columns and rows. -/
def lw (s : State) : Nat := 16 * s.picw.toNat
def lh (s : State) : Nat := 16 * s.pich.toNat

/-- CW and CH, the chroma planes' columns and rows. -/
def cw (s : State) : Nat := 8 * s.picw.toNat
def ch (s : State) : Nat := 8 * s.pich.toNat

/-- mbx and mby may be used: MBIDX < NMB (R37). -/
def mbInPicture (s : State) : Bool := decide (s.mbidx.toNat < nmb s)

/-- EN_INTRA, EN_MC, EN_T, EN_Q (R34). -/
def enIntra (s : State) : Bool := s.feat.getLsbD 0
def enMc (s : State) : Bool := s.feat.getLsbD 1
def enT (s : State) : Bool := s.feat.getLsbD 2
def enQ (s : State) : Bool := s.feat.getLsbD 3

/-- The part of CUR that LOAD_MB can read (45_sequencer.md R211): CUR while a frame is open, else none. A view of CUR and
FOPEN, no state of its own. -/
def engineCur (s : State) : Option Picture := if s.fopen then s.cur else none

/-! Taking a fault, and reset, the way out of it -/

/-- The three outcomes of a step of this machine. -/
abbrev Result := Host.Outcome State Fault Refusal

/-- `raise Fault(code)` for the command word `w` (R232): ERRCODE, ERRCMD and PHASE, and nothing else. -/
def raiseFault (code : ErrCode) (w : Word) (s : State) : State :=
  { s with errCode := code, errCmd := w, phase := .halt }

/-- The code of the first check that fails, the checks being in R237's order. -/
def firstFailed : List (Bool × ErrCode) → Option ErrCode
  | [] => none
  | (ok, code) :: rest => if ok then firstFailed rest else some code

/-- A command word in the engine: ignored in HALT (R241); else its checks in order, and the fault of the first that fails
(R237); else its effect. -/
def command (w : Word) (checks : List (Bool × ErrCode)) (effect : State → Result) (s : State) : Result :=
  if s.phase = .halt then .next s
  else match firstFailed checks with
    | some code => .next (raiseFault code w s)
    | none => effect s

/-- An unspecified store with the given tag (U2 to U4). -/
def Store.unspecified (fill : Nat) : Store := ⟨[], fill⟩

/-- The macroblock buffer after a reset: unspecified (U1). -/
def unspecifiedMbuf (fill : Nat) : Mbuf :=
  Mbuf.ofFn fun p r c => Config.unspecifiedCoef fill (sampleKey p r c)

/-- One channel's edge registers after a reset: unspecified (U2). -/
def unspecifiedEdgeChannel (n fill : Nat) (p : Plane) : EdgeChannel n :=
  ⟨Vector.ofFn fun j => Config.unspecifiedEdge fill (sampleKey p 0 j),
   Vector.ofFn fun i => Config.unspecifiedEdge fill (sampleKey p 1 i),
   Config.unspecifiedEdge fill (sampleKey p 2 0)⟩

/-- The edge registers after a reset: unspecified (U2). -/
def unspecifiedEdge (fill : Nat) : Edge :=
  ⟨unspecifiedEdgeChannel 16 fill .y, unspecifiedEdgeChannel 8 fill .cb, unspecifiedEdgeChannel 8 fill .cr⟩

/-- The reset state, whichever way it is entered (R62, R216, R260): every register at its reset value; MBUF, EDGE, SB, REF
and REC unspecified (log 3); SRC, CUR, OUT and the host's port, outside the engine, unchanged (R62, 20_memory.md R78).
R216 also writes "CUR <- none", against R62, whose values it says it gives: DEDUCED, R62 is followed (log 10). -/
def resetEngine (s : State) : State :=
  { State.reset with
    port := s.port
    src := s.src
    cur := s.cur
    out := s.out
    mbuf := unspecifiedMbuf s.fillNext
    edge := unspecifiedEdge s.fillNext
    sb := Store.unspecified s.fillNext
    refStore := Store.unspecified (s.fillNext + 1)
    recStore := Store.unspecified (s.fillNext + 2)
    fillNext := s.fillNext + 3 }

end Sys2Proof.Machine
end

