-- ==== Sys2Proof/Machine/Flags.lean ====
section
/-! DEFINITION. The flags: the checks on the sequencing state that the commands share (45_sequencer.md R200, R237), the
sticky saturation flag SAT (10_state.md R54), and the codes of the inductive registers (R40, R41, R42, R47, R231). -/

namespace Sys2Proof.Machine

/-- PHASE = CONFIG, else E_PHASE (R202 to R208). -/
def inConfig (s : State) : Bool × ErrCode := (s.phase == .config, .phase)

/-- PHASE = RUN and FOPEN = 1, else E_PHASE (R234). -/
def frameOpen (s : State) : Bool × ErrCode := (s.phase == .run && s.fopen, .phase)

/-- PHASE = RUN and FOPEN = 0, else E_PHASE (R210). -/
def frameClosed (s : State) : Bool × ErrCode := (s.phase == .run && !s.fopen, .phase)

/-- FTYPE is the command's, else E_FTYPE (R235). -/
def ftypeIs (t : FrameType) (s : State) : Bool × ErrCode := (s.ftype == t, .ftype)

/-- STAGE is the one the command requires, else E_STAGE (R236). -/
def stageIs (g : Stage) (s : State) : Bool × ErrCode := (s.stage == g, .stage)

/-- Some word of the three planes satisfies `f`. -/
def anyWord (f : Plane → Nat → Nat → Bool) : Bool :=
  planes.any fun p => (List.range p.size).any fun r => (List.range p.size).any fun c => f p r c

/-- Write all 384 words through `sat16`, and set SAT when it changed a value (R23, R54). -/
def setMbufSat (f : Plane → Nat → Nat → Int) (s : State) : State :=
  { setMbuf (fun p r c => sat16 (f p r c)) s with
    sat := s.sat || anyWord fun p r c => decide (sat16 (f p r c) ≠ f p r c) }

/-- PHASE's code (R40). -/
def Phase.code : Phase → Nat
  | .config => 0
  | .run => 1
  | .halt => 2

/-- FTYPE's code (R41). -/
def FrameType.code : FrameType → Nat
  | .intra => 0
  | .predicted => 1

/-- STAGE's code (R42). -/
def Stage.code : Stage → Nat
  | .empty => 0
  | .raw => 1
  | .resid => 2
  | .xform => 3
  | .quant => 4
  | .sent => 5
  | .deq => 6
  | .ires => 7
  | .recon => 8

/-- MODE's code (R47). -/
def IntraMode.code : IntraMode → Nat
  | .dc => 0
  | .vertical => 1
  | .horizontal => 2
  | .diagonal => 3

/-- ERRCODE's code (R231). -/
def ErrCode.code : ErrCode → Nat
  | .ok => 0
  | .illegal => 1
  | .phase => 2
  | .stage => 3
  | .ftype => 4
  | .cfgQp => 5
  | .cfgDim => 6
  | .cfgWin => 7
  | .cfgIint => 8
  | .incomplete => 9
  | .mbRange => 10

/-- STATUS (R59): PHASE in bits 1:0, then FOPEN, FTYPE, REFVALID, EOS, SAT, PART, SBVALID in bits 2 to 8. -/
def statusWord (s : State) : Word :=
  BitVec.ofNat 32 (s.phase.code + 4 * s.fopen.toNat + 8 * s.ftype.code + 16 * s.refValid.toNat + 32 * s.eos.toNat
    + 64 * s.sat.toNat + 128 * s.part.toNat + 256 * s.sbValid.toNat)

end Sys2Proof.Machine
end

