-- ==== Sys2Proof/Machine/Operands.lean ====
section
/-! DEFINITION. The operand forms of the datapath commands: they name no register and no address (30_encoding.md R102), so
an operand is a place a rule reads: the macroblock's area of a picture (20_memory.md R71), a clamped reference read (R76,
R77), an edge register (10_state.md R24), a search-buffer sample (R25), the macroblock record (20_memory.md R82), and the
store of a reconstructed macroblock (R83). -/

namespace Sys2Proof.Machine

/-! Pictures -/

/-- The plane of a picture, as rows. -/
def Picture.plane (pic : Picture) : Plane → List (List Sample)
  | .y => pic.y
  | .cb => pic.cb
  | .cr => pic.cr

/-- `rows` rows of `cols` samples each. -/
def rowsShaped (rows cols : Nat) (l : List (List Sample)) : Bool :=
  decide (l.length = rows) && l.all fun row => decide (row.length = cols)

/-- The picture has exactly the planes of R71 for the configured size (R78). -/
def Picture.shaped (pic : Picture) (s : State) : Bool :=
  rowsShaped (lh s) (lw s) pic.y && rowsShaped (ch s) (cw s) pic.cb && rowsShaped (ch s) (cw s) pic.cr

/-- The sample at row y, column x of a plane of a picture; 0 outside the plane, where no rule reads (R73). -/
def Picture.sample (pic : Picture) (p : Plane) (y x : Nat) : Sample := ((pic.plane p).getD y []).getD x 0

/-- The row and column of the macroblock's top-left sample in plane p (R71). -/
def mbRow (s : State) (p : Plane) : Nat := p.size * mby s
def mbCol (s : State) (p : Plane) : Nat := p.size * mbx s

/-! Reference reads -/

/-- `RefY(y, x)`, the clamped luma reference read (R76). -/
def refY (s : State) (y x : Int) : Sample :=
  s.refStore.read .y (clamp y 0 (lh s - 1)).toNat (clamp x 0 (lw s - 1)).toNat

/-- `RefC(P, yl, xl)`, the clamped chroma reference read at a luma position: clamp first, then halve (R77). -/
def refC (s : State) (p : Plane) (yl xl : Int) : Sample :=
  s.refStore.read p ((clamp yl 0 (lh s - 1)).toNat / chromaDiv) ((clamp xl 0 (lw s - 1)).toNat / chromaDiv)

/-- `SB[y][x]` (R25); a reachable candidate never indexes below 0 (R144). -/
def sbSample (s : State) (y x : Int) : Sample := s.sb.read .y y.toNat x.toNat

/-! Edge registers -/

/-- Element i of an edge; 0 outside it, where no rule indexes (R125). -/
def edgeAt {n : Nat} (v : Vector Sample n) (i : Nat) : Sample := if h : i < n then v[i] else 0

/-- `EDGE.P.T[j]` as an integer (R24). -/
def Edge.top (e : Edge) (p : Plane) (j : Nat) : Int :=
  match p with
  | .y => (edgeAt e.y.t j).toNat
  | .cb => (edgeAt e.cb.t j).toNat
  | .cr => (edgeAt e.cr.t j).toNat

/-- `EDGE.P.L[i]` as an integer (R24). -/
def Edge.left (e : Edge) (p : Plane) (i : Nat) : Int :=
  match p with
  | .y => (edgeAt e.y.l i).toNat
  | .cb => (edgeAt e.cb.l i).toNat
  | .cr => (edgeAt e.cr.l i).toNat

/-- `EDGE.P.K` as an integer (R24). -/
def Edge.corner (e : Edge) (p : Plane) : Int :=
  match p with
  | .y => e.y.k.toNat
  | .cb => e.cb.k.toNat
  | .cr => e.cr.k.toNat

/-! Motion vectors -/

/-- Two's-complement components as integers (R49). -/
def MotionVec.x (v : MotionVec) : Int := v.dx.toInt
def MotionVec.down (v : MotionVec) : Int := v.dy.toInt

/-- `MV[q]` (R49). -/
def mvAt (s : State) (q : Nat) : MotionVec := if h : q < 4 then s.mv[q] else ⟨0, 0⟩

/-! The output record -/

/-- The header word list of a frame (R81): PICW, PICH, QP, IINT, FEAT, each zero-extended. -/
def frameHeader (s : State) : List OutWord :=
  [s.picw.setWidth 16, s.pich.setWidth 16, s.qp.setWidth 16, s.iint, s.feat.setWidth 16]

/-- The six 8x8 blocks of a macroblock in the order of R82: plane, first row, first column. -/
def recordBlocks : List (Plane × Nat × Nat) :=
  [(.y, 0, 0), (.y, 0, 8), (.y, 8, 0), (.y, 8, 8), (.cb, 0, 0), (.cr, 0, 0)]

/-- The 384 coefficient words, block by block, row by row (R82). -/
def coefficientWords (m : Mbuf) : List OutWord :=
  recordBlocks.flatMap fun b => (List.range 8).flatMap fun r => (List.range 8).map fun c =>
    tc16 (m.val b.1 (b.2.1 + r) (b.2.2 + c))

/-! The reconstruction store -/

/-- The positions of a channel, row by row. -/
def positions (n : Nat) : List (Nat × Nat) :=
  (List.range n).flatMap fun r => (List.range n).map fun c => (r, c)

/-- Store one channel of MBUF into REC at macroblock MBIDX (R83). -/
def storePlane (s : State) (st : Store) (p : Plane) : Store :=
  (positions p.size).foldl
    (fun st rc => st.write p (mbRow s p + rc.1) (mbCol s p + rc.2) (BitVec.ofInt 8 (s.mbuf.val p rc.1 rc.2))) st

/-- Store MBUF into REC at macroblock MBIDX: all three channels (R83). The words are already clipped. -/
def storeMacroblock (s : State) : Store := planes.foldl (storePlane s) s.recStore

/-- The end of a reconstruct command: store into REC, STAGE <- RECON, MBIDX <- MBIDX + 1 (R129, R158). -/
def finishMacroblock (s : State) : State :=
  { s with recStore := storeMacroblock s, stage := .recon, mbidx := s.mbidx + 1 }

end Sys2Proof.Machine
end

