-- ==== Sys2Proof/Machine/Intra.lean ====
section
/-! DEFINITION. The intra predictor (41_intra.md): INTRA_PRED and INTRA_RECON. -/

namespace Sys2Proof.Machine

/-! Neighbour gathering (R121) -/

/-- `EDGE.P.T[j]` from REC: the bottom row of the macroblock above, or the default sample. -/
def gatherTop (s : State) (p : Plane) (j : Nat) : Sample :=
  if 0 < mby s then s.recStore.read p (mbRow s p - 1) (mbCol s p + j) else defaultSample

/-- `EDGE.P.L[i]` from REC: the right column of the macroblock to the left, or the default sample. -/
def gatherLeft (s : State) (p : Plane) (i : Nat) : Sample :=
  if 0 < mbx s then s.recStore.read p (mbRow s p + i) (mbCol s p - 1) else defaultSample

/-- `EDGE.P.K` from REC: the default whenever either adjacent edge is missing. -/
def gatherCorner (s : State) (p : Plane) : Sample :=
  if 0 < mbx s ∧ 0 < mby s then s.recStore.read p (mbRow s p - 1) (mbCol s p - 1) else defaultSample

/-- One channel's edge registers. -/
def gatherChannel (s : State) (n : Nat) (p : Plane) : EdgeChannel n :=
  ⟨Vector.ofFn fun j => gatherTop s p j, Vector.ofFn fun i => gatherLeft s p i, gatherCorner s p⟩

/-- All edge registers. -/
def gatherEdge (s : State) : Edge :=
  ⟨gatherChannel s 16 .y, gatherChannel s 8 .cb, gatherChannel s 8 .cr⟩

/-! Candidates (R122 to R125) -/

/-- The shift of the DC mean: 5 for luma, 4 for chroma (R122). -/
def dcShift : Plane → Nat
  | .y => 5
  | .cb => 4
  | .cr => 4

/-- `E[d]`, the edge samples on one line: L reversed, K, T (R125). -/
def edgeLine (e : Edge) (p : Plane) (d : Int) : Int :=
  if d = 0 then e.corner p else if 0 < d then e.top p (d - 1).toNat else e.left p (-d - 1).toNat

/-- `Cand(P, m)[r][c]` (R122 DC, R123 Vertical, R124 Horizontal, R125 Diagonal). -/
def candidate (e : Edge) (p : Plane) (m : IntraMode) (r c : Nat) : Int :=
  match m with
  | .dc => (sumTo p.size (e.top p) + sumTo p.size (e.left p) + p.size) / 2 ^ dcShift p
  | .vertical => e.top p c
  | .horizontal => e.left p r
  | .diagonal =>
    let d : Int := c - r
    (edgeLine e p (d - 1) + 2 * edgeLine e p d + edgeLine e p (d + 1) + 2) / 4

/-! Selection (R126) -/

/-- `IntraSSE(m)`: luma only, on the original samples. -/
def intraSse (m : Mbuf) (e : Edge) (mode : IntraMode) : Int :=
  sumSquare 16 fun r c => (m.val .y r c - candidate e .y mode r c) ^ 2

/-- The mode R126 chooses from the four SSEs: the first strict improvement wins. -/
def selectMode (sse : IntraMode → Int) : IntraMode :=
  ([IntraMode.vertical, .horizontal, .diagonal].foldl
    (fun best m => if sse m < best.2 then (m, sse m) else best) (IntraMode.dc, sse .dc)).1

/-! The commands -/

/-- INTRA_PRED's effect with EN_INTRA = 1 (R120, R127). -/
def intraPredict (s : State) : State :=
  let e := gatherEdge s
  let m := selectMode (intraSse s.mbuf e)
  { setMbuf (fun p r c => s.mbuf.val p r c - candidate e p m r c) s with edge := e, mode := m, stage := .resid }

/-- INTRA_PRED (R120); pass-through with EN_INTRA = 0 (R128). -/
def execIntraPred (s : State) : Result :=
  command (encode .intraPred) [frameOpen s, ftypeIs .intra s, stageIs .raw s]
    (fun s =>
      if enIntra s then
        if mbInPicture s then .next (intraPredict s) else .fault .macroblockOutsidePicture
      else .next { s with mode := .dc, stage := .resid }) s

/-- INTRA_RECON's reconstructed words (R129): the stored mode's candidate on the stored edges, clipped. -/
def intraReconstruct (s : State) : State :=
  setMbuf (fun p r c => clip255 (s.mbuf.val p r c + if enIntra s then candidate s.edge p s.mode r c else 0)) s

/-- INTRA_RECON (R129). -/
def execIntraRecon (s : State) : Result :=
  command (encode .intraRecon) [frameOpen s, ftypeIs .intra s, stageIs .ires s]
    (fun s =>
      if mbInPicture s then .next (finishMacroblock (intraReconstruct s)) else .fault .macroblockOutsidePicture) s

end Sys2Proof.Machine
end

