-- ==== Sys2Proof/Machine/Motion.lean ====
section
/-! DEFINITION. The motion-search datapath (42_motion.md): MC_PRED and MC_RECON. -/

namespace Sys2Proof.Machine

/-- A search target's footprint: the square of luma positions with origin (oy, ox) and side n (R143). -/
structure Footprint where
  oy : Nat
  ox : Nat
  n : Nat
  deriving DecidableEq, Repr

/-- The whole block W (R143). -/
def wholeBlock : Footprint := ⟨0, 0, 16⟩

/-- Quadrant q (R143, R6). -/
def quadrant (q : Nat) : Footprint := ⟨8 * (q / 2), 8 * (q % 2), 8⟩

/-- The search buffer gathered for macroblock MBIDX (R142). -/
def gatherSb (s : State) : Store :=
  { s.sb with
    cells := Memory.table (2 * s.winy.toNat + 16) (2 * s.winx.toNat + 16) fun y x =>
      refY s ((16 * mby s : Nat) - s.winy.toNat + y) ((16 * mbx s : Nat) - s.winx.toNat + x) }

/-- `Reach(t, dx, dy)`: the samples the candidate reads lie inside SB (R144). -/
def reach (s : State) (t : Footprint) (dx dy : Int) : Bool :=
  decide (0 ≤ s.winx.toNat + dx + t.ox ∧ s.winx.toNat + dx + t.ox + t.n ≤ 2 * s.winx.toNat + 16) &&
    decide (0 ≤ s.winy.toNat + dy + t.oy ∧ s.winy.toNat + dy + t.oy + t.n ≤ 2 * s.winy.toNat + 16)

/-- `Sse(t, dx, dy)` over the footprint (R145): the full sum, which no early exit changes (R148). -/
def motionSse (s : State) (t : Footprint) (dx dy : Int) : Int :=
  sumSquare t.n fun j i =>
    (s.mbuf.val .y (t.oy + j) (t.ox + i)
      - (sbSample s (s.winy.toNat + dy + t.oy + j) (s.winx.toNat + dx + t.ox + i)).toNat) ^ 2

/-- The cost of a candidate: INF_COST where it is unreachable, which is then never adopted (R144). -/
def candidateCost (s : State) (t : Footprint) (dx dy : Int) : Int :=
  if reach s t dx dy then motionSse s t dx dy else infCost

/-- The eight neighbours (sx, sy), row by row, top row first (R147). -/
def neighbours : List (Int × Int) :=
  [(-1, -1), (0, -1), (1, -1), (-1, 0), (1, 0), (-1, 1), (0, 1), (1, 1)]

/-- A search's best vector (dx, dy) and its cost. -/
structure Found where
  dx : Int
  dy : Int
  cost : Int
  deriving DecidableEq, Repr

/-- Visit one candidate: adopt it only when it is reachable and strictly better (R146, R147). -/
def visit (s : State) (t : Footprint) (best : Found) (dx dy : Int) : Found :=
  if reach s t dx dy && decide (candidateCost s t dx dy < best.cost) then ⟨dx, dy, candidateCost s t dx dy⟩ else best

/-- One iteration with the given step: the eight neighbours of the centre the iteration started with (R146). -/
def searchIteration (s : State) (t : Footprint) (best : Found) (step : Int) : Found :=
  neighbours.foldl (fun b n => visit s t b (best.dx + n.1 * step) (best.dy + n.2 * step)) best

/-- `Search(t)`: the three-step search (R146). -/
def search (s : State) (t : Footprint) : Found :=
  searchSteps.foldl (searchIteration s t) ⟨0, 0, motionSse s t 0 0⟩

/-- A found vector as the register holds it (R49). -/
def Found.vec (f : Found) : MotionVec := ⟨tc8 f.dx, tc8 f.dy⟩

/-- The sum of the four quadrant costs (R140). -/
def quadrantCost (s : State) : Int := ((List.range 4).map fun q => (search s (quadrant q)).cost).sum

/-- `COST1 + OVH < COST0` on unbounded integers: four vectors are adopted (R150). -/
def partitioned (s : State) : Bool :=
  decide (quadrantCost s + s.ovh.toNat < (search s wholeBlock).cost)

/-- The four vector slots after the partition decision (R150). -/
def decidedVectors (s : State) : Vector MotionVec 4 :=
  Vector.ofFn fun q => if partitioned s then (search s (quadrant q)).vec else (search s wholeBlock).vec

/-- The quadrant of row r, column c in a channel: qY of R151, qC of R152. -/
def quadrantOf (p : Plane) (r c : Nat) : Nat := 2 * (r / (p.size / 2)) + c / (p.size / 2)

/-- `PredY[r][c]` (R151). -/
def predLuma (s : State) (r c : Nat) : Sample :=
  let v := mvAt s (quadrantOf .y r c)
  sbSample s (s.winy.toNat + v.down + r) (s.winx.toNat + v.x + c)

/-- `PredC(P)[r][c]` (R152). -/
def predChroma (s : State) (p : Plane) (r c : Nat) : Sample :=
  let v := mvAt s (quadrantOf p r c)
  refC s p ((16 * mby s + 2 * r : Nat) + v.down) ((16 * mbx s + 2 * c : Nat) + v.x)

/-- The prediction of any channel. -/
def motionPrediction (s : State) (p : Plane) (r c : Nat) : Int :=
  match p with
  | .y => (predLuma s r c).toNat
  | .cb => (predChroma s .cb r c).toNat
  | .cr => (predChroma s .cr r c).toNat

/-- MC_PRED's search result in the metadata registers, on a state whose SB is gathered (R140, R150). -/
def motionSearch (s : State) : State :=
  { s with
    cost0 := tc32 (search s wholeBlock).cost
    cost1 := tc32 (quadrantCost s)
    part := partitioned s
    mv := decidedVectors s }

/-- Subtract the prediction from all three channels (R154). -/
def motionSubtract (s : State) : State :=
  { setMbuf (fun p r c => s.mbuf.val p r c - motionPrediction s p r c) s with stage := .resid }

/-- MC_PRED (R140); pass-through with EN_MC = 0 (R141). -/
def execMcPred (s : State) : Result :=
  command (encode .mcPred) [frameOpen s, ftypeIs .predicted s, stageIs .raw s]
    (fun s =>
      if enMc s then
        if mbInPicture s then .next (motionSubtract (motionSearch { s with sb := gatherSb s, sbValid := true }))
        else .fault .macroblockOutsidePicture
      else .next { s with
        mv := Vector.replicate 4 ⟨0, 0⟩
        part := false
        cost0 := 0
        cost1 := 0
        stage := .resid }) s

/-- Every stored vector was reachable for its quadrant, so R151's index is inside SB. -/
def vectorsReach (s : State) : Bool :=
  (List.range 4).all fun q => reach s (quadrant q) (mvAt s q).x (mvAt s q).down

/-- MC_RECON's reconstructed words (R158): the stored vectors, no search. -/
def motionReconstruct (s : State) : State :=
  setMbuf (fun p r c => clip255 (s.mbuf.val p r c + if enMc s then motionPrediction s p r c else 0)) s

/-- MC_RECON (R158). -/
def execMcRecon (s : State) : Result :=
  command (encode .mcRecon) [frameOpen s, ftypeIs .predicted s, stageIs .ires s]
    (fun s =>
      if mbInPicture s then
        if enMc s && !vectorsReach s then .fault .vectorOutsideSearchBuffer
        else .next (finishMacroblock (motionReconstruct s))
      else .fault .macroblockOutsidePicture) s

end Sys2Proof.Machine
end

