-- ==== Sys2Proof/Machine/Quantizer.lean ====
section
/-! DEFINITION. The quantizer (44_quantizer.md): QUANT and DEQUANT. -/

namespace Sys2Proof.Machine

/-- `Q(w, q) = rnd_div(w, 8*q)`, written as R185 writes it: sign(w) * ((abs(w) + 4*q) div (8*q)). -/
def quantLevel (w : Int) (q : Nat) : Int := w.sign * (floorDiv (w.natAbs + 4 * q) (8 * q) : Nat)

/-- `DQ(l, q) = l * q * 8` (R185). -/
def dequantWord (l : Int) (q : Nat) : Int := l * q * 8

/-- QUANT (R186): MBQP is written whether or not EN_Q is set (R187, R188). -/
def execQuant (s : State) : Result :=
  command (encode .quant) [frameOpen s, stageIs .xform s]
    (fun s =>
      let t := if enQ s then setMbuf (fun p r c => quantLevel (s.mbuf.val p r c) s.qp.toNat) s else s
      .next { t with mbqp := s.qp, stage := .quant }) s

/-- DEQUANT (R189): the step is the stored MBQP (R188). -/
def execDequant (s : State) : Result :=
  command (encode .dequant) [frameOpen s, stageIs .sent s]
    (fun s =>
      let t := if enQ s then setMbufSat (fun p r c => dequantWord (s.mbuf.val p r c) s.mbqp.toNat) s else s
      .next { t with stage := .deq }) s

end Sys2Proof.Machine
end

