-- ==== Sys2Proof/Machine/Sequencer.lean ====
section
/-! DEFINITION. Configuration, frame and macroblock sequencing commands (45_sequencer.md): NOP, the six SET_* commands,
START, BEGIN_FRAME, LOAD_MB, EMIT, INSTALL, RESET. -/

namespace Sys2Proof.Machine

/-- NOP (R201): no effect. -/
def execNop (s : State) : Result := command (encode .nop) [] .next s

/-- SET_DIM picw, pich (R202): stored unchecked (R106). -/
def execSetDim (picw pich : Nat) (s : State) : Result :=
  command (encode (.setDim picw pich)) [inConfig s]
    (fun s => .next { s with picw := BitVec.ofNat 8 picw, pich := BitVec.ofNat 8 pich }) s

/-- SET_WIN winx, winy (R203). -/
def execSetWin (winx winy : Nat) (s : State) : Result :=
  command (encode (.setWin winx winy)) [inConfig s]
    (fun s => .next { s with winx := BitVec.ofNat 8 winx, winy := BitVec.ofNat 8 winy }) s

/-- SET_QP qp (R204). -/
def execSetQp (qp : Nat) (s : State) : Result :=
  command (encode (.setQp qp)) [inConfig s] (fun s => .next { s with qp := BitVec.ofNat 8 qp }) s

/-- SET_IINT iint (R205). -/
def execSetIint (iint : Nat) (s : State) : Result :=
  command (encode (.setIint iint)) [inConfig s] (fun s => .next { s with iint := BitVec.ofNat 16 iint }) s

/-- SET_FEAT feat (R206). -/
def execSetFeat (feat : Nat) (s : State) : Result :=
  command (encode (.setFeat feat)) [inConfig s] (fun s => .next { s with feat := BitVec.ofNat 4 feat }) s

/-- SET_OVH ovh (R207). -/
def execSetOvh (ovh : Nat) (s : State) : Result :=
  command (encode (.setOvh ovh)) [inConfig s] (fun s => .next { s with ovh := BitVec.ofNat 24 ovh }) s

/-- START's configuration checks in their order: QP, DIM, WIN, IINT (R208, R237, R238). -/
def configChecks (s : State) : List (Bool × ErrCode) :=
  [ (decide (qpMin ≤ s.qp.toNat ∧ s.qp.toNat ≤ qpMax), .cfgQp),
    (decide (1 ≤ s.picw.toNat ∧ 1 ≤ s.pich.toNat), .cfgDim),
    (decide (s.winx.toNat ≤ winMax ∧ s.winy.toNat ≤ winMax), .cfgWin),
    (decide (1 ≤ s.iint.toNat), .cfgIint) ]

/-- START (R208): REF and REC take the configured shape, their contents stay unspecified (log 5). -/
def execStart (s : State) : Result :=
  command (encode .start) (inConfig s :: configChecks s)
    (fun s => .next { s with
      phase := .run
      ipos := 0
      refValid := false
      refStore := Store.unspecified s.fillNext
      recStore := Store.unspecified (s.fillNext + 1)
      fillNext := s.fillNext + 2 }) s

/-- BEGIN_FRAME on a delivered picture (R210). -/
def openFrame (pic : Picture) (rest : List Picture) (s : State) : State :=
  { s with
    cur := some pic
    src := rest
    fopen := true
    ftype := if s.ipos = 0 then .intra else .predicted
    mbidx := 0
    stage := .empty
    sbValid := false
    out := s.out ++ frameHeader s }

/-- BEGIN_FRAME (R210): end of stream sets EOS and is no fault (R246). -/
def execBeginFrame (s : State) : Result :=
  command (encode .beginFrame) [frameClosed s]
    (fun s => match s.src with
      | [] => .next { s with eos := true }
      | pic :: rest =>
        if pic.shaped s then .next (openFrame pic rest s) else .refused .pictureNotOfConfiguredSize) s

/-- The macroblock's samples and cleared metadata (R211). -/
def loadMacroblock (pic : Picture) (s : State) : State :=
  { setMbuf (fun p r c => (pic.sample p (mbRow s p + r) (mbCol s p + c)).toNat) s with
    mode := .dc
    part := false
    mv := Vector.replicate 4 ⟨0, 0⟩
    mbqp := 0
    cost0 := 0
    cost1 := 0
    sbValid := false
    stage := .raw }

/-- LOAD_MB (R211). -/
def execLoadMb (s : State) : Result :=
  command (encode .loadMb) [frameOpen s, (s.stage == .empty || s.stage == .recon, .stage), (mbInPicture s, .mbRange)]
    (fun s => match engineCur s with
      | some pic => if pic.shaped s then .next (loadMacroblock pic s) else .fault .noCurrentPicture
      | none => .fault .noCurrentPicture) s

/-- The metadata words of a macroblock record (R82): MODE in an I frame; PART and the four vectors in a P frame. -/
def metadataWords (s : State) : List OutWord :=
  match s.ftype with
  | .intra => [BitVec.ofNat 16 s.mode.code]
  | .predicted =>
    BitVec.ofNat 16 s.part.toNat
      :: (List.range 4).flatMap fun q => [tc16 (mvAt s q).x, tc16 (mvAt s q).down]

/-- EMIT (R212). -/
def execEmit (s : State) : Result :=
  command (encode .emit) [frameOpen s, stageIs .quant s]
    (fun s => .next { s with out := s.out ++ (metadataWords s ++ coefficientWords s.mbuf), stage := .sent }) s

/-- INSTALL (R214): REF takes REC's content whole; REC's own becomes unspecified (U3, log 5). -/
def execInstall (s : State) : Result :=
  command (encode .install) [frameOpen s, (s.mbidx.toNat == nmb s, .incomplete)]
    (fun s => .next { s with
      refStore := s.recStore
      recStore := Store.unspecified s.fillNext
      fillNext := s.fillNext + 1
      refValid := true
      fopen := false
      cur := none
      ipos := BitVec.ofNat 16 (floorMod (s.ipos.toNat + 1) s.iint.toNat)
      stage := .empty
      sbValid := false }) s

/-- RESET (R216): no check, accepted in every phase, HALT too (R241). -/
def execReset (s : State) : Result := .next (resetEngine s)

end Sys2Proof.Machine
end

