-- ==== Sys2Proof/Machine/Transform.lean ====
section
/-! DEFINITION. The transform unit (43_transform.md): the basis ROM, FDCT and IDCT. -/

namespace Sys2Proof.Machine

/-- The basis ROM's rows (R171): "The table is the definition". -/
def basisTable : List (List Int) :=
  [ [23170, 23170, 23170, 23170, 23170, 23170, 23170, 23170],
    [32138, 27246, 18205, 6393, -6393, -18205, -27246, -32138],
    [30274, 12540, -12540, -30274, -30274, -12540, 12540, 30274],
    [27246, -6393, -32138, -18205, 18205, 32138, 6393, -27246],
    [23170, -23170, -23170, 23170, 23170, -23170, -23170, 23170],
    [18205, -32138, 6393, 27246, -27246, -6393, 32138, -18205],
    [12540, -30274, 30274, -12540, -12540, 30274, -30274, 12540],
    [6393, -18205, 27246, -32138, 32138, -27246, 18205, -6393] ]

/-- `BASIS[k][n]`, k the frequency index, n the sample index (R26, R171). -/
def basis (k n : Nat) : Int := (basisTable.getD k []).getD n 0

/-- An 8x8 array of integers, by row and column. -/
abbrev Block := Nat → Nat → Int

/-- The block of channel P that holds row r, column c, as an array (R172): the luma plane is covered by its four 8x8
quadrants, a chroma plane is one block. -/
def blockAt (m : Mbuf) (p : Plane) (r c : Nat) : Block :=
  fun i j => m.val p (8 * (r / 8) + i) (8 * (c / 8) + j)

/-- `acc(u, v)` of R174. -/
def forwardAcc (x : Block) (u v : Nat) : Int := sumSquare 8 fun r c => basis u r * basis v c * x r c

/-- `Fwd8(X)[u][v]` before `sat16` (R174): one rounding, the shift is 2 * BASIS_FRAC - COEF_FRAC = 29. -/
def forward8 (x : Block) (u v : Nat) : Int := rndShr (forwardAcc x u v) (2 * basisFrac - coefFrac)

/-- `acc(r, c)` of R177: the roles of the ROM's indices exchanged. -/
def inverseAcc (x : Block) (r c : Nat) : Int := sumSquare 8 fun u v => basis u r * basis v c * x u v

/-- `Inv8(C)[r][c]` before `sat16` (R177): the shift is 2 * BASIS_FRAC + COEF_FRAC = 35. -/
def inverse8 (x : Block) (r c : Nat) : Int := rndShr (inverseAcc x r c) (2 * basisFrac + coefFrac)

/-- FDCT's word at row r, column c of channel P before `sat16` (R173); pass-through times 8 (R175). -/
def forwardWord (s : State) (p : Plane) (r c : Nat) : Int :=
  if enT s then forward8 (blockAt s.mbuf p r c) (r % 8) (c % 8) else 2 ^ coefFrac * s.mbuf.val p r c

/-- IDCT's word at row r, column c of channel P before `sat16` (R176); pass-through rounded by 8 (R178). -/
def inverseWord (s : State) (p : Plane) (r c : Nat) : Int :=
  if enT s then inverse8 (blockAt s.mbuf p r c) (r % 8) (c % 8) else rndShr (s.mbuf.val p r c) coefFrac

/-- FDCT (R173). -/
def execFdct (s : State) : Result :=
  command (encode .fdct) [frameOpen s, stageIs .resid s]
    (fun s => .next { setMbufSat (forwardWord s) s with stage := .xform }) s

/-- IDCT (R176). -/
def execIdct (s : State) : Result :=
  command (encode .idct) [frameOpen s, stageIs .deq s]
    (fun s => .next { setMbufSat (inverseWord s) s with stage := .ires }) s

end Sys2Proof.Machine
end

