-- ==== Sys2Proof/Machine/Dispatch.lean ====
section
/-! DEFINITION. One arm per command: which meaning a command has. -/

namespace Sys2Proof.Machine

def exec (i : Instr) (s : State) : Host.Outcome State Fault Refusal :=
  match i with
  | .nop => Sys2Proof.Machine.execNop s
  | .setDim picw pich => Sys2Proof.Machine.execSetDim picw pich s
  | .setWin winx winy => Sys2Proof.Machine.execSetWin winx winy s
  | .setQp qp => Sys2Proof.Machine.execSetQp qp s
  | .setIint iint => Sys2Proof.Machine.execSetIint iint s
  | .setFeat feat => Sys2Proof.Machine.execSetFeat feat s
  | .setOvh ovh => Sys2Proof.Machine.execSetOvh ovh s
  | .start => Sys2Proof.Machine.execStart s
  | .beginFrame => Sys2Proof.Machine.execBeginFrame s
  | .loadMb => Sys2Proof.Machine.execLoadMb s
  | .emit => Sys2Proof.Machine.execEmit s
  | .install => Sys2Proof.Machine.execInstall s
  | .intraPred => Sys2Proof.Machine.execIntraPred s
  | .intraRecon => Sys2Proof.Machine.execIntraRecon s
  | .mcPred => Sys2Proof.Machine.execMcPred s
  | .mcRecon => Sys2Proof.Machine.execMcRecon s
  | .fdct => Sys2Proof.Machine.execFdct s
  | .idct => Sys2Proof.Machine.execIdct s
  | .quant => Sys2Proof.Machine.execQuant s
  | .dequant => Sys2Proof.Machine.execDequant s
  | .reset => Sys2Proof.Machine.execReset s

end Sys2Proof.Machine
end

