-- ==== Sys2Proof/Machine/Port.lean ====
section
/-! DEFINITION. The host port: what one operation of the host does to the engine (00_scope.md R3, 10_state.md R57,
70_reset_and_hazards.md R260). -/

namespace Sys2Proof.Machine

/-- `CmdWrite(w)`: decode, then the command; an illegal word is E_ILLEGAL in CONFIG and RUN and ignored in HALT
(30_encoding.md R104, 60_exceptions.md R233, R241). -/
def cmdWrite (w : Word) (s : State) : Result :=
  match decode w with
  | .ok i => exec i s
  | .error _ => command w [(false, .illegal)] .next s

/-- One operation of the host: a command word, or the hardware reset, which has RESET's effect (R260). -/
def hostOp (op : HostOp) (s : State) : Result :=
  match op with
  | .cmdWrite w => cmdWrite w s
  | .hardReset => .next (resetEngine s)

/-- Take the host's oldest operation off the port and perform it; with none there the engine waits (R260, R242). -/
def performNext (s : State) : Result :=
  match s.port with
  | [] => .next s
  | op :: rest => hostOp op { s with port := rest }

/-- The word a table row's instruction has, as the host writes it: the low `nbits` bits of `w`, the others 0. -/
def tableWord (nbits w : Nat) : Word := BitVec.ofNat 32 (w % 2 ^ nbits)

end Sys2Proof.Machine
end

