-- ==== Sys2Proof/Machine/Step.lean ====
section
/-! DEFINITION. One step of the machine: one operation of the host (00_scope.md R3: "One step of the machine is one
command"). -/

namespace Sys2Proof.Machine

/-- One step. -/
def step (s : State) : Host.Outcome State Fault Refusal := performNext s

/-- The state whose next step runs the instruction whose bits are `w`: the word is the next the host writes (log 1). -/
def State.withFetchWord (s : State) (nbits w : Nat) : State :=
  { s with port := .cmdWrite (tableWord nbits w) :: s.port }

end Sys2Proof.Machine
end

