-- ==== Sys2Proof/Machine/Registers.lean ====
section
/-! DEFINITION. The host's register view, `CsrRead(n)` (10_state.md R57 to R60): a function of the state between two
commands that changes nothing. -/

namespace Sys2Proof.Machine

/-- The registers of R58 with the numbers 0x00 to 0x15. -/
def csrLow (n : Nat) (s : State) : Word :=
  match n with
  | 0x00 => 0
  | 0x01 => statusWord s
  | 0x02 => BitVec.ofNat 32 s.errCode.code
  | 0x03 => s.errCmd
  | 0x04 => (s.pich ++ s.picw).setWidth 32
  | 0x05 => (s.winy ++ s.winx).setWidth 32
  | 0x06 => s.qp.setWidth 32
  | 0x07 => s.iint.setWidth 32
  | 0x08 => s.feat.setWidth 32
  | 0x09 => s.ovh.setWidth 32
  | 0x0A => s.ipos.setWidth 32
  | 0x0B => s.mbidx.setWidth 32
  | 0x0C => BitVec.ofNat 32 s.stage.code
  | 0x0D => BitVec.ofNat 32 s.mode.code
  | 0x0E => s.mbqp.setWidth 32
  | 0x10 => ((mvAt s 0).dy ++ (mvAt s 0).dx).setWidth 32
  | 0x11 => ((mvAt s 1).dy ++ (mvAt s 1).dx).setWidth 32
  | 0x12 => ((mvAt s 2).dy ++ (mvAt s 2).dx).setWidth 32
  | 0x13 => ((mvAt s 3).dy ++ (mvAt s 3).dx).setWidth 32
  | 0x14 => s.cost0
  | 0x15 => s.cost1
  | _ => 0

/-- `CsrRead(n)` (R58): the MBUF window 0x200 to 0x37F returns sign-extended words whatever STAGE is (R60); an unlisted
number reads 0 (U7). -/
def csrRead (n : Nat) (s : State) : Word :=
  if n < 0x200 then csrLow n s
  else if n < 0x300 then tc32 (s.mbuf.val .y ((n - 0x200) / 16) ((n - 0x200) % 16))
  else if n < 0x340 then tc32 (s.mbuf.val .cb ((n - 0x300) / 8) ((n - 0x300) % 8))
  else if n < 0x380 then tc32 (s.mbuf.val .cr ((n - 0x340) / 8) ((n - 0x340) % 8))
  else 0

end Sys2Proof.Machine
end

