-- ==== Sys2Proof/Safety.lean ====
section
/-! DEFINITION. What a safe run is, in the terms the claims use: the machine-wide invariants the spec states
(45_sequencer.md R219, 10_state.md R22, R49, R53, R54, 20_memory.md R90), and what it means that two states differ only in
contents the spec leaves unspecified (70_reset_and_hazards.md R265). -/

namespace Sys2Proof.Machine

/-- PHASE = RUN and FOPEN = 1: what every command inside a frame needs (R234). -/
abbrev FrameIsOpen (s : State) : Prop := s.phase = .run ∧ s.fopen = true

/-- The configuration START accepts (R208). -/
abbrev ConfigLegal (s : State) : Prop :=
  (2 ≤ s.qp.toNat ∧ s.qp.toNat ≤ 52) ∧ (1 ≤ s.picw.toNat ∧ 1 ≤ s.pich.toNat) ∧
    (s.winx.toNat ≤ 16 ∧ s.winy.toNat ≤ 16) ∧ 1 ≤ s.iint.toNat

/-- STAGE is RAW to IRES: a macroblock is on its way (R219 b). -/
def Stage.busy : Stage → Bool
  | .empty => false
  | .recon => false
  | .raw => true
  | .resid => true
  | .xform => true
  | .quant => true
  | .sent => true
  | .deq => true
  | .ires => true

/-- STAGE is RESID to IRES: a prediction has been applied and not yet added back. -/
def Stage.predicted : Stage → Bool
  | .empty => false
  | .recon => false
  | .raw => false
  | .resid => true
  | .xform => true
  | .quant => true
  | .sent => true
  | .deq => true
  | .ires => true

/-- STAGE is SENT, DEQ or IRES: the macroblock's record has been pushed (R219 h). -/
def Stage.emitted : Stage → Bool
  | .sent => true
  | .deq => true
  | .ires => true
  | .empty => false
  | .raw => false
  | .resid => false
  | .xform => false
  | .quant => false
  | .recon => false

/-- The sequencing invariants: R219 (a) to (f), the idle registers of the CONFIG phase (R208), the bound of MBIDX (R43),
the open frame's picture (R29, R78), and ERRCODE telling of a halt (R55). -/
structure SequencerInv (s : State) : Prop where
  runLegal : s.phase = .run → ConfigLegal s
  configIdle : s.phase = .config →
    s.fopen = false ∧ s.stage = .empty ∧ s.mbidx = 0 ∧ s.ipos = 0 ∧ s.eos = false
  faultRecorded : s.phase = .halt ↔ s.errCode ≠ .ok
  closedEmpty : s.phase = .run → s.fopen = false → s.stage = .empty
  busyInPicture : s.phase = .run → s.stage.busy = true → s.mbidx.toNat < nmb s
  reconCount : s.phase = .run → s.stage = .recon → 1 ≤ s.mbidx.toNat
  firstMacroblock : s.phase = .run → s.fopen = true → s.stage = .empty → s.mbidx = 0
  indexBound : s.phase = .run → s.mbidx.toNat ≤ nmb s
  predictedHasRef : s.phase = .run → s.fopen = true → s.ftype = .predicted → s.refValid = true
  intraAtZero : s.phase = .run → s.fopen = true → (s.ftype = .intra ↔ s.ipos = 0)
  iposBound : s.phase = .run → s.ipos.toNat < s.iint.toNat
  laterHasRef : s.phase = .run → s.ipos ≠ 0 → s.refValid = true
  openPicture : s.phase = .run → s.fopen = true → ∃ pic, s.cur = some pic ∧ pic.shaped s = true

/-- Every sample of macroblock m of a store has been written. -/
def MacroblockStored (st : Store) (s : State) (m : Nat) : Prop :=
  ∀ p : Plane, ∀ r < p.size, ∀ c < p.size,
    (Memory.read st.cells
      (sampleKey p (p.size * (m / s.picw.toNat) + r) (p.size * (m % s.picw.toNat) + c))).isSome = true

/-- The macroblocks the open frame has reconstructed are in REC, and a valid REF is whole (R219 g, R90, R52). -/
structure CoverageInv (s : State) : Prop where
  recCovers : s.phase = .run → s.fopen = true → ∀ m < s.mbidx.toNat, MacroblockStored s.recStore s m
  refCovers : s.phase = .run → s.refValid = true → ∀ m < nmb s, MacroblockStored s.refStore s m

/-- What the reconstruct commands read is what the predictor left: EDGE (R129), SB and the vectors (R53, R151), four equal
vectors without partition, components in -7..7 (R49), and MBQP = QP (R50). -/
structure DatapathInv (s : State) : Prop where
  edgeGathered : s.phase = .run → s.fopen = true → s.ftype = .intra → enIntra s = true → s.stage.predicted = true →
    s.edge = gatherEdge s
  windowGathered : s.phase = .run → s.fopen = true → s.ftype = .predicted → enMc s = true → s.stage.predicted = true →
    s.sbValid = true ∧ s.sb.cells = (gatherSb s).cells ∧ vectorsReach s = true
  unsplitEqual : s.part = false → ∀ q < 4, mvAt s q = mvAt s 0
  vectorRange : ∀ q < 4, (-7 ≤ (mvAt s q).x ∧ (mvAt s q).x ≤ 7) ∧ (-7 ≤ (mvAt s q).down ∧ (mvAt s q).down ≤ 7)
  stepInEffect : s.phase = .run → s.stage.emitted = true ∨ s.stage = .quant → s.mbqp = s.qp

/-- The least and greatest value of an MBUF word at each stage (R22). -/
def stageRange (enQ : Bool) : Stage → Option (Int × Int)
  | .empty => none
  | .raw => some (0, 255)
  | .resid => some (-255, 255)
  | .xform => some (-16320, 16320)
  | .quant => if enQ then some (-1020, 1020) else some (-16320, 16320)
  | .sent => if enQ then some (-1020, 1020) else some (-16320, 16320)
  | .deq => some (-16528, 16528)
  | .ires => some (-14419, 14419)
  | .recon => some (0, 255)

/-- Every MBUF word is in its stage's range (R22), a level's reconstruction stays near its word (R189), and SAT is 0 (R54). -/
structure RangeInv (s : State) : Prop where
  inRange : s.phase = .run → ∀ lo hi, stageRange (enQ s) s.stage = some (lo, hi) →
    ∀ p : Plane, ∀ r < p.size, ∀ c < p.size, lo ≤ s.mbuf.val p r c ∧ s.mbuf.val p r c ≤ hi
  levelBound : s.phase = .run → enQ s = true → s.stage = .quant ∨ s.stage = .sent →
    ∀ p : Plane, ∀ r < p.size, ∀ c < p.size, |s.mbuf.val p r c| * (8 * s.qp.toNat) ≤ 16320 + 4 * s.qp.toNat
  satClear : s.sat = false

/-- The stores' written samples are in canonical form. -/
structure MemoryInv (s : State) : Prop where
  sb : Memory.wf s.sb.cells
  ref : Memory.wf s.refStore.cells
  recon : Memory.wf s.recStore.cells

/-- The words of a macroblock record: 385 in an I frame, 393 in a P frame (R82). -/
def recordLength : FrameType → Nat
  | .intra => 385
  | .predicted => 393

/-- OUT ends with the open frame's header and its records so far (R219 h). -/
def OutputInv (s : State) : Prop :=
  s.phase = .run → s.fopen = true → ∃ before body, s.out = before ++ frameHeader s ++ body ∧
    body.length = recordLength s.ftype * (s.mbidx.toNat + s.stage.emitted.toNat)

/-- The two states differ only in contents the spec leaves unspecified (U1 to U4): MBUF while STAGE is EMPTY, EDGE and SB
while no prediction is under way, the samples of REF and REC that no rule has written, and the model's own tags. -/
structure SameSpecified (s t : State) : Prop where
  registers : t = { s with
    mbuf := t.mbuf, edge := t.edge, sb := t.sb, refStore := t.refStore, recStore := t.recStore, fillNext := t.fillNext }
  mbuf : s.stage ≠ .empty → t.mbuf = s.mbuf
  edge : s.phase = .run → s.fopen = true → s.ftype = .intra → enIntra s = true → s.stage.predicted = true → t.edge = s.edge
  sb : s.phase = .run → s.fopen = true → s.ftype = .predicted → enMc s = true → s.stage.predicted = true →
    t.sb.cells = s.sb.cells
  refCells : s.phase = .run → t.refStore.cells = s.refStore.cells
  recCells : s.phase = .run → t.recStore.cells = s.recStore.cells

/-- The commands that need an open frame (R234). -/
def frameCommands : List Instr :=
  [.loadMb, .intraPred, .intraRecon, .mcPred, .mcRecon, .fdct, .idct, .quant, .dequant, .emit, .install]

/-- The commands of the CONFIG phase besides NOP and RESET (R240). -/
def configures : Instr → Bool
  | .setDim _ _ => true
  | .setWin _ _ => true
  | .setQp _ => true
  | .setIint _ => true
  | .setFeat _ => true
  | .setOvh _ => true
  | .start => true
  | .nop => false
  | .beginFrame => false
  | .loadMb => false
  | .emit => false
  | .install => false
  | .intraPred => false
  | .intraRecon => false
  | .mcPred => false
  | .mcRecon => false
  | .fdct => false
  | .idct => false
  | .quant => false
  | .dequant => false
  | .reset => false

/-- The STAGE column of R200 for the commands that require one stage. -/
def stageTable : List (Instr × Stage) :=
  [(.intraPred, .raw), (.mcPred, .raw), (.fdct, .resid), (.quant, .xform), (.emit, .quant), (.dequant, .sent),
    (.idct, .deq), (.intraRecon, .ires), (.mcRecon, .ires)]

/-- The FTYPE column of R200. -/
def ftypeTable : List (Instr × FrameType) :=
  [(.intraPred, .intra), (.intraRecon, .intra), (.mcPred, .predicted), (.mcRecon, .predicted)]

/-- The commands one after another, as long as each gives a next state. -/
def execAll : List Instr → State → Result
  | [], s => .next s
  | i :: rest, s =>
    match exec i s with
    | .next t => execAll rest t
    | .fault f => .fault f
    | .refused r => .refused r

/-- `IT(DQ(Q(FT(x), q), q))` of R192 on one plane: what a residual becomes on the way through the transform and the
quantizer and back, with the units EN_T and EN_Q enable (R174, R175, R177, R178, R185). -/
def residualLoop (enT enQ : Bool) (q : Nat) (x : Block) (r c : Nat) : Int :=
  let coef : Block := fun i j =>
    if enT then forward8 (fun a b => x (8 * (i / 8) + a) (8 * (j / 8) + b)) (i % 8) (j % 8) else 8 * x i j
  let deq : Block := fun i j => if enQ then dequantWord (quantLevel (coef i j) q) q else coef i j
  if enT then inverse8 (fun a b => deq (8 * (r / 8) + a) (8 * (c / 8) + b)) (r % 8) (c % 8) else rndShr (deq r c) 3

/-- All the invariants of a run together. -/
structure RunInv (s : State) : Prop where
  sequencer : SequencerInv s
  coverage : CoverageInv s
  datapath : DatapathInv s
  range : RangeInv s

end Sys2Proof.Machine
end

