-- ==== Sys2Proof/Certificates/Slice0/Obligations.lean ====
section
/-! DEFINITION. The statements for the provers, in the order of OBLIGATIONS.json: encoding, the step and the fault, what
each command does and leaves unchanged, the datapath's arithmetic, the register view, who writes what, the invariants every
step keeps, and that unspecified contents never matter. -/

open Sys2Proof Sys2Proof.Machine

/-! Encoding -/

/-- Decoding the word of a well-formed command gives the command back (R101, R103, R107). -/
def Obligations.DecodeOfEncodeIsTheCommand : Prop :=
  ∀ i : Instr, i.wellFormed = true → decode (encode i) = .ok i

/-- A word that decodes is the word of a well-formed command: no bit of it is dropped (R103, R104). -/
def Obligations.EncodeOfDecodeIsTheWord : Prop :=
  ∀ (w : Word) (i : Instr), decode w = .ok i → i.wellFormed = true ∧ encode i = w

/-- R105: at most one row of the opcode map matches a word; the word is that row's command, or illegal when none matches. -/
def Obligations.DecodingIsTotalAndUnambiguous : Prop :=
  ∀ w : Word,
    (opcodeMap.Pairwise fun a b => ¬ (w &&& a.mask = a.pattern ∧ w &&& b.mask = b.pattern)) ∧
    (∀ row ∈ opcodeMap, w &&& row.mask = row.pattern → decode w = .ok (row.build w)) ∧
    ((∀ row ∈ opcodeMap, w &&& row.mask ≠ row.pattern) → ∃ e, decode w = .error e)

/-- R104: a word is illegal exactly when its opcode is none of the 21, or a must-be-zero bit of its format is 1. -/
def Obligations.IllegalWordsByOpcodeOrReservedBit : Prop :=
  ∀ w : Word,
    (decode w = .error .unknownOpcode ↔
      opField w ∉ [0x00, 0x01, 0x02, 0x03, 0x04, 0x05, 0x06, 0x07, 0x10, 0x11, 0x12, 0x13, 0x20, 0x21, 0x30, 0x31,
        0x40, 0x41, 0x50, 0x51, 0xFF]) ∧
    (decode w = .error .reservedBitSet ↔
      (opField w ∈ [0x00, 0x07, 0x10, 0x11, 0x12, 0x13, 0x20, 0x21, 0x30, 0x31, 0x40, 0x41, 0x50, 0x51, 0xFF] ∧
        argField w 0 24 ≠ 0) ∨
      (opField w ∈ [0x01, 0x02, 0x04] ∧ argField w 16 8 ≠ 0) ∨ (opField w = 0x03 ∧ argField w 8 16 ≠ 0) ∨
      (opField w = 0x05 ∧ argField w 4 20 ≠ 0))

/-- Words of R107 and of the decode vectors, one per format and some illegal. -/
def Obligations.SampleWordsDecode : Prop :=
  decode 0x00000000 = .ok .nop ∧ decode 0x01001216 = .ok (.setDim 22 18) ∧ decode 0x02001100 = .ok (.setWin 0 17) ∧
  decode 0x0300000A = .ok (.setQp 10) ∧ decode 0x0400FFFF = .ok (.setIint 65535) ∧
  decode 0x0500000F = .ok (.setFeat 15) ∧ decode 0x06FFFFFF = .ok (.setOvh 16777215) ∧
  decode 0x31000000 = .ok .mcRecon ∧ decode 0xFF000000 = .ok .reset ∧
  decode 0x00000001 = .error .reservedBitSet ∧ decode 0x14000000 = .error .unknownOpcode

/-! The step, the HALT phase, the fault -/

/-- A step takes the oldest word off the host's port and runs the command it decodes to. -/
def Obligations.StepRunsTheDecodedCommand : Prop :=
  ∀ (s : State) (w : Word) (rest : List HostOp) (i : Instr), s.port = .cmdWrite w :: rest → decode w = .ok i →
    step s = exec i { s with port := rest }

/-- With nothing on the port a step changes nothing: the engine starts nothing on its own (R242, R260; the empty port is the
model's, log 1). -/
def Obligations.EmptyPortWaits : Prop := ∀ s : State, s.port = [] → step s = .next s

/-- R233: out of HALT an illegal word raises E_ILLEGAL, whatever FOPEN and STAGE are. -/
def Obligations.IllegalWordFaults : Prop :=
  ∀ (s : State) (w : Word) (rest : List HostOp) (e : Illegal), s.port = .cmdWrite w :: rest → decode w = .error e →
    s.phase ≠ .halt →
    step s = .next { s with port := rest, errCode := .illegal, errCmd := w, phase := .halt }

/-- R241: in HALT every word but 0xFF000000 changes nothing. -/
def Obligations.HaltIgnoresEveryWordButReset : Prop :=
  ∀ (s : State) (w : Word) (rest : List HostOp), s.port = .cmdWrite w :: rest → s.phase = .halt → w ≠ 0xFF000000 →
    step s = .next { s with port := rest }

/-- R260: the hardware reset and the RESET command have the same effect. -/
def Obligations.HardwareResetIsTheResetCommand : Prop :=
  ∀ (s : State) (rest : List HostOp),
    step { s with port := .hardReset :: rest } = step { s with port := .cmdWrite 0xFF000000 :: rest } ∧
    ∃ t, step { s with port := .hardReset :: rest } = .next t ∧ t.phase = .config ∧ t.port = rest

/-- R232: a step that halts the engine leaves the fault's code in ERRCODE, the word that faulted in ERRCMD and HALT in
PHASE, and changes nothing else of the engine. -/
def Obligations.FaultWritesOnlyTheFaultRegisters : Prop :=
  ∀ s t : State, step s = .next t → s.phase ≠ .halt → t.phase = .halt →
    ∃ w rest, s.port = .cmdWrite w :: rest ∧ t.errCode ≠ .ok ∧
      t = { s with port := rest, errCode := t.errCode, errCmd := w, phase := .halt }

/-- R234, R240: a command in a phase that does not accept it, or with the open-frame condition wrong, raises E_PHASE. -/
def Obligations.WrongPhaseFaults : Prop :=
  (∀ i ∈ frameCommands, ∀ s : State, s.phase ≠ .halt → ¬ FrameIsOpen s →
    exec i s = .next { s with errCode := .phase, errCmd := encode i, phase := .halt }) ∧
  (∀ s : State, s.phase ≠ .halt → ¬ (s.phase = .run ∧ s.fopen = false) →
    exec .beginFrame s = .next { s with errCode := .phase, errCmd := 0x10000000, phase := .halt }) ∧
  (∀ (i : Instr) (s : State), configures i = true → s.phase = .run →
    exec i s = .next { s with errCode := .phase, errCmd := encode i, phase := .halt })

/-- R235: a predictor command of the other frame type raises E_FTYPE, whatever STAGE is. -/
def Obligations.WrongFrameTypeFaults : Prop :=
  ∀ (i : Instr) (ft : FrameType), (i, ft) ∈ ftypeTable → ∀ s : State, FrameIsOpen s → s.ftype ≠ ft →
    exec i s = .next { s with errCode := .ftype, errCmd := encode i, phase := .halt }

/-- R236: a command out of its required stage raises E_STAGE. -/
def Obligations.WrongStageFaults : Prop :=
  (∀ (i : Instr) (g : Stage), (i, g) ∈ stageTable → ∀ s : State, FrameIsOpen s →
    (∀ ft, (i, ft) ∈ ftypeTable → s.ftype = ft) → s.stage ≠ g →
    exec i s = .next { s with errCode := .stage, errCmd := encode i, phase := .halt }) ∧
  (∀ s : State, FrameIsOpen s → s.stage ≠ .empty → s.stage ≠ .recon →
    exec .loadMb s = .next { s with errCode := .stage, errCmd := 0x11000000, phase := .halt })

/-- R239: INSTALL before every macroblock is reconstructed raises E_INCOMPLETE whatever STAGE is; LOAD_MB after the last
raises E_MBRANGE. -/
def Obligations.FrameBoundaryFaults : Prop :=
  (∀ s : State, FrameIsOpen s → s.mbidx.toNat ≠ s.picw.toNat * s.pich.toNat →
    exec .install s = .next { s with errCode := .incomplete, errCmd := 0x13000000, phase := .halt }) ∧
  (∀ s : State, FrameIsOpen s → s.stage = .empty ∨ s.stage = .recon →
    s.picw.toNat * s.pich.toNat ≤ s.mbidx.toNat →
    exec .loadMb s = .next { s with errCode := .mbRange, errCmd := 0x11000000, phase := .halt })

/-! Configuration and sequencing commands -/

/-- R201: NOP, the word 0, changes nothing, in every phase. -/
def Obligations.NopChangesNothing : Prop := decode 0 = .ok .nop ∧ ∀ s : State, exec .nop s = .next s

/-- R202 to R207: in CONFIG each SET_* command stores its operand and changes nothing else; in RUN it raises E_PHASE. -/
def Obligations.ConfigurationWrites : Prop :=
  (∀ s : State, s.phase = .config →
    (∀ a b, a < 256 → b < 256 → ∃ t, exec (.setDim a b) s = .next t ∧ t.picw.toNat = a ∧ t.pich.toNat = b ∧
      t = { s with picw := t.picw, pich := t.pich }) ∧
    (∀ a b, a < 256 → b < 256 → ∃ t, exec (.setWin a b) s = .next t ∧ t.winx.toNat = a ∧ t.winy.toNat = b ∧
      t = { s with winx := t.winx, winy := t.winy }) ∧
    (∀ a, a < 256 → ∃ t, exec (.setQp a) s = .next t ∧ t.qp.toNat = a ∧ t = { s with qp := t.qp }) ∧
    (∀ h, h < 65536 → ∃ t, exec (.setIint h) s = .next t ∧ t.iint.toNat = h ∧ t = { s with iint := t.iint }) ∧
    (∀ a, a < 16 → ∃ t, exec (.setFeat a) s = .next t ∧ t.feat.toNat = a ∧
      (enIntra t = a.testBit 0 ∧ enMc t = a.testBit 1 ∧ enT t = a.testBit 2 ∧ enQ t = a.testBit 3) ∧
      t = { s with feat := t.feat }) ∧
    (∀ o, o < 16777216 → ∃ t, exec (.setOvh o) s = .next t ∧ t.ovh.toNat = o ∧ t = { s with ovh := t.ovh })) ∧
  (∀ (i : Instr) (s : State), configures i = true → s.phase = .run →
    exec i s = .next { s with errCode := .phase, errCmd := encode i, phase := .halt })

/-- R208: START's checks in their order, and its effect when all hold. REF and REC stay unspecified (log 5). -/
def Obligations.StartChecksThenRuns : Prop :=
  ∀ s : State,
    (s.phase = .run → exec .start s = .next { s with errCode := .phase, errCmd := 0x07000000, phase := .halt }) ∧
    (s.phase = .config →
      (¬ (2 ≤ s.qp.toNat ∧ s.qp.toNat ≤ 52) →
        exec .start s = .next { s with errCode := .cfgQp, errCmd := 0x07000000, phase := .halt }) ∧
      ((2 ≤ s.qp.toNat ∧ s.qp.toNat ≤ 52) → ¬ (1 ≤ s.picw.toNat ∧ 1 ≤ s.pich.toNat) →
        exec .start s = .next { s with errCode := .cfgDim, errCmd := 0x07000000, phase := .halt }) ∧
      ((2 ≤ s.qp.toNat ∧ s.qp.toNat ≤ 52) → (1 ≤ s.picw.toNat ∧ 1 ≤ s.pich.toNat) →
        ¬ (s.winx.toNat ≤ 16 ∧ s.winy.toNat ≤ 16) →
        exec .start s = .next { s with errCode := .cfgWin, errCmd := 0x07000000, phase := .halt }) ∧
      ((2 ≤ s.qp.toNat ∧ s.qp.toNat ≤ 52) → (1 ≤ s.picw.toNat ∧ 1 ≤ s.pich.toNat) →
        (s.winx.toNat ≤ 16 ∧ s.winy.toNat ≤ 16) → s.iint.toNat = 0 →
        exec .start s = .next { s with errCode := .cfgIint, errCmd := 0x07000000, phase := .halt }) ∧
      (ConfigLegal s → ∃ t, exec .start s = .next t ∧ t.phase = .run ∧ t.ipos.toNat = 0 ∧ t.refValid = false ∧
        t = { s with phase := t.phase, ipos := t.ipos, refValid := t.refValid, refStore := t.refStore,
                     recStore := t.recStore, fillNext := t.fillNext }))

/-- R210: BEGIN_FRAME on a delivered picture of the configured size opens the frame, classifies it by IPOS and pushes the
five header words (R81). -/
def Obligations.BeginFrameOpensTheFrame : Prop :=
  ∀ (s : State) (pic : Picture) (rest : List Picture), s.phase = .run → s.fopen = false → s.src = pic :: rest →
    pic.shaped s = true →
    ∃ t, exec .beginFrame s = .next t ∧ t.cur = some pic ∧ t.src = rest ∧ t.fopen = true ∧
      (t.ftype = .intra ↔ s.ipos.toNat = 0) ∧ t.mbidx.toNat = 0 ∧ t.stage = .empty ∧ t.sbValid = false ∧
      (∃ header, t.out = s.out ++ header ∧
        header.map BitVec.toNat = [s.picw.toNat, s.pich.toNat, s.qp.toNat, s.iint.toNat, s.feat.toNat]) ∧
      t = { s with cur := t.cur, src := t.src, fopen := t.fopen, ftype := t.ftype, mbidx := t.mbidx, stage := t.stage,
                   sbValid := t.sbValid, out := t.out }

/-- R246: at end of stream BEGIN_FRAME sets EOS, changes nothing else and is no fault; then NOP, BEGIN_FRAME and RESET are
accepted, and every other command of the RUN phase faults E_PHASE. -/
def Obligations.EndOfStreamIsNoFault : Prop :=
  ∀ s : State, s.phase = .run → s.fopen = false → s.src = [] →
    exec .beginFrame s = .next { s with eos := true } ∧
    (let t := { s with eos := true }
     exec .nop t = .next t ∧ exec .beginFrame t = .next t ∧ (∃ u, exec .reset t = .next u ∧ u.phase = .config) ∧
     ∀ i ∈ frameCommands, exec i t = .next { t with errCode := .phase, errCmd := encode i, phase := .halt })

/-- U5: a picture that has not the configured size is refused by name (the model's refusal, log 6). -/
def Obligations.BeginFrameRefusesMisshapedPicture : Prop :=
  ∀ (s : State) (pic : Picture) (rest : List Picture), s.phase = .run → s.fopen = false → s.src = pic :: rest →
    pic.shaped s = false → exec .beginFrame s = .refused .pictureNotOfConfiguredSize

/-- R211: LOAD_MB puts macroblock MBIDX of CUR into MBUF, clears the metadata and SBVALID, and changes nothing else. -/
def Obligations.LoadMbBringsTheMacroblock : Prop :=
  ∀ (s : State) (pic : Picture), FrameIsOpen s → s.stage = .empty ∨ s.stage = .recon → s.mbidx.toNat < nmb s →
    s.cur = some pic → pic.shaped s = true →
    ∃ t, exec .loadMb s = .next t ∧
      (∀ p : Plane, ∀ r < p.size, ∀ c < p.size, t.mbuf.val p r c =
        (pic.sample p (p.size * (s.mbidx.toNat / s.picw.toNat) + r) (p.size * (s.mbidx.toNat % s.picw.toNat) + c)).toNat) ∧
      t.mode = .dc ∧ t.part = false ∧ (∀ q < 4, (mvAt t q).x = 0 ∧ (mvAt t q).down = 0) ∧ t.mbqp = 0 ∧ t.cost0 = 0 ∧
      t.cost1 = 0 ∧ t.sbValid = false ∧ t.stage = .raw ∧
      t = { s with mbuf := t.mbuf, mode := t.mode, part := t.part, mv := t.mv, mbqp := t.mbqp, cost0 := t.cost0,
                   cost1 := t.cost1, sbValid := t.sbValid, stage := t.stage }

/-- R212, R82: EMIT appends one record, metadata then the 384 words block by block, and changes nothing else but STAGE. -/
def Obligations.EmitAppendsTheRecord : Prop :=
  ∀ s : State, FrameIsOpen s → s.stage = .quant →
    ∃ t record, exec .emit s = .next t ∧ t = { s with out := s.out ++ record, stage := .sent } ∧
      (s.ftype = .intra → record.length = 385 ∧ record[0]? = some (BitVec.ofNat 16 s.mode.code)) ∧
      (s.ftype = .predicted → record.length = 393 ∧ record[0]? = some (BitVec.ofNat 16 s.part.toNat) ∧
        ∀ q < 4, record[1 + 2 * q]? = some ((mvAt s q).dx.signExtend 16) ∧
          record[2 + 2 * q]? = some ((mvAt s q).dy.signExtend 16)) ∧
      (∀ (b : Nat) (p : Plane) (r0 c0 : Nat),
        [(Plane.y, 0, 0), (Plane.y, 0, 8), (Plane.y, 8, 0), (Plane.y, 8, 8), (Plane.cb, 0, 0), (Plane.cr, 0, 0)][b]?
          = some (p, r0, c0) →
        ∀ r < 8, ∀ c < 8, record[recordLength s.ftype - 384 + 64 * b + 8 * r + c]? =
          some (s.mbuf.word p (r0 + r) (c0 + c)))

/-- R214: INSTALL replaces REF by REC as a whole, closes the frame and advances IPOS modulo IINT. -/
def Obligations.InstallReplacesTheReference : Prop :=
  ∀ s : State, FrameIsOpen s → s.mbidx.toNat = nmb s → 1 ≤ s.iint.toNat →
    ∃ t, exec .install s = .next t ∧ (∀ p y x, t.refStore.read p y x = s.recStore.read p y x) ∧ t.refValid = true ∧
      t.fopen = false ∧ t.cur = none ∧ t.ipos.toNat = (s.ipos.toNat + 1) % s.iint.toNat ∧ t.stage = .empty ∧
      t.sbValid = false ∧
      t = { s with refStore := t.refStore, recStore := t.recStore, refValid := t.refValid, fopen := t.fopen,
                   cur := t.cur, ipos := t.ipos, stage := t.stage, sbValid := t.sbValid, fillNext := t.fillNext }

/-- R216: RESET has its effect in every phase and every stage: each register and flag takes its reset value; SRC, OUT
and the host's port are unchanged; CUR is unchanged, as R62 and R78 say, and LOAD_MB can read none of it, FOPEN being 0.
R216 writes CUR as none: that R62 is followed there is the model's choice (log 10). Nothing is said of the stores, which are
unspecified (R62). -/
def Obligations.ResetInEveryPhase : Prop :=
  ∀ s : State, ∃ t, exec .reset s = .next t ∧ t.phase = .config ∧
    (t.picw = 0 ∧ t.pich = 0 ∧ t.winx = 0 ∧ t.winy = 0 ∧ t.qp = 0 ∧ t.iint = 0 ∧ t.feat = 0 ∧ t.ovh = 0) ∧
    (t.fopen = false ∧ t.ftype = .intra ∧ t.eos = false ∧ t.stage = .empty ∧ t.mbidx = 0 ∧ t.ipos = 0) ∧
    (t.mode = .dc ∧ t.part = false ∧ (∀ q < 4, mvAt t q = ⟨0, 0⟩) ∧ t.mbqp = 0 ∧ t.cost0 = 0 ∧ t.cost1 = 0) ∧
    (t.refValid = false ∧ t.sbValid = false ∧ t.sat = false) ∧ (t.errCode = .ok ∧ t.errCmd = 0) ∧
    (t.cur = s.cur ∧ engineCur t = none) ∧ t.src = s.src ∧ t.out = s.out ∧ t.port = s.port

/-! The intra predictor -/

/-- R120, R121, R126, R127: INTRA_PRED gathers every edge register from REC or the default sample, chooses the first mode of
least luma SSE, subtracts that mode's candidate from all three channels, and changes nothing else. -/
def Obligations.IntraPredSubtractsTheBestCandidate : Prop :=
  ∀ s : State, FrameIsOpen s → s.ftype = .intra → s.stage = .raw → enIntra s = true → s.mbidx.toNat < nmb s →
    (∀ p : Plane, ∀ r < p.size, ∀ c < p.size, 0 ≤ s.mbuf.val p r c ∧ s.mbuf.val p r c ≤ 255) →
    ∃ t, exec .intraPred s = .next t ∧
      (∀ p : Plane, ∀ j < p.size, t.edge.top p j =
        (if 0 < s.mbidx.toNat / s.picw.toNat then
          (s.recStore.read p (p.size * (s.mbidx.toNat / s.picw.toNat) - 1)
            (p.size * (s.mbidx.toNat % s.picw.toNat) + j)).toNat else 128)) ∧
      (∀ p : Plane, ∀ i < p.size, t.edge.left p i =
        (if 0 < s.mbidx.toNat % s.picw.toNat then
          (s.recStore.read p (p.size * (s.mbidx.toNat / s.picw.toNat) + i)
            (p.size * (s.mbidx.toNat % s.picw.toNat) - 1)).toNat else 128)) ∧
      (∀ p : Plane, t.edge.corner p =
        (if 0 < s.mbidx.toNat % s.picw.toNat ∧ 0 < s.mbidx.toNat / s.picw.toNat then
          (s.recStore.read p (p.size * (s.mbidx.toNat / s.picw.toNat) - 1)
            (p.size * (s.mbidx.toNat % s.picw.toNat) - 1)).toNat else 128)) ∧
      (∀ m : IntraMode,
        (∑ r ∈ Finset.range 16, ∑ c ∈ Finset.range 16, (s.mbuf.val .y r c - candidate t.edge .y t.mode r c) ^ 2) ≤
          (∑ r ∈ Finset.range 16, ∑ c ∈ Finset.range 16, (s.mbuf.val .y r c - candidate t.edge .y m r c) ^ 2) ∧
        (m.code < t.mode.code →
          (∑ r ∈ Finset.range 16, ∑ c ∈ Finset.range 16, (s.mbuf.val .y r c - candidate t.edge .y t.mode r c) ^ 2) <
          (∑ r ∈ Finset.range 16, ∑ c ∈ Finset.range 16, (s.mbuf.val .y r c - candidate t.edge .y m r c) ^ 2))) ∧
      (∀ p : Plane, ∀ r < p.size, ∀ c < p.size,
        t.mbuf.val p r c = s.mbuf.val p r c - candidate t.edge p t.mode r c) ∧
      t.stage = .resid ∧ t = { s with mbuf := t.mbuf, edge := t.edge, mode := t.mode, stage := t.stage }

/-- R128: with EN_INTRA = 0, INTRA_PRED writes MODE and STAGE only. -/
def Obligations.IntraPredPassThrough : Prop :=
  ∀ s : State, FrameIsOpen s → s.ftype = .intra → s.stage = .raw → enIntra s = false →
    exec .intraPred s = .next { s with mode := .dc, stage := .resid }

/-- R129, R83: INTRA_RECON adds the stored mode's candidate on the stored edges (nothing with EN_INTRA = 0), clips, stores
the macroblock into REC and leaves every other sample of REC, and everything else, as it was. -/
def Obligations.IntraReconStoresTheMacroblock : Prop :=
  ∀ s : State, FrameIsOpen s → s.ftype = .intra → s.stage = .ires → s.mbidx.toNat < nmb s →
    ∃ t, exec .intraRecon s = .next t ∧
      (∀ p : Plane, ∀ r < p.size, ∀ c < p.size, t.mbuf.val p r c =
        clip255 (s.mbuf.val p r c + if enIntra s = true then candidate s.edge p s.mode r c else 0)) ∧
      (∀ p : Plane, ∀ r < p.size, ∀ c < p.size,
        ((t.recStore.read p (p.size * (s.mbidx.toNat / s.picw.toNat) + r)
          (p.size * (s.mbidx.toNat % s.picw.toNat) + c)).toNat : Int) = t.mbuf.val p r c) ∧
      (∀ p : Plane, ∀ y < 2 ^ 20, ∀ x < 2 ^ 20,
        ¬ ((p.size * (s.mbidx.toNat / s.picw.toNat) ≤ y ∧ y < p.size * (s.mbidx.toNat / s.picw.toNat) + p.size) ∧
           (p.size * (s.mbidx.toNat % s.picw.toNat) ≤ x ∧ x < p.size * (s.mbidx.toNat % s.picw.toNat) + p.size)) →
        t.recStore.read p y x = s.recStore.read p y x) ∧
      t.stage = .recon ∧ t.mbidx.toNat = s.mbidx.toNat + 1 ∧
      t = { s with mbuf := t.mbuf, recStore := t.recStore, stage := t.stage, mbidx := t.mbidx }

/-- R122 to R124, R130 (a), (d): what the first three candidates are, and that with all edge samples equal to V every
candidate is V everywhere. -/
def Obligations.CandidatesFromTheEdges : Prop :=
  ∀ (e : Edge) (p : Plane),
    (∀ r < p.size, ∀ c < p.size,
      candidate e p .dc r c =
        ((∑ j ∈ Finset.range p.size, e.top p j) + (∑ i ∈ Finset.range p.size, e.left p i) + p.size) / (2 * p.size) ∧
      candidate e p .vertical r c = e.top p c ∧ candidate e p .horizontal r c = e.left p r) ∧
    (∀ v : Int, (∀ j < p.size, e.top p j = v) → (∀ i < p.size, e.left p i = v) → e.corner p = v →
      ∀ m : IntraMode, ∀ r < p.size, ∀ c < p.size, candidate e p m r c = v)

/-- R125: the diagonal candidate's seeds, and its propagation down and right. -/
def Obligations.DiagonalSeedsAndPropagation : Prop :=
  ∀ (e : Edge) (p : Plane),
    candidate e p .diagonal 0 0 = (e.left p 0 + 2 * e.corner p + e.top p 0 + 2) / 4 ∧
    candidate e p .diagonal 0 1 = (e.corner p + 2 * e.top p 0 + e.top p 1 + 2) / 4 ∧
    candidate e p .diagonal 1 0 = (e.corner p + 2 * e.left p 0 + e.left p 1 + 2) / 4 ∧
    (∀ c, 2 ≤ c → c < p.size →
      candidate e p .diagonal 0 c = (e.top p (c - 2) + 2 * e.top p (c - 1) + e.top p c + 2) / 4) ∧
    (∀ r, 2 ≤ r → r < p.size →
      candidate e p .diagonal r 0 = (e.left p (r - 2) + 2 * e.left p (r - 1) + e.left p r + 2) / 4) ∧
    (∀ r c, candidate e p .diagonal (r + 1) (c + 1) = candidate e p .diagonal r c)

/-- R127: every candidate sample is in 0..255. -/
def Obligations.CandidatesAreSamples : Prop :=
  ∀ (e : Edge) (p : Plane) (m : IntraMode) (r c : Nat), r < p.size → c < p.size →
    0 ≤ candidate e p m r c ∧ candidate e p m r c ≤ 255

/-! The motion datapath -/

/-- R140, R142, R150, R154: MC_PRED gathers the clamped window, records the costs of the whole-block search and of the four
quadrant searches, decides the partition, and subtracts the prediction. -/
def Obligations.McPredSearchesAndSubtracts : Prop :=
  ∀ s : State, FrameIsOpen s → s.ftype = .predicted → s.stage = .raw → enMc s = true → s.mbidx.toNat < nmb s →
    (∀ p : Plane, ∀ r < p.size, ∀ c < p.size, 0 ≤ s.mbuf.val p r c ∧ s.mbuf.val p r c ≤ 255) →
    ∃ t, exec .mcPred s = .next t ∧
      (∀ y < 2 * s.winy.toNat + 16, ∀ x < 2 * s.winx.toNat + 16,
        t.sb.read .y y x = s.refStore.read .y
          (clamp (16 * (s.mbidx.toNat / s.picw.toNat : Nat) - s.winy.toNat + y) 0 (16 * s.pich.toNat - 1)).toNat
          (clamp (16 * (s.mbidx.toNat % s.picw.toNat : Nat) - s.winx.toNat + x) 0 (16 * s.picw.toNat - 1)).toNat) ∧
      t.sbValid = true ∧
      (let g := { s with sb := t.sb, sbValid := true }
       (t.cost0.toNat : Int) = (search g wholeBlock).cost ∧
       (t.cost1.toNat : Int) = (search g (quadrant 0)).cost + (search g (quadrant 1)).cost
         + (search g (quadrant 2)).cost + (search g (quadrant 3)).cost ∧
       (t.part = true ↔ t.cost1.toNat + s.ovh.toNat < t.cost0.toNat) ∧
       (∀ q < 4, t.part = true → (mvAt t q).x = (search g (quadrant q)).dx ∧
         (mvAt t q).down = (search g (quadrant q)).dy) ∧
       (∀ q < 4, t.part = false → (mvAt t q).x = (search g wholeBlock).dx ∧
         (mvAt t q).down = (search g wholeBlock).dy)) ∧
      (∀ p : Plane, ∀ r < p.size, ∀ c < p.size, t.mbuf.val p r c = s.mbuf.val p r c - motionPrediction t p r c) ∧
      t.stage = .resid ∧
      t = { s with sb := t.sb, sbValid := t.sbValid, mv := t.mv, part := t.part, cost0 := t.cost0, cost1 := t.cost1,
                   mbuf := t.mbuf, stage := t.stage }

/-- R141: with EN_MC = 0, MC_PRED writes the neutral metadata and STAGE only. -/
def Obligations.McPredPassThrough : Prop :=
  ∀ s : State, FrameIsOpen s → s.ftype = .predicted → s.stage = .raw → enMc s = false →
    exec .mcPred s = .next { s with
      mv := Vector.replicate 4 ⟨0, 0⟩, part := false, cost0 := 0, cost1 := 0, stage := .resid }

/-- R158, R83: MC_RECON adds the stored vectors' prediction (nothing with EN_MC = 0), clips, stores the macroblock into REC
and leaves every other sample of REC, and everything else, as it was. The vectors' premise is R151's, kept by every run. -/
def Obligations.McReconStoresTheMacroblock : Prop :=
  ∀ s : State, FrameIsOpen s → s.ftype = .predicted → s.stage = .ires → s.mbidx.toNat < nmb s →
    (enMc s = true → vectorsReach s = true) →
    ∃ t, exec .mcRecon s = .next t ∧
      (∀ p : Plane, ∀ r < p.size, ∀ c < p.size, t.mbuf.val p r c =
        clip255 (s.mbuf.val p r c + if enMc s = true then motionPrediction s p r c else 0)) ∧
      (∀ p : Plane, ∀ r < p.size, ∀ c < p.size,
        ((t.recStore.read p (p.size * (s.mbidx.toNat / s.picw.toNat) + r)
          (p.size * (s.mbidx.toNat % s.picw.toNat) + c)).toNat : Int) = t.mbuf.val p r c) ∧
      (∀ p : Plane, ∀ y < 2 ^ 20, ∀ x < 2 ^ 20,
        ¬ ((p.size * (s.mbidx.toNat / s.picw.toNat) ≤ y ∧ y < p.size * (s.mbidx.toNat / s.picw.toNat) + p.size) ∧
           (p.size * (s.mbidx.toNat % s.picw.toNat) ≤ x ∧ x < p.size * (s.mbidx.toNat % s.picw.toNat) + p.size)) →
        t.recStore.read p y x = s.recStore.read p y x) ∧
      t.stage = .recon ∧ t.mbidx.toNat = s.mbidx.toNat + 1 ∧
      t = { s with mbuf := t.mbuf, recStore := t.recStore, stage := t.stage, mbidx := t.mbidx }

/-- R151, R152, R77: which sample of SB a luma prediction reads, and which sample of REF a chroma prediction reads, always
inside the chroma plane. -/
def Obligations.PredictionReadsTheStores : Prop :=
  ∀ s : State, s.mbidx.toNat < nmb s →
    (∀ r : Nat, r < 16 → ∀ c : Nat, c < 16 → motionPrediction s .y r c =
      (s.sb.read .y (s.winy.toNat + (mvAt s (2 * (r / 8) + c / 8)).down + r).toNat
        (s.winx.toNat + (mvAt s (2 * (r / 8) + c / 8)).x + c).toNat).toNat) ∧
    (∀ p : Plane, p ≠ .y → ∀ r : Nat, r < 8 → ∀ c : Nat, c < 8 → ∃ y x : Nat, (y < 8 * s.pich.toNat ∧ x < 8 * s.picw.toNat) ∧
      y = (max 0 (min (16 * (s.mbidx.toNat / s.picw.toNat : Nat) + 2 * (r : Int) + (mvAt s (2 * (r / 4) + c / 4)).down)
        (16 * s.pich.toNat - 1))).toNat / 2 ∧
      x = (max 0 (min (16 * (s.mbidx.toNat % s.picw.toNat : Nat) + 2 * (c : Int) + (mvAt s (2 * (r / 4) + c / 4)).x)
        (16 * s.picw.toNat - 1))).toNat / 2 ∧
      motionPrediction s p r c = (s.refStore.read p y x).toNat)

/-- R145, R146, R156: a search is three iterations, with steps 4, 2, 1, from (0, 0) and its SSE; and the search of the whole
block and of each quadrant ends at a reachable candidate with components in -7..7, with that candidate's own cost, which is
no more than the cost at (0, 0). -/
def Obligations.SearchEndsAtAReachableCandidate : Prop :=
  (∀ (s : State) (t : Footprint), search s t =
    searchIteration s t (searchIteration s t (searchIteration s t ⟨0, 0, motionSse s t 0 0⟩ 4) 2) 1) ∧
  ∀ (s : State) (t : Footprint), t ∈ [wholeBlock, quadrant 0, quadrant 1, quadrant 2, quadrant 3] →
    reach s t (search s t).dx (search s t).dy = true ∧
    (-7 ≤ (search s t).dx ∧ (search s t).dx ≤ 7) ∧ (-7 ≤ (search s t).dy ∧ (search s t).dy ≤ 7) ∧
    (search s t).cost = motionSse s t (search s t).dx (search s t).dy ∧
    (search s t).cost ≤ motionSse s t 0 0

/-- R146, R147: the result of one iteration is the centre, or the first of the best of its reachable neighbours in R147's
order with that neighbour's own SSE, strictly less than the centre's cost; no reachable neighbour is strictly better than
the result. -/
def Obligations.IterationAdoptsOnlyStrictImprovement : Prop :=
  ∀ (s : State) (t : Footprint) (best : Found) (step : Int),
    let order : List (Int × Int) := [(-1, -1), (0, -1), (1, -1), (-1, 0), (1, 0), (-1, 1), (0, 1), (1, 1)]
    let x : Int × Int → Int := fun n => best.dx + n.1 * step
    let y : Int × Int → Int := fun n => best.dy + n.2 * step
    let r := searchIteration s t best step
    (∀ n ∈ order, reach s t (x n) (y n) = true → r.cost ≤ motionSse s t (x n) (y n)) ∧
    (r = best ∨ ∃ (k : Nat) (n : Int × Int), order[k]? = some n ∧ reach s t (x n) (y n) = true ∧
      r = ⟨x n, y n, motionSse s t (x n) (y n)⟩ ∧ r.cost < best.cost ∧
      ∀ (j : Nat) (m : Int × Int), j < k → order[j]? = some m → reach s t (x m) (y m) = true →
        r.cost < motionSse s t (x m) (y m))

/-- R159 (a), (b): where the reference equals the current block, the search stays at (0, 0) with cost 0 and the macroblock
is not partitioned, whatever OVH is. -/
def Obligations.PerfectMatchStaysUnsplit : Prop :=
  ∀ s : State,
    (∀ t : Footprint, motionSse s t 0 0 = 0 → search s t = ⟨0, 0, 0⟩) ∧
    (motionSse s wholeBlock 0 0 = 0 → partitioned s = false)

/-! Transform and quantizer -/

/-- R23, R173 to R175: FDCT replaces every word by the forward transform of its 8x8 block, or by 8 times itself, through
sat16; SAT is set exactly when a value was changed. That sat16 and SAT act with EN_T = 0 too is the model's reading of R23,
where R175 writes 8 * x (log 18, DEDUCED). -/
def Obligations.FdctTransformsEveryBlock : Prop :=
  ∀ s : State, FrameIsOpen s → s.stage = .resid →
    let v : Plane → Nat → Nat → Int := fun p r c =>
      if enT s = true then
        rndShr (∑ i ∈ Finset.range 8, ∑ j ∈ Finset.range 8,
          basis (r % 8) i * basis (c % 8) j * s.mbuf.val p (8 * (r / 8) + i) (8 * (c / 8) + j)) 29
      else 8 * s.mbuf.val p r c
    ∃ t, exec .fdct s = .next t ∧
      (∀ p : Plane, ∀ r < p.size, ∀ c < p.size, t.mbuf.val p r c = sat16 (v p r c)) ∧
      (t.sat = true ↔ s.sat = true ∨ ∃ p : Plane, ∃ r < p.size, ∃ c < p.size, sat16 (v p r c) ≠ v p r c) ∧
      t.stage = .xform ∧ t = { s with mbuf := t.mbuf, sat := t.sat, stage := t.stage }

/-- R23, R176 to R178: IDCT replaces every word by the inverse transform of its 8x8 block, or by itself over 8 rounded,
through sat16; SAT is set exactly when a value was changed. That sat16 and SAT act with EN_T = 0 too is the model's reading
of R23, where R178 writes rnd_shr(w, 3) (log 18, DEDUCED). -/
def Obligations.IdctInvertsEveryBlock : Prop :=
  ∀ s : State, FrameIsOpen s → s.stage = .deq →
    let v : Plane → Nat → Nat → Int := fun p r c =>
      if enT s = true then
        rndShr (∑ i ∈ Finset.range 8, ∑ j ∈ Finset.range 8,
          basis i (r % 8) * basis j (c % 8) * s.mbuf.val p (8 * (r / 8) + i) (8 * (c / 8) + j)) 35
      else rndShr (s.mbuf.val p r c) 3
    ∃ t, exec .idct s = .next t ∧
      (∀ p : Plane, ∀ r < p.size, ∀ c < p.size, t.mbuf.val p r c = sat16 (v p r c)) ∧
      (t.sat = true ↔ s.sat = true ∨ ∃ p : Plane, ∃ r < p.size, ∃ c < p.size, sat16 (v p r c) ≠ v p r c) ∧
      t.stage = .ires ∧ t = { s with mbuf := t.mbuf, sat := t.sat, stage := t.stage }

/-- R186, R187: QUANT writes MBQP, and with EN_Q = 1 replaces every word w by sign(w) * ((|w| + 4 QP) div (8 QP)). -/
def Obligations.QuantDividesEveryWord : Prop :=
  ∀ s : State, FrameIsOpen s → s.stage = .xform → 1 ≤ s.qp.toNat →
    ∃ t, exec .quant s = .next t ∧
      (∀ p : Plane, ∀ r < p.size, ∀ c < p.size, t.mbuf.val p r c =
        if enQ s = true then
          (s.mbuf.val p r c).sign * ((|s.mbuf.val p r c| + 4 * s.qp.toNat) / (8 * s.qp.toNat))
        else s.mbuf.val p r c) ∧
      t.mbqp = s.qp ∧ t.stage = .quant ∧ (enQ s = false → t.mbuf = s.mbuf) ∧
      t = { s with mbuf := t.mbuf, mbqp := t.mbqp, stage := t.stage }

/-- R189: DEQUANT with EN_Q = 1 replaces every level by 8 * MBQP times it, through sat16. -/
def Obligations.DequantMultipliesEveryLevel : Prop :=
  ∀ s : State, FrameIsOpen s → s.stage = .sent →
    ∃ t, exec .dequant s = .next t ∧
      (∀ p : Plane, ∀ r < p.size, ∀ c < p.size, t.mbuf.val p r c =
        if enQ s = true then sat16 (s.mbuf.val p r c * s.mbqp.toNat * 8) else s.mbuf.val p r c) ∧
      (t.sat = true ↔ s.sat = true ∨ (enQ s = true ∧ ∃ p : Plane, ∃ r < p.size, ∃ c < p.size,
        sat16 (s.mbuf.val p r c * s.mbqp.toNat * 8) ≠ s.mbuf.val p r c * s.mbqp.toNat * 8)) ∧
      t.stage = .deq ∧ (enQ s = false → t.mbuf = s.mbuf) ∧
      t = { s with mbuf := t.mbuf, sat := t.sat, stage := t.stage }

/-- R180: the inverse transform of the forward transform of a block of residuals is the block, exactly; and through the
commands with EN_Q = 0, whether EN_T is 1 or 0, FDCT, QUANT, EMIT, DEQUANT, IDCT return every residual word unchanged. -/
def Obligations.TransformRoundTripIsExact : Prop :=
  (∀ x : Block, (∀ r < 8, ∀ c < 8, |x r c| ≤ 255) →
    ∀ r < 8, ∀ c < 8, sat16 (inverse8 (fun u v => sat16 (forward8 x u v)) r c) = x r c) ∧
  (∀ s : State, FrameIsOpen s → s.stage = .resid → enQ s = false →
    (∀ p : Plane, ∀ r < p.size, ∀ c < p.size, |s.mbuf.val p r c| ≤ 255) →
    ∃ t, execAll [.fdct, .quant, .emit, .dequant, .idct] s = .next t ∧ t.stage = .ires ∧ t.sat = s.sat ∧
      ∀ p : Plane, ∀ r < p.size, ∀ c < p.size, t.mbuf.val p r c = s.mbuf.val p r c)

/-- R192: the words a reconstruct command leaves in MBUF, which it stores into REC (IntraReconStoresTheMacroblock,
McReconStoresTheMacroblock), are clip255(Pred + IT(DQ(Q(FT(original - Pred))))), Pred being what the
predictor applied (zero when it is disabled), in an I frame and in a P frame, whatever EN_T and EN_Q are. -/
def Obligations.ReconstructionClosesTheLoop : Prop :=
  ∀ s : State, RunInv s → FrameIsOpen s → s.stage = .raw →
    (s.ftype = .intra → ∃ u t, exec .intraPred s = .next u ∧
      execAll [.fdct, .quant, .emit, .dequant, .idct, .intraRecon] u = .next t ∧
      (let pred : Plane → Nat → Nat → Int := fun p r c => if enIntra s = true then candidate u.edge p u.mode r c else 0
       ∀ p : Plane, ∀ r < p.size, ∀ c < p.size, t.mbuf.val p r c =
        clip255 (pred p r c + residualLoop (enT s) (enQ s) s.qp.toNat (fun i j => s.mbuf.val p i j - pred p i j) r c))) ∧
    (s.ftype = .predicted → ∃ u t, exec .mcPred s = .next u ∧
      execAll [.fdct, .quant, .emit, .dequant, .idct, .mcRecon] u = .next t ∧
      (let pred : Plane → Nat → Nat → Int := fun p r c => if enMc s = true then motionPrediction u p r c else 0
       ∀ p : Plane, ∀ r < p.size, ∀ c < p.size, t.mbuf.val p r c =
        clip255 (pred p r c + residualLoop (enT s) (enQ s) s.qp.toNat (fun i j => s.mbuf.val p i j - pred p i j) r c)))

/-- R179: on the ranges of the stages, FDCT's words stay within 16320 and IDCT's within 14419, so sat16 never acts. -/
def Obligations.TransformBounds : Prop :=
  (∀ x : Block, (∀ r < 8, ∀ c < 8, |x r c| ≤ 255) → ∀ u < 8, ∀ v < 8,
    |forwardAcc x u v| ≤ 8761374048000 ∧ |forward8 x u v| ≤ 16320) ∧
  (∀ x : Block, (∀ u < 8, ∀ v < 8, |x u v| ≤ 16528) → ∀ r < 8, ∀ c < 8,
    |inverseAcc x r c| < 2 ^ 49 ∧ |inverse8 x r c| ≤ 14419)

/-- R190: the quantizer pair: half a step, idempotence, oddness, monotonicity, exactness on multiples. -/
def Obligations.QuantizerPairProperties : Prop :=
  ∀ q : Nat, 1 ≤ q →
    (∀ w : Int, |dequantWord (quantLevel w q) q - w| ≤ 4 * q) ∧
    (∀ l : Int, quantLevel (dequantWord l q) q = l) ∧
    (∀ w : Int, quantLevel (-w) q = - quantLevel w q ∧ dequantWord (-w) q = - dequantWord w q) ∧
    (∀ w w' : Int, w ≤ w' → quantLevel w q ≤ quantLevel w' q ∧ dequantWord w q ≤ dequantWord w' q) ∧
    (∀ k : Int, dequantWord (quantLevel (k * (8 * q)) q) q = k * (8 * q))

/-! The host's register view -/

/-- R58: the value CsrRead returns for every register number. -/
def Obligations.CsrReadReturnsTheRegisterTable : Prop :=
  ∀ s : State,
    (csrRead 0x00 s = 0 ∧ csrRead 0x01 s = statusWord s ∧ (csrRead 0x02 s).toNat = s.errCode.code ∧ csrRead 0x03 s = s.errCmd ∧
      (csrRead 0x04 s).toNat = 256 * s.pich.toNat + s.picw.toNat ∧
      (csrRead 0x05 s).toNat = 256 * s.winy.toNat + s.winx.toNat ∧ (csrRead 0x06 s).toNat = s.qp.toNat ∧
      (csrRead 0x07 s).toNat = s.iint.toNat ∧ (csrRead 0x08 s).toNat = s.feat.toNat ∧
      (csrRead 0x09 s).toNat = s.ovh.toNat ∧ (csrRead 0x0A s).toNat = s.ipos.toNat ∧
      (csrRead 0x0B s).toNat = s.mbidx.toNat ∧ (csrRead 0x0C s).toNat = s.stage.code ∧
      (csrRead 0x0D s).toNat = s.mode.code ∧ (csrRead 0x0E s).toNat = s.mbqp.toNat) ∧
    (∀ q < 4, (csrRead (0x10 + q) s).toNat = 256 * (mvAt s q).dy.toNat + (mvAt s q).dx.toNat) ∧
    csrRead 0x14 s = s.cost0 ∧ csrRead 0x15 s = s.cost1 ∧
    (∀ r < 16, ∀ c < 16, csrRead (0x200 + 16 * r + c) s = (s.mbuf.word .y r c).signExtend 32) ∧
    (∀ r < 8, ∀ c < 8, csrRead (0x300 + 8 * r + c) s = (s.mbuf.word .cb r c).signExtend 32 ∧
      csrRead (0x340 + 8 * r + c) s = (s.mbuf.word .cr r c).signExtend 32) ∧
    (∀ n, n = 0x0F ∨ (0x16 ≤ n ∧ n < 0x200) ∨ 0x380 ≤ n → csrRead n s = 0)

/-- R59: the fields of STATUS. -/
def Obligations.StatusFields : Prop :=
  ∀ s : State,
    ((csrRead 0x01 s).extractLsb' 0 2).toNat = s.phase.code ∧ (csrRead 0x01 s).getLsbD 2 = s.fopen ∧
    ((csrRead 0x01 s).getLsbD 3 = true ↔ s.ftype = .predicted) ∧ (csrRead 0x01 s).getLsbD 4 = s.refValid ∧
    (csrRead 0x01 s).getLsbD 5 = s.eos ∧ (csrRead 0x01 s).getLsbD 6 = s.sat ∧ (csrRead 0x01 s).getLsbD 7 = s.part ∧
    (csrRead 0x01 s).getLsbD 8 = s.sbValid ∧ (csrRead 0x01 s).extractLsb' 9 23 = 0

/-! Who writes what -/

/-- R36: a step changes a configuration register only in the CONFIG phase, or when it is a reset. -/
def Obligations.ConfigurationFrozenUntilReset : Prop :=
  ∀ s t : State, step s = .next t → s.phase ≠ .config →
    (∃ rest, s.port = .hardReset :: rest ∨ s.port = .cmdWrite 0xFF000000 :: rest) ∨
    (t.picw = s.picw ∧ t.pich = s.pich ∧ t.winx = s.winx ∧ t.winy = s.winy ∧ t.qp = s.qp ∧ t.iint = s.iint ∧
      t.feat = s.feat ∧ t.ovh = s.ovh)

/-- R23 to R25, R28, R29, R56, R89: which commands besides RESET may change each store and stream. REF and REC also become
unspecified at START (U3, U4). -/
def Obligations.StoresChangeOnlyByTheirCommands : Prop :=
  ∀ (i : Instr) (s t : State), exec i s = .next t → i ≠ .reset →
    (t.mbuf = s.mbuf ∨
      i ∈ [.loadMb, .intraPred, .mcPred, .fdct, .quant, .dequant, .idct, .intraRecon, .mcRecon]) ∧
    (t.edge = s.edge ∨ (i = .intraPred ∧ enIntra s = true)) ∧ (t.sb = s.sb ∨ (i = .mcPred ∧ enMc s = true)) ∧
    (t.refStore = s.refStore ∨ i = .install ∨ i = .start) ∧
    (t.recStore = s.recStore ∨ i ∈ [.intraRecon, .mcRecon, .install, .start]) ∧
    (t.src = s.src ∨ i = .beginFrame) ∧ (t.cur = s.cur ∨ i = .beginFrame ∨ i = .install) ∧
    (t.out = s.out ∨ i = .beginFrame ∨ i = .emit) ∧ t.port = s.port

/-- R40, R41, R43 to R45, R47 to R55, R240: which commands besides RESET may change each sequencing register but STAGE (which
is StageAdvancesMonotonically's), each metadata register, flag and fault register. RUN is entered only by START from CONFIG,
HALT only by a fault, and left by none of them; ERRCODE and ERRCMD are written only by the fault that halts; EOS and SAT are
never cleared. -/
def Obligations.RegistersChangeOnlyByTheirCommands : Prop :=
  ∀ (i : Instr) (s t : State), exec i s = .next t → i ≠ .reset →
    (t.phase = s.phase ∨ (i = .start ∧ s.phase = .config ∧ t.phase = .run) ∨
      (s.phase ≠ .halt ∧ t.phase = .halt ∧ t.errCode ≠ .ok ∧ t.errCmd = encode i)) ∧
    (s.phase = .halt → t = s) ∧
    ((t.errCode = s.errCode ∧ t.errCmd = s.errCmd) ∨ (s.phase ≠ .halt ∧ t.phase = .halt)) ∧
    (t.fopen = s.fopen ∨ i = .beginFrame ∨ i = .install) ∧ (t.ftype = s.ftype ∨ i = .beginFrame) ∧
    (t.mbidx = s.mbidx ∨ i ∈ [.beginFrame, .intraRecon, .mcRecon]) ∧ (t.ipos = s.ipos ∨ i = .start ∨ i = .install) ∧
    (t.eos = s.eos ∨ i = .beginFrame) ∧ (s.eos = true → t.eos = true) ∧
    (t.mode = s.mode ∨ i = .loadMb ∨ i = .intraPred) ∧ (t.part = s.part ∨ i = .loadMb ∨ i = .mcPred) ∧
    (t.mv = s.mv ∨ i = .loadMb ∨ i = .mcPred) ∧ (t.mbqp = s.mbqp ∨ i = .loadMb ∨ i = .quant) ∧
    ((t.cost0 = s.cost0 ∧ t.cost1 = s.cost1) ∨ i = .loadMb ∨ i = .mcPred) ∧
    (t.refValid = s.refValid ∨ i = .start ∨ i = .install) ∧
    (t.sbValid = s.sbValid ∨ i ∈ [.mcPred, .beginFrame, .install, .loadMb]) ∧
    (t.sat = s.sat ∨ i ∈ [.fdct, .idct, .dequant]) ∧ (s.sat = true → t.sat = true)

/-- R42: within a macroblock STAGE moves to the next code and to no other; LOAD_MB starts at RAW; BEGIN_FRAME and INSTALL
leave EMPTY. -/
def Obligations.StageAdvancesMonotonically : Prop :=
  ∀ (i : Instr) (s t : State), exec i s = .next t → i ≠ .reset →
    t.stage = s.stage ∨ (t.stage.code = s.stage.code + 1 ∧ s.stage ≠ .empty ∧ s.stage ≠ .recon) ∨
    (i = .loadMb ∧ (s.stage = .empty ∨ s.stage = .recon) ∧ t.stage = .raw) ∨
    ((i = .beginFrame ∨ i = .install) ∧ t.stage = .empty)

/-- R56: no step, a reset neither, removes a word from OUT, and only BEGIN_FRAME and EMIT append to it. -/
def Obligations.OutputIsAppendOnly : Prop :=
  ∀ s t : State, step s = .next t → s.out <+: t.out ∧
    (t.out ≠ s.out → ∃ w rest, s.port = .cmdWrite w :: rest ∧ (w = 0x10000000 ∨ w = 0x12000000))

/-! Invariants -/

/-- Every step keeps the stores' canonical form (the model's representation of R25, R27, R28; log 4). -/
def Obligations.MemoryStaysCanonical : Prop := ∀ s t : State, MemoryInv s → step s = .next t → MemoryInv t

/-- R219 (a) to (f): every step keeps the sequencing invariants. -/
def Obligations.SequencingInvariantKept : Prop :=
  ∀ s t : State, SequencerInv s → step s = .next t → SequencerInv t

/-- R219 (h): every step keeps the count of macroblock records pushed since the frame's header. -/
def Obligations.RecordCountKept : Prop :=
  ∀ s t : State, SequencerInv s → OutputInv s → step s = .next t → OutputInv t

/-- R22, R49, R52 to R54, R90, R219: every step keeps all the invariants of a run together. -/
def Obligations.RunInvariantKept : Prop := ∀ s t : State, RunInv s → step s = .next t → RunInv t

/-- The reset state, and the state after a RESET in any state, meet every invariant (R62; the values of MBUF and EDGE in
State.reset are the model's, log 2, and no clause rests on them). -/
def Obligations.ResetEstablishesTheInvariants : Prop :=
  (RunInv State.reset ∧ MemoryInv State.reset ∧ OutputInv State.reset) ∧
  ∀ s : State, ∃ t, exec .reset s = .next t ∧ RunInv t ∧ MemoryInv t ∧ OutputInv t

/-- R73: no index outside a store is ever produced in a run: a step never ends in a fault of the model, each of which
stands for such an index (log 7), and refuses only a picture of another size (U5, log 6). -/
def Obligations.NoRunIndexesOutsideAStore : Prop :=
  ∀ s : State, SequencerInv s → DatapathInv s →
    (∀ f, step s ≠ .fault f) ∧
    (∀ r, step s = .refused r → ∃ pic rest, s.src = pic :: rest ∧ pic.shaped s = false)

/-- R265: contents the spec leaves unspecified (U1 to U4) influence no register, no written sample and no output word. -/
def Obligations.UnspecifiedContentsNeverMatter : Prop :=
  ∀ s t : State, RunInv s → RunInv t → SameSpecified s t →
    ∀ s', step s = .next s' → ∃ t', step t = .next t' ∧ SameSpecified s' t'
end

