-- ==== Sys2Proof/Laws/Command.lean ====
section
/-! SUPPORT. What the shared command operation can do, said once (60_exceptions.md R232, R237, R241). -/

namespace Sys2Proof.Machine

@[simp] theorem firstFailed_nil : firstFailed [] = none := rfl

@[simp] theorem firstFailed_cons (ok : Bool) (code : ErrCode) (rest : List (Bool × ErrCode)) :
    firstFailed ((ok, code) :: rest) = if ok then firstFailed rest else some code := rfl

/-- No check fails exactly when all hold. -/
theorem firstFailed_eq_none {l : List (Bool × ErrCode)} : firstFailed l = none ↔ ∀ c ∈ l, c.1 = true := by
  induction l with
  | nil => simp
  | cons a l ih =>
    obtain ⟨ok, code⟩ := a
    cases ok <;> simp [ih]

/-- The failed check is one of the list's, and every check before it holds: R237's priority. -/
theorem firstFailed_eq_some {l : List (Bool × ErrCode)} {code : ErrCode} (h : firstFailed l = some code) :
    ∃ before rest, l = before ++ (false, code) :: rest ∧ ∀ c ∈ before, c.1 = true := by
  induction l with
  | nil => simp at h
  | cons a l ih =>
    obtain ⟨ok, e⟩ := a
    cases ok with
    | false => simp at h; subst h; exact ⟨[], l, rfl, by simp⟩
    | true =>
      simp at h
      obtain ⟨b, r, rfl, hb⟩ := ih h
      exact ⟨(true, e) :: b, r, rfl, by simpa using hb⟩

/-- In HALT a command changes nothing (R241). -/
theorem command_halt {s : State} (h : s.phase = .halt) (w : Word) (checks : List (Bool × ErrCode))
    (effect : State → Result) : command w checks effect s = .next s := by
  simp [command, h]

/-- Out of HALT, the first failed check decides the fault (R237). -/
theorem command_fault {s : State} (h : s.phase ≠ .halt) {w : Word} {checks : List (Bool × ErrCode)} {code : ErrCode}
    (hc : firstFailed checks = some code) (effect : State → Result) :
    command w checks effect s = .next (raiseFault code w s) := by
  simp [command, h, hc]

/-- Out of HALT, with every check passed, a command has its effect. -/
theorem command_effect {s : State} (h : s.phase ≠ .halt) {w : Word} {checks : List (Bool × ErrCode)}
    (hc : firstFailed checks = none) (effect : State → Result) : command w checks effect s = effect s := by
  simp [command, h, hc]

/-- Everything a command can do: nothing in HALT, a fault, or its effect. -/
theorem command_cases (w : Word) (checks : List (Bool × ErrCode)) (effect : State → Result) (s : State) :
    (s.phase = .halt ∧ command w checks effect s = .next s) ∨
    (s.phase ≠ .halt ∧ ∃ code, firstFailed checks = some code ∧
      command w checks effect s = .next (raiseFault code w s)) ∨
    (s.phase ≠ .halt ∧ firstFailed checks = none ∧ command w checks effect s = effect s) := by
  by_cases h : s.phase = .halt
  · exact .inl ⟨h, command_halt h _ _ _⟩
  · cases hc : firstFailed checks with
    | some code => exact .inr (.inl ⟨h, code, rfl, command_fault h hc _⟩)
    | none => exact .inr (.inr ⟨h, rfl, command_effect h hc _⟩)

end Sys2Proof.Machine
end

