-- ==== Sys2Proof/Laws/State.lean ====
section
/-! SUPPORT. One lemma per field of State per named update: what the field holds after it. All true by rfl,
once the update is unfolded (no value in it is). -/

namespace Sys2Proof.Machine

/-! raiseFault -/

@[simp] theorem raiseFault_port (code : ErrCode) (w : Word) (s : State) : (raiseFault code w s).port = s.port := by delta raiseFault; with_reducible rfl
@[simp] theorem raiseFault_src (code : ErrCode) (w : Word) (s : State) : (raiseFault code w s).src = s.src := by delta raiseFault; with_reducible rfl
@[simp] theorem raiseFault_cur (code : ErrCode) (w : Word) (s : State) : (raiseFault code w s).cur = s.cur := by delta raiseFault; with_reducible rfl
@[simp] theorem raiseFault_out (code : ErrCode) (w : Word) (s : State) : (raiseFault code w s).out = s.out := by delta raiseFault; with_reducible rfl
@[simp] theorem raiseFault_picw (code : ErrCode) (w : Word) (s : State) : (raiseFault code w s).picw = s.picw := by delta raiseFault; with_reducible rfl
@[simp] theorem raiseFault_pich (code : ErrCode) (w : Word) (s : State) : (raiseFault code w s).pich = s.pich := by delta raiseFault; with_reducible rfl
@[simp] theorem raiseFault_winx (code : ErrCode) (w : Word) (s : State) : (raiseFault code w s).winx = s.winx := by delta raiseFault; with_reducible rfl
@[simp] theorem raiseFault_winy (code : ErrCode) (w : Word) (s : State) : (raiseFault code w s).winy = s.winy := by delta raiseFault; with_reducible rfl
@[simp] theorem raiseFault_qp (code : ErrCode) (w : Word) (s : State) : (raiseFault code w s).qp = s.qp := by delta raiseFault; with_reducible rfl
@[simp] theorem raiseFault_iint (code : ErrCode) (w : Word) (s : State) : (raiseFault code w s).iint = s.iint := by delta raiseFault; with_reducible rfl
@[simp] theorem raiseFault_feat (code : ErrCode) (w : Word) (s : State) : (raiseFault code w s).feat = s.feat := by delta raiseFault; with_reducible rfl
@[simp] theorem raiseFault_ovh (code : ErrCode) (w : Word) (s : State) : (raiseFault code w s).ovh = s.ovh := by delta raiseFault; with_reducible rfl
@[simp] theorem raiseFault_phase (code : ErrCode) (w : Word) (s : State) : (raiseFault code w s).phase = .halt := by delta raiseFault; with_reducible rfl
@[simp] theorem raiseFault_fopen (code : ErrCode) (w : Word) (s : State) : (raiseFault code w s).fopen = s.fopen := by delta raiseFault; with_reducible rfl
@[simp] theorem raiseFault_ftype (code : ErrCode) (w : Word) (s : State) : (raiseFault code w s).ftype = s.ftype := by delta raiseFault; with_reducible rfl
@[simp] theorem raiseFault_stage (code : ErrCode) (w : Word) (s : State) : (raiseFault code w s).stage = s.stage := by delta raiseFault; with_reducible rfl
@[simp] theorem raiseFault_mbidx (code : ErrCode) (w : Word) (s : State) : (raiseFault code w s).mbidx = s.mbidx := by delta raiseFault; with_reducible rfl
@[simp] theorem raiseFault_ipos (code : ErrCode) (w : Word) (s : State) : (raiseFault code w s).ipos = s.ipos := by delta raiseFault; with_reducible rfl
@[simp] theorem raiseFault_eos (code : ErrCode) (w : Word) (s : State) : (raiseFault code w s).eos = s.eos := by delta raiseFault; with_reducible rfl
@[simp] theorem raiseFault_mode (code : ErrCode) (w : Word) (s : State) : (raiseFault code w s).mode = s.mode := by delta raiseFault; with_reducible rfl
@[simp] theorem raiseFault_part (code : ErrCode) (w : Word) (s : State) : (raiseFault code w s).part = s.part := by delta raiseFault; with_reducible rfl
@[simp] theorem raiseFault_mv (code : ErrCode) (w : Word) (s : State) : (raiseFault code w s).mv = s.mv := by delta raiseFault; with_reducible rfl
@[simp] theorem raiseFault_mbqp (code : ErrCode) (w : Word) (s : State) : (raiseFault code w s).mbqp = s.mbqp := by delta raiseFault; with_reducible rfl
@[simp] theorem raiseFault_cost0 (code : ErrCode) (w : Word) (s : State) : (raiseFault code w s).cost0 = s.cost0 := by delta raiseFault; with_reducible rfl
@[simp] theorem raiseFault_cost1 (code : ErrCode) (w : Word) (s : State) : (raiseFault code w s).cost1 = s.cost1 := by delta raiseFault; with_reducible rfl
@[simp] theorem raiseFault_refValid (code : ErrCode) (w : Word) (s : State) : (raiseFault code w s).refValid = s.refValid := by delta raiseFault; with_reducible rfl
@[simp] theorem raiseFault_sbValid (code : ErrCode) (w : Word) (s : State) : (raiseFault code w s).sbValid = s.sbValid := by delta raiseFault; with_reducible rfl
@[simp] theorem raiseFault_sat (code : ErrCode) (w : Word) (s : State) : (raiseFault code w s).sat = s.sat := by delta raiseFault; with_reducible rfl
@[simp] theorem raiseFault_errCode (code : ErrCode) (w : Word) (s : State) : (raiseFault code w s).errCode = code := by delta raiseFault; with_reducible rfl
@[simp] theorem raiseFault_errCmd (code : ErrCode) (w : Word) (s : State) : (raiseFault code w s).errCmd = w := by delta raiseFault; with_reducible rfl
@[simp] theorem raiseFault_mbuf (code : ErrCode) (w : Word) (s : State) : (raiseFault code w s).mbuf = s.mbuf := by delta raiseFault; with_reducible rfl
@[simp] theorem raiseFault_edge (code : ErrCode) (w : Word) (s : State) : (raiseFault code w s).edge = s.edge := by delta raiseFault; with_reducible rfl
@[simp] theorem raiseFault_sb (code : ErrCode) (w : Word) (s : State) : (raiseFault code w s).sb = s.sb := by delta raiseFault; with_reducible rfl
@[simp] theorem raiseFault_refStore (code : ErrCode) (w : Word) (s : State) : (raiseFault code w s).refStore = s.refStore := by delta raiseFault; with_reducible rfl
@[simp] theorem raiseFault_recStore (code : ErrCode) (w : Word) (s : State) : (raiseFault code w s).recStore = s.recStore := by delta raiseFault; with_reducible rfl
@[simp] theorem raiseFault_fillNext (code : ErrCode) (w : Word) (s : State) : (raiseFault code w s).fillNext = s.fillNext := by delta raiseFault; with_reducible rfl

/-! setMbuf -/

@[simp] theorem setMbuf_port (f : Plane → Nat → Nat → Int) (s : State) : (setMbuf f s).port = s.port := by delta setMbuf; with_reducible rfl
@[simp] theorem setMbuf_src (f : Plane → Nat → Nat → Int) (s : State) : (setMbuf f s).src = s.src := by delta setMbuf; with_reducible rfl
@[simp] theorem setMbuf_cur (f : Plane → Nat → Nat → Int) (s : State) : (setMbuf f s).cur = s.cur := by delta setMbuf; with_reducible rfl
@[simp] theorem setMbuf_out (f : Plane → Nat → Nat → Int) (s : State) : (setMbuf f s).out = s.out := by delta setMbuf; with_reducible rfl
@[simp] theorem setMbuf_picw (f : Plane → Nat → Nat → Int) (s : State) : (setMbuf f s).picw = s.picw := by delta setMbuf; with_reducible rfl
@[simp] theorem setMbuf_pich (f : Plane → Nat → Nat → Int) (s : State) : (setMbuf f s).pich = s.pich := by delta setMbuf; with_reducible rfl
@[simp] theorem setMbuf_winx (f : Plane → Nat → Nat → Int) (s : State) : (setMbuf f s).winx = s.winx := by delta setMbuf; with_reducible rfl
@[simp] theorem setMbuf_winy (f : Plane → Nat → Nat → Int) (s : State) : (setMbuf f s).winy = s.winy := by delta setMbuf; with_reducible rfl
@[simp] theorem setMbuf_qp (f : Plane → Nat → Nat → Int) (s : State) : (setMbuf f s).qp = s.qp := by delta setMbuf; with_reducible rfl
@[simp] theorem setMbuf_iint (f : Plane → Nat → Nat → Int) (s : State) : (setMbuf f s).iint = s.iint := by delta setMbuf; with_reducible rfl
@[simp] theorem setMbuf_feat (f : Plane → Nat → Nat → Int) (s : State) : (setMbuf f s).feat = s.feat := by delta setMbuf; with_reducible rfl
@[simp] theorem setMbuf_ovh (f : Plane → Nat → Nat → Int) (s : State) : (setMbuf f s).ovh = s.ovh := by delta setMbuf; with_reducible rfl
@[simp] theorem setMbuf_phase (f : Plane → Nat → Nat → Int) (s : State) : (setMbuf f s).phase = s.phase := by delta setMbuf; with_reducible rfl
@[simp] theorem setMbuf_fopen (f : Plane → Nat → Nat → Int) (s : State) : (setMbuf f s).fopen = s.fopen := by delta setMbuf; with_reducible rfl
@[simp] theorem setMbuf_ftype (f : Plane → Nat → Nat → Int) (s : State) : (setMbuf f s).ftype = s.ftype := by delta setMbuf; with_reducible rfl
@[simp] theorem setMbuf_stage (f : Plane → Nat → Nat → Int) (s : State) : (setMbuf f s).stage = s.stage := by delta setMbuf; with_reducible rfl
@[simp] theorem setMbuf_mbidx (f : Plane → Nat → Nat → Int) (s : State) : (setMbuf f s).mbidx = s.mbidx := by delta setMbuf; with_reducible rfl
@[simp] theorem setMbuf_ipos (f : Plane → Nat → Nat → Int) (s : State) : (setMbuf f s).ipos = s.ipos := by delta setMbuf; with_reducible rfl
@[simp] theorem setMbuf_eos (f : Plane → Nat → Nat → Int) (s : State) : (setMbuf f s).eos = s.eos := by delta setMbuf; with_reducible rfl
@[simp] theorem setMbuf_mode (f : Plane → Nat → Nat → Int) (s : State) : (setMbuf f s).mode = s.mode := by delta setMbuf; with_reducible rfl
@[simp] theorem setMbuf_part (f : Plane → Nat → Nat → Int) (s : State) : (setMbuf f s).part = s.part := by delta setMbuf; with_reducible rfl
@[simp] theorem setMbuf_mv (f : Plane → Nat → Nat → Int) (s : State) : (setMbuf f s).mv = s.mv := by delta setMbuf; with_reducible rfl
@[simp] theorem setMbuf_mbqp (f : Plane → Nat → Nat → Int) (s : State) : (setMbuf f s).mbqp = s.mbqp := by delta setMbuf; with_reducible rfl
@[simp] theorem setMbuf_cost0 (f : Plane → Nat → Nat → Int) (s : State) : (setMbuf f s).cost0 = s.cost0 := by delta setMbuf; with_reducible rfl
@[simp] theorem setMbuf_cost1 (f : Plane → Nat → Nat → Int) (s : State) : (setMbuf f s).cost1 = s.cost1 := by delta setMbuf; with_reducible rfl
@[simp] theorem setMbuf_refValid (f : Plane → Nat → Nat → Int) (s : State) : (setMbuf f s).refValid = s.refValid := by delta setMbuf; with_reducible rfl
@[simp] theorem setMbuf_sbValid (f : Plane → Nat → Nat → Int) (s : State) : (setMbuf f s).sbValid = s.sbValid := by delta setMbuf; with_reducible rfl
@[simp] theorem setMbuf_sat (f : Plane → Nat → Nat → Int) (s : State) : (setMbuf f s).sat = s.sat := by delta setMbuf; with_reducible rfl
@[simp] theorem setMbuf_errCode (f : Plane → Nat → Nat → Int) (s : State) : (setMbuf f s).errCode = s.errCode := by delta setMbuf; with_reducible rfl
@[simp] theorem setMbuf_errCmd (f : Plane → Nat → Nat → Int) (s : State) : (setMbuf f s).errCmd = s.errCmd := by delta setMbuf; with_reducible rfl
@[simp] theorem setMbuf_mbuf (f : Plane → Nat → Nat → Int) (s : State) : (setMbuf f s).mbuf = Mbuf.ofFn fun p r c => tc16 (f p r c) := by delta setMbuf; with_reducible rfl
@[simp] theorem setMbuf_edge (f : Plane → Nat → Nat → Int) (s : State) : (setMbuf f s).edge = s.edge := by delta setMbuf; with_reducible rfl
@[simp] theorem setMbuf_sb (f : Plane → Nat → Nat → Int) (s : State) : (setMbuf f s).sb = s.sb := by delta setMbuf; with_reducible rfl
@[simp] theorem setMbuf_refStore (f : Plane → Nat → Nat → Int) (s : State) : (setMbuf f s).refStore = s.refStore := by delta setMbuf; with_reducible rfl
@[simp] theorem setMbuf_recStore (f : Plane → Nat → Nat → Int) (s : State) : (setMbuf f s).recStore = s.recStore := by delta setMbuf; with_reducible rfl
@[simp] theorem setMbuf_fillNext (f : Plane → Nat → Nat → Int) (s : State) : (setMbuf f s).fillNext = s.fillNext := by delta setMbuf; with_reducible rfl

/-! setMbufSat -/

@[simp] theorem setMbufSat_port (f : Plane → Nat → Nat → Int) (s : State) : (setMbufSat f s).port = s.port := by delta setMbufSat setMbuf; with_reducible rfl
@[simp] theorem setMbufSat_src (f : Plane → Nat → Nat → Int) (s : State) : (setMbufSat f s).src = s.src := by delta setMbufSat setMbuf; with_reducible rfl
@[simp] theorem setMbufSat_cur (f : Plane → Nat → Nat → Int) (s : State) : (setMbufSat f s).cur = s.cur := by delta setMbufSat setMbuf; with_reducible rfl
@[simp] theorem setMbufSat_out (f : Plane → Nat → Nat → Int) (s : State) : (setMbufSat f s).out = s.out := by delta setMbufSat setMbuf; with_reducible rfl
@[simp] theorem setMbufSat_picw (f : Plane → Nat → Nat → Int) (s : State) : (setMbufSat f s).picw = s.picw := by delta setMbufSat setMbuf; with_reducible rfl
@[simp] theorem setMbufSat_pich (f : Plane → Nat → Nat → Int) (s : State) : (setMbufSat f s).pich = s.pich := by delta setMbufSat setMbuf; with_reducible rfl
@[simp] theorem setMbufSat_winx (f : Plane → Nat → Nat → Int) (s : State) : (setMbufSat f s).winx = s.winx := by delta setMbufSat setMbuf; with_reducible rfl
@[simp] theorem setMbufSat_winy (f : Plane → Nat → Nat → Int) (s : State) : (setMbufSat f s).winy = s.winy := by delta setMbufSat setMbuf; with_reducible rfl
@[simp] theorem setMbufSat_qp (f : Plane → Nat → Nat → Int) (s : State) : (setMbufSat f s).qp = s.qp := by delta setMbufSat setMbuf; with_reducible rfl
@[simp] theorem setMbufSat_iint (f : Plane → Nat → Nat → Int) (s : State) : (setMbufSat f s).iint = s.iint := by delta setMbufSat setMbuf; with_reducible rfl
@[simp] theorem setMbufSat_feat (f : Plane → Nat → Nat → Int) (s : State) : (setMbufSat f s).feat = s.feat := by delta setMbufSat setMbuf; with_reducible rfl
@[simp] theorem setMbufSat_ovh (f : Plane → Nat → Nat → Int) (s : State) : (setMbufSat f s).ovh = s.ovh := by delta setMbufSat setMbuf; with_reducible rfl
@[simp] theorem setMbufSat_phase (f : Plane → Nat → Nat → Int) (s : State) : (setMbufSat f s).phase = s.phase := by delta setMbufSat setMbuf; with_reducible rfl
@[simp] theorem setMbufSat_fopen (f : Plane → Nat → Nat → Int) (s : State) : (setMbufSat f s).fopen = s.fopen := by delta setMbufSat setMbuf; with_reducible rfl
@[simp] theorem setMbufSat_ftype (f : Plane → Nat → Nat → Int) (s : State) : (setMbufSat f s).ftype = s.ftype := by delta setMbufSat setMbuf; with_reducible rfl
@[simp] theorem setMbufSat_stage (f : Plane → Nat → Nat → Int) (s : State) : (setMbufSat f s).stage = s.stage := by delta setMbufSat setMbuf; with_reducible rfl
@[simp] theorem setMbufSat_mbidx (f : Plane → Nat → Nat → Int) (s : State) : (setMbufSat f s).mbidx = s.mbidx := by delta setMbufSat setMbuf; with_reducible rfl
@[simp] theorem setMbufSat_ipos (f : Plane → Nat → Nat → Int) (s : State) : (setMbufSat f s).ipos = s.ipos := by delta setMbufSat setMbuf; with_reducible rfl
@[simp] theorem setMbufSat_eos (f : Plane → Nat → Nat → Int) (s : State) : (setMbufSat f s).eos = s.eos := by delta setMbufSat setMbuf; with_reducible rfl
@[simp] theorem setMbufSat_mode (f : Plane → Nat → Nat → Int) (s : State) : (setMbufSat f s).mode = s.mode := by delta setMbufSat setMbuf; with_reducible rfl
@[simp] theorem setMbufSat_part (f : Plane → Nat → Nat → Int) (s : State) : (setMbufSat f s).part = s.part := by delta setMbufSat setMbuf; with_reducible rfl
@[simp] theorem setMbufSat_mv (f : Plane → Nat → Nat → Int) (s : State) : (setMbufSat f s).mv = s.mv := by delta setMbufSat setMbuf; with_reducible rfl
@[simp] theorem setMbufSat_mbqp (f : Plane → Nat → Nat → Int) (s : State) : (setMbufSat f s).mbqp = s.mbqp := by delta setMbufSat setMbuf; with_reducible rfl
@[simp] theorem setMbufSat_cost0 (f : Plane → Nat → Nat → Int) (s : State) : (setMbufSat f s).cost0 = s.cost0 := by delta setMbufSat setMbuf; with_reducible rfl
@[simp] theorem setMbufSat_cost1 (f : Plane → Nat → Nat → Int) (s : State) : (setMbufSat f s).cost1 = s.cost1 := by delta setMbufSat setMbuf; with_reducible rfl
@[simp] theorem setMbufSat_refValid (f : Plane → Nat → Nat → Int) (s : State) : (setMbufSat f s).refValid = s.refValid := by delta setMbufSat setMbuf; with_reducible rfl
@[simp] theorem setMbufSat_sbValid (f : Plane → Nat → Nat → Int) (s : State) : (setMbufSat f s).sbValid = s.sbValid := by delta setMbufSat setMbuf; with_reducible rfl
@[simp] theorem setMbufSat_sat (f : Plane → Nat → Nat → Int) (s : State) : (setMbufSat f s).sat = (s.sat || anyWord fun p r c => decide (sat16 (f p r c) ≠ f p r c)) := by delta setMbufSat setMbuf; with_reducible rfl
@[simp] theorem setMbufSat_errCode (f : Plane → Nat → Nat → Int) (s : State) : (setMbufSat f s).errCode = s.errCode := by delta setMbufSat setMbuf; with_reducible rfl
@[simp] theorem setMbufSat_errCmd (f : Plane → Nat → Nat → Int) (s : State) : (setMbufSat f s).errCmd = s.errCmd := by delta setMbufSat setMbuf; with_reducible rfl
@[simp] theorem setMbufSat_mbuf (f : Plane → Nat → Nat → Int) (s : State) : (setMbufSat f s).mbuf = Mbuf.ofFn fun p r c => tc16 (sat16 (f p r c)) := by delta setMbufSat setMbuf; with_reducible rfl
@[simp] theorem setMbufSat_edge (f : Plane → Nat → Nat → Int) (s : State) : (setMbufSat f s).edge = s.edge := by delta setMbufSat setMbuf; with_reducible rfl
@[simp] theorem setMbufSat_sb (f : Plane → Nat → Nat → Int) (s : State) : (setMbufSat f s).sb = s.sb := by delta setMbufSat setMbuf; with_reducible rfl
@[simp] theorem setMbufSat_refStore (f : Plane → Nat → Nat → Int) (s : State) : (setMbufSat f s).refStore = s.refStore := by delta setMbufSat setMbuf; with_reducible rfl
@[simp] theorem setMbufSat_recStore (f : Plane → Nat → Nat → Int) (s : State) : (setMbufSat f s).recStore = s.recStore := by delta setMbufSat setMbuf; with_reducible rfl
@[simp] theorem setMbufSat_fillNext (f : Plane → Nat → Nat → Int) (s : State) : (setMbufSat f s).fillNext = s.fillNext := by delta setMbufSat setMbuf; with_reducible rfl

/-! openFrame -/

@[simp] theorem openFrame_port (pic : Picture) (rest : List Picture) (s : State) : (openFrame pic rest s).port = s.port := by delta openFrame; with_reducible rfl
@[simp] theorem openFrame_src (pic : Picture) (rest : List Picture) (s : State) : (openFrame pic rest s).src = rest := by delta openFrame; with_reducible rfl
@[simp] theorem openFrame_cur (pic : Picture) (rest : List Picture) (s : State) : (openFrame pic rest s).cur = some pic := by delta openFrame; with_reducible rfl
@[simp] theorem openFrame_out (pic : Picture) (rest : List Picture) (s : State) : (openFrame pic rest s).out = s.out ++ frameHeader s := by delta openFrame; with_reducible rfl
@[simp] theorem openFrame_picw (pic : Picture) (rest : List Picture) (s : State) : (openFrame pic rest s).picw = s.picw := by delta openFrame; with_reducible rfl
@[simp] theorem openFrame_pich (pic : Picture) (rest : List Picture) (s : State) : (openFrame pic rest s).pich = s.pich := by delta openFrame; with_reducible rfl
@[simp] theorem openFrame_winx (pic : Picture) (rest : List Picture) (s : State) : (openFrame pic rest s).winx = s.winx := by delta openFrame; with_reducible rfl
@[simp] theorem openFrame_winy (pic : Picture) (rest : List Picture) (s : State) : (openFrame pic rest s).winy = s.winy := by delta openFrame; with_reducible rfl
@[simp] theorem openFrame_qp (pic : Picture) (rest : List Picture) (s : State) : (openFrame pic rest s).qp = s.qp := by delta openFrame; with_reducible rfl
@[simp] theorem openFrame_iint (pic : Picture) (rest : List Picture) (s : State) : (openFrame pic rest s).iint = s.iint := by delta openFrame; with_reducible rfl
@[simp] theorem openFrame_feat (pic : Picture) (rest : List Picture) (s : State) : (openFrame pic rest s).feat = s.feat := by delta openFrame; with_reducible rfl
@[simp] theorem openFrame_ovh (pic : Picture) (rest : List Picture) (s : State) : (openFrame pic rest s).ovh = s.ovh := by delta openFrame; with_reducible rfl
@[simp] theorem openFrame_phase (pic : Picture) (rest : List Picture) (s : State) : (openFrame pic rest s).phase = s.phase := by delta openFrame; with_reducible rfl
@[simp] theorem openFrame_fopen (pic : Picture) (rest : List Picture) (s : State) : (openFrame pic rest s).fopen = true := by delta openFrame; with_reducible rfl
@[simp] theorem openFrame_ftype (pic : Picture) (rest : List Picture) (s : State) : (openFrame pic rest s).ftype = if s.ipos = 0 then .intra else .predicted := by delta openFrame; with_reducible rfl
@[simp] theorem openFrame_stage (pic : Picture) (rest : List Picture) (s : State) : (openFrame pic rest s).stage = .empty := by delta openFrame; with_reducible rfl
@[simp] theorem openFrame_mbidx (pic : Picture) (rest : List Picture) (s : State) : (openFrame pic rest s).mbidx = 0 := by delta openFrame; with_reducible rfl
@[simp] theorem openFrame_ipos (pic : Picture) (rest : List Picture) (s : State) : (openFrame pic rest s).ipos = s.ipos := by delta openFrame; with_reducible rfl
@[simp] theorem openFrame_eos (pic : Picture) (rest : List Picture) (s : State) : (openFrame pic rest s).eos = s.eos := by delta openFrame; with_reducible rfl
@[simp] theorem openFrame_mode (pic : Picture) (rest : List Picture) (s : State) : (openFrame pic rest s).mode = s.mode := by delta openFrame; with_reducible rfl
@[simp] theorem openFrame_part (pic : Picture) (rest : List Picture) (s : State) : (openFrame pic rest s).part = s.part := by delta openFrame; with_reducible rfl
@[simp] theorem openFrame_mv (pic : Picture) (rest : List Picture) (s : State) : (openFrame pic rest s).mv = s.mv := by delta openFrame; with_reducible rfl
@[simp] theorem openFrame_mbqp (pic : Picture) (rest : List Picture) (s : State) : (openFrame pic rest s).mbqp = s.mbqp := by delta openFrame; with_reducible rfl
@[simp] theorem openFrame_cost0 (pic : Picture) (rest : List Picture) (s : State) : (openFrame pic rest s).cost0 = s.cost0 := by delta openFrame; with_reducible rfl
@[simp] theorem openFrame_cost1 (pic : Picture) (rest : List Picture) (s : State) : (openFrame pic rest s).cost1 = s.cost1 := by delta openFrame; with_reducible rfl
@[simp] theorem openFrame_refValid (pic : Picture) (rest : List Picture) (s : State) : (openFrame pic rest s).refValid = s.refValid := by delta openFrame; with_reducible rfl
@[simp] theorem openFrame_sbValid (pic : Picture) (rest : List Picture) (s : State) : (openFrame pic rest s).sbValid = false := by delta openFrame; with_reducible rfl
@[simp] theorem openFrame_sat (pic : Picture) (rest : List Picture) (s : State) : (openFrame pic rest s).sat = s.sat := by delta openFrame; with_reducible rfl
@[simp] theorem openFrame_errCode (pic : Picture) (rest : List Picture) (s : State) : (openFrame pic rest s).errCode = s.errCode := by delta openFrame; with_reducible rfl
@[simp] theorem openFrame_errCmd (pic : Picture) (rest : List Picture) (s : State) : (openFrame pic rest s).errCmd = s.errCmd := by delta openFrame; with_reducible rfl
@[simp] theorem openFrame_mbuf (pic : Picture) (rest : List Picture) (s : State) : (openFrame pic rest s).mbuf = s.mbuf := by delta openFrame; with_reducible rfl
@[simp] theorem openFrame_edge (pic : Picture) (rest : List Picture) (s : State) : (openFrame pic rest s).edge = s.edge := by delta openFrame; with_reducible rfl
@[simp] theorem openFrame_sb (pic : Picture) (rest : List Picture) (s : State) : (openFrame pic rest s).sb = s.sb := by delta openFrame; with_reducible rfl
@[simp] theorem openFrame_refStore (pic : Picture) (rest : List Picture) (s : State) : (openFrame pic rest s).refStore = s.refStore := by delta openFrame; with_reducible rfl
@[simp] theorem openFrame_recStore (pic : Picture) (rest : List Picture) (s : State) : (openFrame pic rest s).recStore = s.recStore := by delta openFrame; with_reducible rfl
@[simp] theorem openFrame_fillNext (pic : Picture) (rest : List Picture) (s : State) : (openFrame pic rest s).fillNext = s.fillNext := by delta openFrame; with_reducible rfl

/-! loadMacroblock -/

@[simp] theorem loadMacroblock_port (pic : Picture) (s : State) : (loadMacroblock pic s).port = s.port := by delta loadMacroblock setMbuf; with_reducible rfl
@[simp] theorem loadMacroblock_src (pic : Picture) (s : State) : (loadMacroblock pic s).src = s.src := by delta loadMacroblock setMbuf; with_reducible rfl
@[simp] theorem loadMacroblock_cur (pic : Picture) (s : State) : (loadMacroblock pic s).cur = s.cur := by delta loadMacroblock setMbuf; with_reducible rfl
@[simp] theorem loadMacroblock_out (pic : Picture) (s : State) : (loadMacroblock pic s).out = s.out := by delta loadMacroblock setMbuf; with_reducible rfl
@[simp] theorem loadMacroblock_picw (pic : Picture) (s : State) : (loadMacroblock pic s).picw = s.picw := by delta loadMacroblock setMbuf; with_reducible rfl
@[simp] theorem loadMacroblock_pich (pic : Picture) (s : State) : (loadMacroblock pic s).pich = s.pich := by delta loadMacroblock setMbuf; with_reducible rfl
@[simp] theorem loadMacroblock_winx (pic : Picture) (s : State) : (loadMacroblock pic s).winx = s.winx := by delta loadMacroblock setMbuf; with_reducible rfl
@[simp] theorem loadMacroblock_winy (pic : Picture) (s : State) : (loadMacroblock pic s).winy = s.winy := by delta loadMacroblock setMbuf; with_reducible rfl
@[simp] theorem loadMacroblock_qp (pic : Picture) (s : State) : (loadMacroblock pic s).qp = s.qp := by delta loadMacroblock setMbuf; with_reducible rfl
@[simp] theorem loadMacroblock_iint (pic : Picture) (s : State) : (loadMacroblock pic s).iint = s.iint := by delta loadMacroblock setMbuf; with_reducible rfl
@[simp] theorem loadMacroblock_feat (pic : Picture) (s : State) : (loadMacroblock pic s).feat = s.feat := by delta loadMacroblock setMbuf; with_reducible rfl
@[simp] theorem loadMacroblock_ovh (pic : Picture) (s : State) : (loadMacroblock pic s).ovh = s.ovh := by delta loadMacroblock setMbuf; with_reducible rfl
@[simp] theorem loadMacroblock_phase (pic : Picture) (s : State) : (loadMacroblock pic s).phase = s.phase := by delta loadMacroblock setMbuf; with_reducible rfl
@[simp] theorem loadMacroblock_fopen (pic : Picture) (s : State) : (loadMacroblock pic s).fopen = s.fopen := by delta loadMacroblock setMbuf; with_reducible rfl
@[simp] theorem loadMacroblock_ftype (pic : Picture) (s : State) : (loadMacroblock pic s).ftype = s.ftype := by delta loadMacroblock setMbuf; with_reducible rfl
@[simp] theorem loadMacroblock_stage (pic : Picture) (s : State) : (loadMacroblock pic s).stage = .raw := by delta loadMacroblock setMbuf; with_reducible rfl
@[simp] theorem loadMacroblock_mbidx (pic : Picture) (s : State) : (loadMacroblock pic s).mbidx = s.mbidx := by delta loadMacroblock setMbuf; with_reducible rfl
@[simp] theorem loadMacroblock_ipos (pic : Picture) (s : State) : (loadMacroblock pic s).ipos = s.ipos := by delta loadMacroblock setMbuf; with_reducible rfl
@[simp] theorem loadMacroblock_eos (pic : Picture) (s : State) : (loadMacroblock pic s).eos = s.eos := by delta loadMacroblock setMbuf; with_reducible rfl
@[simp] theorem loadMacroblock_mode (pic : Picture) (s : State) : (loadMacroblock pic s).mode = .dc := by delta loadMacroblock setMbuf; with_reducible rfl
@[simp] theorem loadMacroblock_part (pic : Picture) (s : State) : (loadMacroblock pic s).part = false := by delta loadMacroblock setMbuf; with_reducible rfl
@[simp] theorem loadMacroblock_mv (pic : Picture) (s : State) : (loadMacroblock pic s).mv = Vector.replicate 4 ⟨0, 0⟩ := by delta loadMacroblock setMbuf; with_reducible rfl
@[simp] theorem loadMacroblock_mbqp (pic : Picture) (s : State) : (loadMacroblock pic s).mbqp = 0 := by delta loadMacroblock setMbuf; with_reducible rfl
@[simp] theorem loadMacroblock_cost0 (pic : Picture) (s : State) : (loadMacroblock pic s).cost0 = 0 := by delta loadMacroblock setMbuf; with_reducible rfl
@[simp] theorem loadMacroblock_cost1 (pic : Picture) (s : State) : (loadMacroblock pic s).cost1 = 0 := by delta loadMacroblock setMbuf; with_reducible rfl
@[simp] theorem loadMacroblock_refValid (pic : Picture) (s : State) : (loadMacroblock pic s).refValid = s.refValid := by delta loadMacroblock setMbuf; with_reducible rfl
@[simp] theorem loadMacroblock_sbValid (pic : Picture) (s : State) : (loadMacroblock pic s).sbValid = false := by delta loadMacroblock setMbuf; with_reducible rfl
@[simp] theorem loadMacroblock_sat (pic : Picture) (s : State) : (loadMacroblock pic s).sat = s.sat := by delta loadMacroblock setMbuf; with_reducible rfl
@[simp] theorem loadMacroblock_errCode (pic : Picture) (s : State) : (loadMacroblock pic s).errCode = s.errCode := by delta loadMacroblock setMbuf; with_reducible rfl
@[simp] theorem loadMacroblock_errCmd (pic : Picture) (s : State) : (loadMacroblock pic s).errCmd = s.errCmd := by delta loadMacroblock setMbuf; with_reducible rfl
@[simp] theorem loadMacroblock_mbuf (pic : Picture) (s : State) : (loadMacroblock pic s).mbuf = Mbuf.ofFn fun p r c => tc16 (pic.sample p (mbRow s p + r) (mbCol s p + c)).toNat := by delta loadMacroblock setMbuf; with_reducible rfl
@[simp] theorem loadMacroblock_edge (pic : Picture) (s : State) : (loadMacroblock pic s).edge = s.edge := by delta loadMacroblock setMbuf; with_reducible rfl
@[simp] theorem loadMacroblock_sb (pic : Picture) (s : State) : (loadMacroblock pic s).sb = s.sb := by delta loadMacroblock setMbuf; with_reducible rfl
@[simp] theorem loadMacroblock_refStore (pic : Picture) (s : State) : (loadMacroblock pic s).refStore = s.refStore := by delta loadMacroblock setMbuf; with_reducible rfl
@[simp] theorem loadMacroblock_recStore (pic : Picture) (s : State) : (loadMacroblock pic s).recStore = s.recStore := by delta loadMacroblock setMbuf; with_reducible rfl
@[simp] theorem loadMacroblock_fillNext (pic : Picture) (s : State) : (loadMacroblock pic s).fillNext = s.fillNext := by delta loadMacroblock setMbuf; with_reducible rfl

/-! finishMacroblock -/

@[simp] theorem finishMacroblock_port (s : State) : (finishMacroblock s).port = s.port := by delta finishMacroblock; with_reducible rfl
@[simp] theorem finishMacroblock_src (s : State) : (finishMacroblock s).src = s.src := by delta finishMacroblock; with_reducible rfl
@[simp] theorem finishMacroblock_cur (s : State) : (finishMacroblock s).cur = s.cur := by delta finishMacroblock; with_reducible rfl
@[simp] theorem finishMacroblock_out (s : State) : (finishMacroblock s).out = s.out := by delta finishMacroblock; with_reducible rfl
@[simp] theorem finishMacroblock_picw (s : State) : (finishMacroblock s).picw = s.picw := by delta finishMacroblock; with_reducible rfl
@[simp] theorem finishMacroblock_pich (s : State) : (finishMacroblock s).pich = s.pich := by delta finishMacroblock; with_reducible rfl
@[simp] theorem finishMacroblock_winx (s : State) : (finishMacroblock s).winx = s.winx := by delta finishMacroblock; with_reducible rfl
@[simp] theorem finishMacroblock_winy (s : State) : (finishMacroblock s).winy = s.winy := by delta finishMacroblock; with_reducible rfl
@[simp] theorem finishMacroblock_qp (s : State) : (finishMacroblock s).qp = s.qp := by delta finishMacroblock; with_reducible rfl
@[simp] theorem finishMacroblock_iint (s : State) : (finishMacroblock s).iint = s.iint := by delta finishMacroblock; with_reducible rfl
@[simp] theorem finishMacroblock_feat (s : State) : (finishMacroblock s).feat = s.feat := by delta finishMacroblock; with_reducible rfl
@[simp] theorem finishMacroblock_ovh (s : State) : (finishMacroblock s).ovh = s.ovh := by delta finishMacroblock; with_reducible rfl
@[simp] theorem finishMacroblock_phase (s : State) : (finishMacroblock s).phase = s.phase := by delta finishMacroblock; with_reducible rfl
@[simp] theorem finishMacroblock_fopen (s : State) : (finishMacroblock s).fopen = s.fopen := by delta finishMacroblock; with_reducible rfl
@[simp] theorem finishMacroblock_ftype (s : State) : (finishMacroblock s).ftype = s.ftype := by delta finishMacroblock; with_reducible rfl
@[simp] theorem finishMacroblock_stage (s : State) : (finishMacroblock s).stage = .recon := by delta finishMacroblock; with_reducible rfl
@[simp] theorem finishMacroblock_mbidx (s : State) : (finishMacroblock s).mbidx = s.mbidx + 1 := by delta finishMacroblock; with_reducible rfl
@[simp] theorem finishMacroblock_ipos (s : State) : (finishMacroblock s).ipos = s.ipos := by delta finishMacroblock; with_reducible rfl
@[simp] theorem finishMacroblock_eos (s : State) : (finishMacroblock s).eos = s.eos := by delta finishMacroblock; with_reducible rfl
@[simp] theorem finishMacroblock_mode (s : State) : (finishMacroblock s).mode = s.mode := by delta finishMacroblock; with_reducible rfl
@[simp] theorem finishMacroblock_part (s : State) : (finishMacroblock s).part = s.part := by delta finishMacroblock; with_reducible rfl
@[simp] theorem finishMacroblock_mv (s : State) : (finishMacroblock s).mv = s.mv := by delta finishMacroblock; with_reducible rfl
@[simp] theorem finishMacroblock_mbqp (s : State) : (finishMacroblock s).mbqp = s.mbqp := by delta finishMacroblock; with_reducible rfl
@[simp] theorem finishMacroblock_cost0 (s : State) : (finishMacroblock s).cost0 = s.cost0 := by delta finishMacroblock; with_reducible rfl
@[simp] theorem finishMacroblock_cost1 (s : State) : (finishMacroblock s).cost1 = s.cost1 := by delta finishMacroblock; with_reducible rfl
@[simp] theorem finishMacroblock_refValid (s : State) : (finishMacroblock s).refValid = s.refValid := by delta finishMacroblock; with_reducible rfl
@[simp] theorem finishMacroblock_sbValid (s : State) : (finishMacroblock s).sbValid = s.sbValid := by delta finishMacroblock; with_reducible rfl
@[simp] theorem finishMacroblock_sat (s : State) : (finishMacroblock s).sat = s.sat := by delta finishMacroblock; with_reducible rfl
@[simp] theorem finishMacroblock_errCode (s : State) : (finishMacroblock s).errCode = s.errCode := by delta finishMacroblock; with_reducible rfl
@[simp] theorem finishMacroblock_errCmd (s : State) : (finishMacroblock s).errCmd = s.errCmd := by delta finishMacroblock; with_reducible rfl
@[simp] theorem finishMacroblock_mbuf (s : State) : (finishMacroblock s).mbuf = s.mbuf := by delta finishMacroblock; with_reducible rfl
@[simp] theorem finishMacroblock_edge (s : State) : (finishMacroblock s).edge = s.edge := by delta finishMacroblock; with_reducible rfl
@[simp] theorem finishMacroblock_sb (s : State) : (finishMacroblock s).sb = s.sb := by delta finishMacroblock; with_reducible rfl
@[simp] theorem finishMacroblock_refStore (s : State) : (finishMacroblock s).refStore = s.refStore := by delta finishMacroblock; with_reducible rfl
@[simp] theorem finishMacroblock_recStore (s : State) : (finishMacroblock s).recStore = storeMacroblock s := by delta finishMacroblock; with_reducible rfl
@[simp] theorem finishMacroblock_fillNext (s : State) : (finishMacroblock s).fillNext = s.fillNext := by delta finishMacroblock; with_reducible rfl

/-! motionSearch -/

@[simp] theorem motionSearch_port (s : State) : (motionSearch s).port = s.port := by delta motionSearch; with_reducible rfl
@[simp] theorem motionSearch_src (s : State) : (motionSearch s).src = s.src := by delta motionSearch; with_reducible rfl
@[simp] theorem motionSearch_cur (s : State) : (motionSearch s).cur = s.cur := by delta motionSearch; with_reducible rfl
@[simp] theorem motionSearch_out (s : State) : (motionSearch s).out = s.out := by delta motionSearch; with_reducible rfl
@[simp] theorem motionSearch_picw (s : State) : (motionSearch s).picw = s.picw := by delta motionSearch; with_reducible rfl
@[simp] theorem motionSearch_pich (s : State) : (motionSearch s).pich = s.pich := by delta motionSearch; with_reducible rfl
@[simp] theorem motionSearch_winx (s : State) : (motionSearch s).winx = s.winx := by delta motionSearch; with_reducible rfl
@[simp] theorem motionSearch_winy (s : State) : (motionSearch s).winy = s.winy := by delta motionSearch; with_reducible rfl
@[simp] theorem motionSearch_qp (s : State) : (motionSearch s).qp = s.qp := by delta motionSearch; with_reducible rfl
@[simp] theorem motionSearch_iint (s : State) : (motionSearch s).iint = s.iint := by delta motionSearch; with_reducible rfl
@[simp] theorem motionSearch_feat (s : State) : (motionSearch s).feat = s.feat := by delta motionSearch; with_reducible rfl
@[simp] theorem motionSearch_ovh (s : State) : (motionSearch s).ovh = s.ovh := by delta motionSearch; with_reducible rfl
@[simp] theorem motionSearch_phase (s : State) : (motionSearch s).phase = s.phase := by delta motionSearch; with_reducible rfl
@[simp] theorem motionSearch_fopen (s : State) : (motionSearch s).fopen = s.fopen := by delta motionSearch; with_reducible rfl
@[simp] theorem motionSearch_ftype (s : State) : (motionSearch s).ftype = s.ftype := by delta motionSearch; with_reducible rfl
@[simp] theorem motionSearch_stage (s : State) : (motionSearch s).stage = s.stage := by delta motionSearch; with_reducible rfl
@[simp] theorem motionSearch_mbidx (s : State) : (motionSearch s).mbidx = s.mbidx := by delta motionSearch; with_reducible rfl
@[simp] theorem motionSearch_ipos (s : State) : (motionSearch s).ipos = s.ipos := by delta motionSearch; with_reducible rfl
@[simp] theorem motionSearch_eos (s : State) : (motionSearch s).eos = s.eos := by delta motionSearch; with_reducible rfl
@[simp] theorem motionSearch_mode (s : State) : (motionSearch s).mode = s.mode := by delta motionSearch; with_reducible rfl
@[simp] theorem motionSearch_part (s : State) : (motionSearch s).part = partitioned s := by delta motionSearch; with_reducible rfl
@[simp] theorem motionSearch_mv (s : State) : (motionSearch s).mv = decidedVectors s := by delta motionSearch; with_reducible rfl
@[simp] theorem motionSearch_mbqp (s : State) : (motionSearch s).mbqp = s.mbqp := by delta motionSearch; with_reducible rfl
@[simp] theorem motionSearch_cost0 (s : State) : (motionSearch s).cost0 = tc32 (search s wholeBlock).cost := by delta motionSearch; with_reducible rfl
@[simp] theorem motionSearch_cost1 (s : State) : (motionSearch s).cost1 = tc32 (quadrantCost s) := by delta motionSearch; with_reducible rfl
@[simp] theorem motionSearch_refValid (s : State) : (motionSearch s).refValid = s.refValid := by delta motionSearch; with_reducible rfl
@[simp] theorem motionSearch_sbValid (s : State) : (motionSearch s).sbValid = s.sbValid := by delta motionSearch; with_reducible rfl
@[simp] theorem motionSearch_sat (s : State) : (motionSearch s).sat = s.sat := by delta motionSearch; with_reducible rfl
@[simp] theorem motionSearch_errCode (s : State) : (motionSearch s).errCode = s.errCode := by delta motionSearch; with_reducible rfl
@[simp] theorem motionSearch_errCmd (s : State) : (motionSearch s).errCmd = s.errCmd := by delta motionSearch; with_reducible rfl
@[simp] theorem motionSearch_mbuf (s : State) : (motionSearch s).mbuf = s.mbuf := by delta motionSearch; with_reducible rfl
@[simp] theorem motionSearch_edge (s : State) : (motionSearch s).edge = s.edge := by delta motionSearch; with_reducible rfl
@[simp] theorem motionSearch_sb (s : State) : (motionSearch s).sb = s.sb := by delta motionSearch; with_reducible rfl
@[simp] theorem motionSearch_refStore (s : State) : (motionSearch s).refStore = s.refStore := by delta motionSearch; with_reducible rfl
@[simp] theorem motionSearch_recStore (s : State) : (motionSearch s).recStore = s.recStore := by delta motionSearch; with_reducible rfl
@[simp] theorem motionSearch_fillNext (s : State) : (motionSearch s).fillNext = s.fillNext := by delta motionSearch; with_reducible rfl

/-! motionSubtract -/

@[simp] theorem motionSubtract_port (s : State) : (motionSubtract s).port = s.port := by delta motionSubtract setMbuf; with_reducible rfl
@[simp] theorem motionSubtract_src (s : State) : (motionSubtract s).src = s.src := by delta motionSubtract setMbuf; with_reducible rfl
@[simp] theorem motionSubtract_cur (s : State) : (motionSubtract s).cur = s.cur := by delta motionSubtract setMbuf; with_reducible rfl
@[simp] theorem motionSubtract_out (s : State) : (motionSubtract s).out = s.out := by delta motionSubtract setMbuf; with_reducible rfl
@[simp] theorem motionSubtract_picw (s : State) : (motionSubtract s).picw = s.picw := by delta motionSubtract setMbuf; with_reducible rfl
@[simp] theorem motionSubtract_pich (s : State) : (motionSubtract s).pich = s.pich := by delta motionSubtract setMbuf; with_reducible rfl
@[simp] theorem motionSubtract_winx (s : State) : (motionSubtract s).winx = s.winx := by delta motionSubtract setMbuf; with_reducible rfl
@[simp] theorem motionSubtract_winy (s : State) : (motionSubtract s).winy = s.winy := by delta motionSubtract setMbuf; with_reducible rfl
@[simp] theorem motionSubtract_qp (s : State) : (motionSubtract s).qp = s.qp := by delta motionSubtract setMbuf; with_reducible rfl
@[simp] theorem motionSubtract_iint (s : State) : (motionSubtract s).iint = s.iint := by delta motionSubtract setMbuf; with_reducible rfl
@[simp] theorem motionSubtract_feat (s : State) : (motionSubtract s).feat = s.feat := by delta motionSubtract setMbuf; with_reducible rfl
@[simp] theorem motionSubtract_ovh (s : State) : (motionSubtract s).ovh = s.ovh := by delta motionSubtract setMbuf; with_reducible rfl
@[simp] theorem motionSubtract_phase (s : State) : (motionSubtract s).phase = s.phase := by delta motionSubtract setMbuf; with_reducible rfl
@[simp] theorem motionSubtract_fopen (s : State) : (motionSubtract s).fopen = s.fopen := by delta motionSubtract setMbuf; with_reducible rfl
@[simp] theorem motionSubtract_ftype (s : State) : (motionSubtract s).ftype = s.ftype := by delta motionSubtract setMbuf; with_reducible rfl
@[simp] theorem motionSubtract_stage (s : State) : (motionSubtract s).stage = .resid := by delta motionSubtract setMbuf; with_reducible rfl
@[simp] theorem motionSubtract_mbidx (s : State) : (motionSubtract s).mbidx = s.mbidx := by delta motionSubtract setMbuf; with_reducible rfl
@[simp] theorem motionSubtract_ipos (s : State) : (motionSubtract s).ipos = s.ipos := by delta motionSubtract setMbuf; with_reducible rfl
@[simp] theorem motionSubtract_eos (s : State) : (motionSubtract s).eos = s.eos := by delta motionSubtract setMbuf; with_reducible rfl
@[simp] theorem motionSubtract_mode (s : State) : (motionSubtract s).mode = s.mode := by delta motionSubtract setMbuf; with_reducible rfl
@[simp] theorem motionSubtract_part (s : State) : (motionSubtract s).part = s.part := by delta motionSubtract setMbuf; with_reducible rfl
@[simp] theorem motionSubtract_mv (s : State) : (motionSubtract s).mv = s.mv := by delta motionSubtract setMbuf; with_reducible rfl
@[simp] theorem motionSubtract_mbqp (s : State) : (motionSubtract s).mbqp = s.mbqp := by delta motionSubtract setMbuf; with_reducible rfl
@[simp] theorem motionSubtract_cost0 (s : State) : (motionSubtract s).cost0 = s.cost0 := by delta motionSubtract setMbuf; with_reducible rfl
@[simp] theorem motionSubtract_cost1 (s : State) : (motionSubtract s).cost1 = s.cost1 := by delta motionSubtract setMbuf; with_reducible rfl
@[simp] theorem motionSubtract_refValid (s : State) : (motionSubtract s).refValid = s.refValid := by delta motionSubtract setMbuf; with_reducible rfl
@[simp] theorem motionSubtract_sbValid (s : State) : (motionSubtract s).sbValid = s.sbValid := by delta motionSubtract setMbuf; with_reducible rfl
@[simp] theorem motionSubtract_sat (s : State) : (motionSubtract s).sat = s.sat := by delta motionSubtract setMbuf; with_reducible rfl
@[simp] theorem motionSubtract_errCode (s : State) : (motionSubtract s).errCode = s.errCode := by delta motionSubtract setMbuf; with_reducible rfl
@[simp] theorem motionSubtract_errCmd (s : State) : (motionSubtract s).errCmd = s.errCmd := by delta motionSubtract setMbuf; with_reducible rfl
@[simp] theorem motionSubtract_mbuf (s : State) : (motionSubtract s).mbuf = Mbuf.ofFn fun p r c => tc16 (s.mbuf.val p r c - motionPrediction s p r c) := by delta motionSubtract setMbuf; with_reducible rfl
@[simp] theorem motionSubtract_edge (s : State) : (motionSubtract s).edge = s.edge := by delta motionSubtract setMbuf; with_reducible rfl
@[simp] theorem motionSubtract_sb (s : State) : (motionSubtract s).sb = s.sb := by delta motionSubtract setMbuf; with_reducible rfl
@[simp] theorem motionSubtract_refStore (s : State) : (motionSubtract s).refStore = s.refStore := by delta motionSubtract setMbuf; with_reducible rfl
@[simp] theorem motionSubtract_recStore (s : State) : (motionSubtract s).recStore = s.recStore := by delta motionSubtract setMbuf; with_reducible rfl
@[simp] theorem motionSubtract_fillNext (s : State) : (motionSubtract s).fillNext = s.fillNext := by delta motionSubtract setMbuf; with_reducible rfl

/-! motionReconstruct -/

@[simp] theorem motionReconstruct_port (s : State) : (motionReconstruct s).port = s.port := by delta motionReconstruct setMbuf; with_reducible rfl
@[simp] theorem motionReconstruct_src (s : State) : (motionReconstruct s).src = s.src := by delta motionReconstruct setMbuf; with_reducible rfl
@[simp] theorem motionReconstruct_cur (s : State) : (motionReconstruct s).cur = s.cur := by delta motionReconstruct setMbuf; with_reducible rfl
@[simp] theorem motionReconstruct_out (s : State) : (motionReconstruct s).out = s.out := by delta motionReconstruct setMbuf; with_reducible rfl
@[simp] theorem motionReconstruct_picw (s : State) : (motionReconstruct s).picw = s.picw := by delta motionReconstruct setMbuf; with_reducible rfl
@[simp] theorem motionReconstruct_pich (s : State) : (motionReconstruct s).pich = s.pich := by delta motionReconstruct setMbuf; with_reducible rfl
@[simp] theorem motionReconstruct_winx (s : State) : (motionReconstruct s).winx = s.winx := by delta motionReconstruct setMbuf; with_reducible rfl
@[simp] theorem motionReconstruct_winy (s : State) : (motionReconstruct s).winy = s.winy := by delta motionReconstruct setMbuf; with_reducible rfl
@[simp] theorem motionReconstruct_qp (s : State) : (motionReconstruct s).qp = s.qp := by delta motionReconstruct setMbuf; with_reducible rfl
@[simp] theorem motionReconstruct_iint (s : State) : (motionReconstruct s).iint = s.iint := by delta motionReconstruct setMbuf; with_reducible rfl
@[simp] theorem motionReconstruct_feat (s : State) : (motionReconstruct s).feat = s.feat := by delta motionReconstruct setMbuf; with_reducible rfl
@[simp] theorem motionReconstruct_ovh (s : State) : (motionReconstruct s).ovh = s.ovh := by delta motionReconstruct setMbuf; with_reducible rfl
@[simp] theorem motionReconstruct_phase (s : State) : (motionReconstruct s).phase = s.phase := by delta motionReconstruct setMbuf; with_reducible rfl
@[simp] theorem motionReconstruct_fopen (s : State) : (motionReconstruct s).fopen = s.fopen := by delta motionReconstruct setMbuf; with_reducible rfl
@[simp] theorem motionReconstruct_ftype (s : State) : (motionReconstruct s).ftype = s.ftype := by delta motionReconstruct setMbuf; with_reducible rfl
@[simp] theorem motionReconstruct_stage (s : State) : (motionReconstruct s).stage = s.stage := by delta motionReconstruct setMbuf; with_reducible rfl
@[simp] theorem motionReconstruct_mbidx (s : State) : (motionReconstruct s).mbidx = s.mbidx := by delta motionReconstruct setMbuf; with_reducible rfl
@[simp] theorem motionReconstruct_ipos (s : State) : (motionReconstruct s).ipos = s.ipos := by delta motionReconstruct setMbuf; with_reducible rfl
@[simp] theorem motionReconstruct_eos (s : State) : (motionReconstruct s).eos = s.eos := by delta motionReconstruct setMbuf; with_reducible rfl
@[simp] theorem motionReconstruct_mode (s : State) : (motionReconstruct s).mode = s.mode := by delta motionReconstruct setMbuf; with_reducible rfl
@[simp] theorem motionReconstruct_part (s : State) : (motionReconstruct s).part = s.part := by delta motionReconstruct setMbuf; with_reducible rfl
@[simp] theorem motionReconstruct_mv (s : State) : (motionReconstruct s).mv = s.mv := by delta motionReconstruct setMbuf; with_reducible rfl
@[simp] theorem motionReconstruct_mbqp (s : State) : (motionReconstruct s).mbqp = s.mbqp := by delta motionReconstruct setMbuf; with_reducible rfl
@[simp] theorem motionReconstruct_cost0 (s : State) : (motionReconstruct s).cost0 = s.cost0 := by delta motionReconstruct setMbuf; with_reducible rfl
@[simp] theorem motionReconstruct_cost1 (s : State) : (motionReconstruct s).cost1 = s.cost1 := by delta motionReconstruct setMbuf; with_reducible rfl
@[simp] theorem motionReconstruct_refValid (s : State) : (motionReconstruct s).refValid = s.refValid := by delta motionReconstruct setMbuf; with_reducible rfl
@[simp] theorem motionReconstruct_sbValid (s : State) : (motionReconstruct s).sbValid = s.sbValid := by delta motionReconstruct setMbuf; with_reducible rfl
@[simp] theorem motionReconstruct_sat (s : State) : (motionReconstruct s).sat = s.sat := by delta motionReconstruct setMbuf; with_reducible rfl
@[simp] theorem motionReconstruct_errCode (s : State) : (motionReconstruct s).errCode = s.errCode := by delta motionReconstruct setMbuf; with_reducible rfl
@[simp] theorem motionReconstruct_errCmd (s : State) : (motionReconstruct s).errCmd = s.errCmd := by delta motionReconstruct setMbuf; with_reducible rfl
@[simp] theorem motionReconstruct_mbuf (s : State) : (motionReconstruct s).mbuf = Mbuf.ofFn fun p r c => tc16 (clip255 (s.mbuf.val p r c + if enMc s then motionPrediction s p r c else 0)) := by delta motionReconstruct setMbuf; with_reducible rfl
@[simp] theorem motionReconstruct_edge (s : State) : (motionReconstruct s).edge = s.edge := by delta motionReconstruct setMbuf; with_reducible rfl
@[simp] theorem motionReconstruct_sb (s : State) : (motionReconstruct s).sb = s.sb := by delta motionReconstruct setMbuf; with_reducible rfl
@[simp] theorem motionReconstruct_refStore (s : State) : (motionReconstruct s).refStore = s.refStore := by delta motionReconstruct setMbuf; with_reducible rfl
@[simp] theorem motionReconstruct_recStore (s : State) : (motionReconstruct s).recStore = s.recStore := by delta motionReconstruct setMbuf; with_reducible rfl
@[simp] theorem motionReconstruct_fillNext (s : State) : (motionReconstruct s).fillNext = s.fillNext := by delta motionReconstruct setMbuf; with_reducible rfl

/-! intraPredict -/

@[simp] theorem intraPredict_port (s : State) : (intraPredict s).port = s.port := by delta intraPredict setMbuf; with_reducible rfl
@[simp] theorem intraPredict_src (s : State) : (intraPredict s).src = s.src := by delta intraPredict setMbuf; with_reducible rfl
@[simp] theorem intraPredict_cur (s : State) : (intraPredict s).cur = s.cur := by delta intraPredict setMbuf; with_reducible rfl
@[simp] theorem intraPredict_out (s : State) : (intraPredict s).out = s.out := by delta intraPredict setMbuf; with_reducible rfl
@[simp] theorem intraPredict_picw (s : State) : (intraPredict s).picw = s.picw := by delta intraPredict setMbuf; with_reducible rfl
@[simp] theorem intraPredict_pich (s : State) : (intraPredict s).pich = s.pich := by delta intraPredict setMbuf; with_reducible rfl
@[simp] theorem intraPredict_winx (s : State) : (intraPredict s).winx = s.winx := by delta intraPredict setMbuf; with_reducible rfl
@[simp] theorem intraPredict_winy (s : State) : (intraPredict s).winy = s.winy := by delta intraPredict setMbuf; with_reducible rfl
@[simp] theorem intraPredict_qp (s : State) : (intraPredict s).qp = s.qp := by delta intraPredict setMbuf; with_reducible rfl
@[simp] theorem intraPredict_iint (s : State) : (intraPredict s).iint = s.iint := by delta intraPredict setMbuf; with_reducible rfl
@[simp] theorem intraPredict_feat (s : State) : (intraPredict s).feat = s.feat := by delta intraPredict setMbuf; with_reducible rfl
@[simp] theorem intraPredict_ovh (s : State) : (intraPredict s).ovh = s.ovh := by delta intraPredict setMbuf; with_reducible rfl
@[simp] theorem intraPredict_phase (s : State) : (intraPredict s).phase = s.phase := by delta intraPredict setMbuf; with_reducible rfl
@[simp] theorem intraPredict_fopen (s : State) : (intraPredict s).fopen = s.fopen := by delta intraPredict setMbuf; with_reducible rfl
@[simp] theorem intraPredict_ftype (s : State) : (intraPredict s).ftype = s.ftype := by delta intraPredict setMbuf; with_reducible rfl
@[simp] theorem intraPredict_stage (s : State) : (intraPredict s).stage = .resid := by delta intraPredict setMbuf; with_reducible rfl
@[simp] theorem intraPredict_mbidx (s : State) : (intraPredict s).mbidx = s.mbidx := by delta intraPredict setMbuf; with_reducible rfl
@[simp] theorem intraPredict_ipos (s : State) : (intraPredict s).ipos = s.ipos := by delta intraPredict setMbuf; with_reducible rfl
@[simp] theorem intraPredict_eos (s : State) : (intraPredict s).eos = s.eos := by delta intraPredict setMbuf; with_reducible rfl
@[simp] theorem intraPredict_mode (s : State) : (intraPredict s).mode = selectMode (intraSse s.mbuf (gatherEdge s)) := by delta intraPredict setMbuf; with_reducible rfl
@[simp] theorem intraPredict_part (s : State) : (intraPredict s).part = s.part := by delta intraPredict setMbuf; with_reducible rfl
@[simp] theorem intraPredict_mv (s : State) : (intraPredict s).mv = s.mv := by delta intraPredict setMbuf; with_reducible rfl
@[simp] theorem intraPredict_mbqp (s : State) : (intraPredict s).mbqp = s.mbqp := by delta intraPredict setMbuf; with_reducible rfl
@[simp] theorem intraPredict_cost0 (s : State) : (intraPredict s).cost0 = s.cost0 := by delta intraPredict setMbuf; with_reducible rfl
@[simp] theorem intraPredict_cost1 (s : State) : (intraPredict s).cost1 = s.cost1 := by delta intraPredict setMbuf; with_reducible rfl
@[simp] theorem intraPredict_refValid (s : State) : (intraPredict s).refValid = s.refValid := by delta intraPredict setMbuf; with_reducible rfl
@[simp] theorem intraPredict_sbValid (s : State) : (intraPredict s).sbValid = s.sbValid := by delta intraPredict setMbuf; with_reducible rfl
@[simp] theorem intraPredict_sat (s : State) : (intraPredict s).sat = s.sat := by delta intraPredict setMbuf; with_reducible rfl
@[simp] theorem intraPredict_errCode (s : State) : (intraPredict s).errCode = s.errCode := by delta intraPredict setMbuf; with_reducible rfl
@[simp] theorem intraPredict_errCmd (s : State) : (intraPredict s).errCmd = s.errCmd := by delta intraPredict setMbuf; with_reducible rfl
@[simp] theorem intraPredict_mbuf (s : State) : (intraPredict s).mbuf = Mbuf.ofFn fun p r c => tc16 (s.mbuf.val p r c - candidate (gatherEdge s) p (selectMode (intraSse s.mbuf (gatherEdge s))) r c) := by delta intraPredict setMbuf; with_reducible rfl
@[simp] theorem intraPredict_edge (s : State) : (intraPredict s).edge = gatherEdge s := by delta intraPredict setMbuf; with_reducible rfl
@[simp] theorem intraPredict_sb (s : State) : (intraPredict s).sb = s.sb := by delta intraPredict setMbuf; with_reducible rfl
@[simp] theorem intraPredict_refStore (s : State) : (intraPredict s).refStore = s.refStore := by delta intraPredict setMbuf; with_reducible rfl
@[simp] theorem intraPredict_recStore (s : State) : (intraPredict s).recStore = s.recStore := by delta intraPredict setMbuf; with_reducible rfl
@[simp] theorem intraPredict_fillNext (s : State) : (intraPredict s).fillNext = s.fillNext := by delta intraPredict setMbuf; with_reducible rfl

/-! intraReconstruct -/

@[simp] theorem intraReconstruct_port (s : State) : (intraReconstruct s).port = s.port := by delta intraReconstruct setMbuf; with_reducible rfl
@[simp] theorem intraReconstruct_src (s : State) : (intraReconstruct s).src = s.src := by delta intraReconstruct setMbuf; with_reducible rfl
@[simp] theorem intraReconstruct_cur (s : State) : (intraReconstruct s).cur = s.cur := by delta intraReconstruct setMbuf; with_reducible rfl
@[simp] theorem intraReconstruct_out (s : State) : (intraReconstruct s).out = s.out := by delta intraReconstruct setMbuf; with_reducible rfl
@[simp] theorem intraReconstruct_picw (s : State) : (intraReconstruct s).picw = s.picw := by delta intraReconstruct setMbuf; with_reducible rfl
@[simp] theorem intraReconstruct_pich (s : State) : (intraReconstruct s).pich = s.pich := by delta intraReconstruct setMbuf; with_reducible rfl
@[simp] theorem intraReconstruct_winx (s : State) : (intraReconstruct s).winx = s.winx := by delta intraReconstruct setMbuf; with_reducible rfl
@[simp] theorem intraReconstruct_winy (s : State) : (intraReconstruct s).winy = s.winy := by delta intraReconstruct setMbuf; with_reducible rfl
@[simp] theorem intraReconstruct_qp (s : State) : (intraReconstruct s).qp = s.qp := by delta intraReconstruct setMbuf; with_reducible rfl
@[simp] theorem intraReconstruct_iint (s : State) : (intraReconstruct s).iint = s.iint := by delta intraReconstruct setMbuf; with_reducible rfl
@[simp] theorem intraReconstruct_feat (s : State) : (intraReconstruct s).feat = s.feat := by delta intraReconstruct setMbuf; with_reducible rfl
@[simp] theorem intraReconstruct_ovh (s : State) : (intraReconstruct s).ovh = s.ovh := by delta intraReconstruct setMbuf; with_reducible rfl
@[simp] theorem intraReconstruct_phase (s : State) : (intraReconstruct s).phase = s.phase := by delta intraReconstruct setMbuf; with_reducible rfl
@[simp] theorem intraReconstruct_fopen (s : State) : (intraReconstruct s).fopen = s.fopen := by delta intraReconstruct setMbuf; with_reducible rfl
@[simp] theorem intraReconstruct_ftype (s : State) : (intraReconstruct s).ftype = s.ftype := by delta intraReconstruct setMbuf; with_reducible rfl
@[simp] theorem intraReconstruct_stage (s : State) : (intraReconstruct s).stage = s.stage := by delta intraReconstruct setMbuf; with_reducible rfl
@[simp] theorem intraReconstruct_mbidx (s : State) : (intraReconstruct s).mbidx = s.mbidx := by delta intraReconstruct setMbuf; with_reducible rfl
@[simp] theorem intraReconstruct_ipos (s : State) : (intraReconstruct s).ipos = s.ipos := by delta intraReconstruct setMbuf; with_reducible rfl
@[simp] theorem intraReconstruct_eos (s : State) : (intraReconstruct s).eos = s.eos := by delta intraReconstruct setMbuf; with_reducible rfl
@[simp] theorem intraReconstruct_mode (s : State) : (intraReconstruct s).mode = s.mode := by delta intraReconstruct setMbuf; with_reducible rfl
@[simp] theorem intraReconstruct_part (s : State) : (intraReconstruct s).part = s.part := by delta intraReconstruct setMbuf; with_reducible rfl
@[simp] theorem intraReconstruct_mv (s : State) : (intraReconstruct s).mv = s.mv := by delta intraReconstruct setMbuf; with_reducible rfl
@[simp] theorem intraReconstruct_mbqp (s : State) : (intraReconstruct s).mbqp = s.mbqp := by delta intraReconstruct setMbuf; with_reducible rfl
@[simp] theorem intraReconstruct_cost0 (s : State) : (intraReconstruct s).cost0 = s.cost0 := by delta intraReconstruct setMbuf; with_reducible rfl
@[simp] theorem intraReconstruct_cost1 (s : State) : (intraReconstruct s).cost1 = s.cost1 := by delta intraReconstruct setMbuf; with_reducible rfl
@[simp] theorem intraReconstruct_refValid (s : State) : (intraReconstruct s).refValid = s.refValid := by delta intraReconstruct setMbuf; with_reducible rfl
@[simp] theorem intraReconstruct_sbValid (s : State) : (intraReconstruct s).sbValid = s.sbValid := by delta intraReconstruct setMbuf; with_reducible rfl
@[simp] theorem intraReconstruct_sat (s : State) : (intraReconstruct s).sat = s.sat := by delta intraReconstruct setMbuf; with_reducible rfl
@[simp] theorem intraReconstruct_errCode (s : State) : (intraReconstruct s).errCode = s.errCode := by delta intraReconstruct setMbuf; with_reducible rfl
@[simp] theorem intraReconstruct_errCmd (s : State) : (intraReconstruct s).errCmd = s.errCmd := by delta intraReconstruct setMbuf; with_reducible rfl
@[simp] theorem intraReconstruct_mbuf (s : State) : (intraReconstruct s).mbuf = Mbuf.ofFn fun p r c => tc16 (clip255 (s.mbuf.val p r c + if enIntra s then candidate s.edge p s.mode r c else 0)) := by delta intraReconstruct setMbuf; with_reducible rfl
@[simp] theorem intraReconstruct_edge (s : State) : (intraReconstruct s).edge = s.edge := by delta intraReconstruct setMbuf; with_reducible rfl
@[simp] theorem intraReconstruct_sb (s : State) : (intraReconstruct s).sb = s.sb := by delta intraReconstruct setMbuf; with_reducible rfl
@[simp] theorem intraReconstruct_refStore (s : State) : (intraReconstruct s).refStore = s.refStore := by delta intraReconstruct setMbuf; with_reducible rfl
@[simp] theorem intraReconstruct_recStore (s : State) : (intraReconstruct s).recStore = s.recStore := by delta intraReconstruct setMbuf; with_reducible rfl
@[simp] theorem intraReconstruct_fillNext (s : State) : (intraReconstruct s).fillNext = s.fillNext := by delta intraReconstruct setMbuf; with_reducible rfl

/-! resetEngine -/

@[simp] theorem resetEngine_port (s : State) : (resetEngine s).port = s.port := by delta resetEngine; with_reducible rfl
@[simp] theorem resetEngine_src (s : State) : (resetEngine s).src = s.src := by delta resetEngine; with_reducible rfl
@[simp] theorem resetEngine_cur (s : State) : (resetEngine s).cur = s.cur := by delta resetEngine; with_reducible rfl
@[simp] theorem resetEngine_out (s : State) : (resetEngine s).out = s.out := by delta resetEngine; with_reducible rfl
@[simp] theorem resetEngine_picw (s : State) : (resetEngine s).picw = 0 := by delta resetEngine State.reset; with_reducible rfl
@[simp] theorem resetEngine_pich (s : State) : (resetEngine s).pich = 0 := by delta resetEngine State.reset; with_reducible rfl
@[simp] theorem resetEngine_winx (s : State) : (resetEngine s).winx = 0 := by delta resetEngine State.reset; with_reducible rfl
@[simp] theorem resetEngine_winy (s : State) : (resetEngine s).winy = 0 := by delta resetEngine State.reset; with_reducible rfl
@[simp] theorem resetEngine_qp (s : State) : (resetEngine s).qp = 0 := by delta resetEngine State.reset; with_reducible rfl
@[simp] theorem resetEngine_iint (s : State) : (resetEngine s).iint = 0 := by delta resetEngine State.reset; with_reducible rfl
@[simp] theorem resetEngine_feat (s : State) : (resetEngine s).feat = 0 := by delta resetEngine State.reset; with_reducible rfl
@[simp] theorem resetEngine_ovh (s : State) : (resetEngine s).ovh = 0 := by delta resetEngine State.reset; with_reducible rfl
@[simp] theorem resetEngine_phase (s : State) : (resetEngine s).phase = .config := by delta resetEngine State.reset; with_reducible rfl
@[simp] theorem resetEngine_fopen (s : State) : (resetEngine s).fopen = false := by delta resetEngine State.reset; with_reducible rfl
@[simp] theorem resetEngine_ftype (s : State) : (resetEngine s).ftype = .intra := by delta resetEngine State.reset; with_reducible rfl
@[simp] theorem resetEngine_stage (s : State) : (resetEngine s).stage = .empty := by delta resetEngine State.reset; with_reducible rfl
@[simp] theorem resetEngine_mbidx (s : State) : (resetEngine s).mbidx = 0 := by delta resetEngine State.reset; with_reducible rfl
@[simp] theorem resetEngine_ipos (s : State) : (resetEngine s).ipos = 0 := by delta resetEngine State.reset; with_reducible rfl
@[simp] theorem resetEngine_eos (s : State) : (resetEngine s).eos = false := by delta resetEngine State.reset; with_reducible rfl
@[simp] theorem resetEngine_mode (s : State) : (resetEngine s).mode = .dc := by delta resetEngine State.reset; with_reducible rfl
@[simp] theorem resetEngine_part (s : State) : (resetEngine s).part = false := by delta resetEngine State.reset; with_reducible rfl
@[simp] theorem resetEngine_mv (s : State) : (resetEngine s).mv = Vector.replicate 4 ⟨0, 0⟩ := by delta resetEngine State.reset; with_reducible rfl
@[simp] theorem resetEngine_mbqp (s : State) : (resetEngine s).mbqp = 0 := by delta resetEngine State.reset; with_reducible rfl
@[simp] theorem resetEngine_cost0 (s : State) : (resetEngine s).cost0 = 0 := by delta resetEngine State.reset; with_reducible rfl
@[simp] theorem resetEngine_cost1 (s : State) : (resetEngine s).cost1 = 0 := by delta resetEngine State.reset; with_reducible rfl
@[simp] theorem resetEngine_refValid (s : State) : (resetEngine s).refValid = false := by delta resetEngine State.reset; with_reducible rfl
@[simp] theorem resetEngine_sbValid (s : State) : (resetEngine s).sbValid = false := by delta resetEngine State.reset; with_reducible rfl
@[simp] theorem resetEngine_sat (s : State) : (resetEngine s).sat = false := by delta resetEngine State.reset; with_reducible rfl
@[simp] theorem resetEngine_errCode (s : State) : (resetEngine s).errCode = .ok := by delta resetEngine State.reset; with_reducible rfl
@[simp] theorem resetEngine_errCmd (s : State) : (resetEngine s).errCmd = 0 := by delta resetEngine State.reset; with_reducible rfl
@[simp] theorem resetEngine_mbuf (s : State) : (resetEngine s).mbuf = unspecifiedMbuf s.fillNext := by delta resetEngine; with_reducible rfl
@[simp] theorem resetEngine_edge (s : State) : (resetEngine s).edge = unspecifiedEdge s.fillNext := by delta resetEngine; with_reducible rfl
@[simp] theorem resetEngine_sb (s : State) : (resetEngine s).sb = Store.unspecified s.fillNext := by delta resetEngine; with_reducible rfl
@[simp] theorem resetEngine_refStore (s : State) : (resetEngine s).refStore = Store.unspecified (s.fillNext + 1) := by delta resetEngine; with_reducible rfl
@[simp] theorem resetEngine_recStore (s : State) : (resetEngine s).recStore = Store.unspecified (s.fillNext + 2) := by delta resetEngine; with_reducible rfl
@[simp] theorem resetEngine_fillNext (s : State) : (resetEngine s).fillNext = s.fillNext + 3 := by delta resetEngine; with_reducible rfl

/-! engineCur -/

theorem engineCur_open {s : State} (h : s.fopen = true) : engineCur s = s.cur := by simp [engineCur, h]
theorem engineCur_closed {s : State} (h : s.fopen = false) : engineCur s = none := by simp [engineCur, h]
@[simp] theorem engineCur_openFrame (pic : Picture) (rest : List Picture) (s : State) :
    engineCur (openFrame pic rest s) = some pic := engineCur_open rfl
@[simp] theorem engineCur_resetEngine (s : State) : engineCur (resetEngine s) = none := engineCur_closed rfl

end Sys2Proof.Machine
end

