-- ==== Sys2Proof/Laws/Exec.lean ====
section
/-! SUPPORT. Inversion of `exec`: everything a command other than RESET can do when it gives a next state. In HALT
nothing; else a fault of the command's own word; else its effect, with all its checks known to hold. -/

namespace Sys2Proof.Machine

/-- A command whose checks all held takes `s` to `t` (the rows of 45_sequencer.md R200). -/
def Effect (i : Instr) (s t : State) : Prop :=
  match i with
  | .nop => t = s
  | .setDim picw pich => s.phase = .config ∧ t = { s with picw := BitVec.ofNat 8 picw, pich := BitVec.ofNat 8 pich }
  | .setWin winx winy => s.phase = .config ∧ t = { s with winx := BitVec.ofNat 8 winx, winy := BitVec.ofNat 8 winy }
  | .setQp qp => s.phase = .config ∧ t = { s with qp := BitVec.ofNat 8 qp }
  | .setIint iint => s.phase = .config ∧ t = { s with iint := BitVec.ofNat 16 iint }
  | .setFeat feat => s.phase = .config ∧ t = { s with feat := BitVec.ofNat 4 feat }
  | .setOvh ovh => s.phase = .config ∧ t = { s with ovh := BitVec.ofNat 24 ovh }
  | .start => s.phase = .config ∧
      ((2 ≤ s.qp.toNat ∧ s.qp.toNat ≤ 52) ∧ (1 ≤ s.picw.toNat ∧ 1 ≤ s.pich.toNat) ∧
        (s.winx.toNat ≤ 16 ∧ s.winy.toNat ≤ 16) ∧ 1 ≤ s.iint.toNat) ∧
      t = { s with
        phase := .run, ipos := 0, refValid := false, refStore := Store.unspecified s.fillNext,
        recStore := Store.unspecified (s.fillNext + 1), fillNext := s.fillNext + 2 }
  | .beginFrame => (s.phase = .run ∧ s.fopen = false) ∧
      ((s.src = [] ∧ t = { s with eos := true }) ∨
        ∃ pic rest, s.src = pic :: rest ∧ pic.shaped s = true ∧ t = openFrame pic rest s)
  | .loadMb => (s.phase = .run ∧ s.fopen = true) ∧ (s.stage = .empty ∨ s.stage = .recon) ∧ s.mbidx.toNat < nmb s ∧
      ∃ pic, s.cur = some pic ∧ pic.shaped s = true ∧ t = loadMacroblock pic s
  | .emit => (s.phase = .run ∧ s.fopen = true) ∧ s.stage = .quant ∧
      t = { s with out := s.out ++ (metadataWords s ++ coefficientWords s.mbuf), stage := .sent }
  | .install => (s.phase = .run ∧ s.fopen = true) ∧ s.mbidx.toNat = nmb s ∧
      t = { s with
        refStore := s.recStore, recStore := Store.unspecified s.fillNext, fillNext := s.fillNext + 1, refValid := true,
        fopen := false, cur := none, ipos := BitVec.ofNat 16 (floorMod (s.ipos.toNat + 1) s.iint.toNat),
        stage := .empty, sbValid := false }
  | .intraPred => (s.phase = .run ∧ s.fopen = true) ∧ s.ftype = .intra ∧ s.stage = .raw ∧
      ((enIntra s = true ∧ s.mbidx.toNat < nmb s ∧ t = intraPredict s) ∨
        (enIntra s = false ∧ t = { s with mode := .dc, stage := .resid }))
  | .intraRecon => (s.phase = .run ∧ s.fopen = true) ∧ s.ftype = .intra ∧ s.stage = .ires ∧ s.mbidx.toNat < nmb s ∧
      t = finishMacroblock (intraReconstruct s)
  | .mcPred => (s.phase = .run ∧ s.fopen = true) ∧ s.ftype = .predicted ∧ s.stage = .raw ∧
      ((enMc s = true ∧ s.mbidx.toNat < nmb s ∧
          t = motionSubtract (motionSearch { s with sb := gatherSb s, sbValid := true })) ∨
        (enMc s = false ∧ t = { s with
          mv := Vector.replicate 4 ⟨0, 0⟩, part := false, cost0 := 0, cost1 := 0, stage := .resid }))
  | .mcRecon => (s.phase = .run ∧ s.fopen = true) ∧ s.ftype = .predicted ∧ s.stage = .ires ∧ s.mbidx.toNat < nmb s ∧
      (enMc s = true → vectorsReach s = true) ∧ t = finishMacroblock (motionReconstruct s)
  | .fdct => (s.phase = .run ∧ s.fopen = true) ∧ s.stage = .resid ∧
      t = { setMbufSat (forwardWord s) s with stage := .xform }
  | .idct => (s.phase = .run ∧ s.fopen = true) ∧ s.stage = .deq ∧
      t = { setMbufSat (inverseWord s) s with stage := .ires }
  | .quant => (s.phase = .run ∧ s.fopen = true) ∧ s.stage = .xform ∧
      t = { (if enQ s then setMbuf (fun p r c => quantLevel (s.mbuf.val p r c) s.qp.toNat) s else s) with
        mbqp := s.qp, stage := .quant }
  | .dequant => (s.phase = .run ∧ s.fopen = true) ∧ s.stage = .sent ∧
      t = { (if enQ s then setMbufSat (fun p r c => dequantWord (s.mbuf.val p r c) s.mbqp.toNat) s else s) with
        stage := .deq }
  | .reset => t = resetEngine s

/-- A command over the shared operation `command`: from its next state, which of the three happened. -/
theorem exec_next_of {i : Instr} {checks : List (Bool × ErrCode)} {effect : State → Result} {s t : State}
    (hi : exec i s = command (encode i) checks effect s) (hr : i ≠ .reset) (hok : ∀ c ∈ checks, c.2 ≠ .ok)
    (hE : (∀ c ∈ checks, c.1 = true) → effect s = .next t → Effect i s t) (h : exec i s = .next t) :
    (s.phase = .halt ∧ i ≠ .reset ∧ t = s) ∨
    (s.phase ≠ .halt ∧ ∃ code, code ≠ .ok ∧ t = raiseFault code (encode i) s) ∨ (s.phase ≠ .halt ∧ Effect i s t) ∨
    i = .reset := by
  rw [hi] at h
  rcases command_cases (encode i) checks effect s with ⟨hp, he⟩ | ⟨hp, code, hc, he⟩ | ⟨hp, hc, he⟩ <;> rw [he] at h
  · left; cases h; exact ⟨hp, hr, rfl⟩
  · right; left
    cases h
    obtain ⟨b, r, rfl, -⟩ := firstFailed_eq_some hc
    exact ⟨hp, code, hok (false, code) (by simp), rfl⟩
  · exact .inr (.inr (.inl ⟨hp, hE (firstFailed_eq_none.mp hc) h⟩))

/-- The checks of START, said as the configuration they accept (R208). -/
theorem configChecks_pass {s : State} (h : ∀ c ∈ configChecks s, c.1 = true) :
    (2 ≤ s.qp.toNat ∧ s.qp.toNat ≤ 52) ∧ (1 ≤ s.picw.toNat ∧ 1 ≤ s.pich.toNat) ∧
      (s.winx.toNat ≤ 16 ∧ s.winy.toNat ≤ 16) ∧ 1 ≤ s.iint.toNat := by
  simp only [configChecks, List.forall_mem_cons, decide_eq_true_eq, qpMin, qpMax, winMax] at h
  exact ⟨of_decide_eq_true h.1, h.2.1, of_decide_eq_true h.2.2.1, h.2.2.2.1⟩

/-- Everything `exec` can do when it gives a next state: nothing, in HALT; a fault of the command's own word; its effect.
RESET has its effect in every phase. -/
theorem exec_next {i : Instr} {s t : State} (h : exec i s = .next t) :
    (s.phase = .halt ∧ i ≠ .reset ∧ t = s) ∨
    (s.phase ≠ .halt ∧ ∃ code, code ≠ .ok ∧ t = raiseFault code (encode i) s) ∨ (s.phase ≠ .halt ∧ Effect i s t) ∨
    (i = .reset ∧ t = resetEngine s) := by
  by_cases hi : i = .reset
  · subst hi; cases h; exact .inr (.inr (.inr ⟨rfl, rfl⟩))
  suffices hs : (s.phase = .halt ∧ i ≠ .reset ∧ t = s) ∨
      (s.phase ≠ .halt ∧ ∃ code, code ≠ .ok ∧ t = raiseFault code (encode i) s) ∨ (s.phase ≠ .halt ∧ Effect i s t) ∨
      i = .reset by
    rcases hs with hs | hs | hs | hs
    · exact .inl hs
    · exact .inr (.inl hs)
    · exact .inr (.inr (.inl hs))
    · exact absurd hs hi
  cases i with
  | reset => exact absurd rfl hi
  | nop =>
    refine exec_next_of (by delta exec execNop; rfl) hi (by simp) (fun hc he => ?_) h
    cases he; rfl
  | setDim a b =>
    refine exec_next_of (by delta exec execSetDim; rfl) hi (by simp [inConfig]) (fun hc he => ?_) h
    cases he; exact ⟨by simpa [inConfig] using hc, rfl⟩
  | setWin a b =>
    refine exec_next_of (by delta exec execSetWin; rfl) hi (by simp [inConfig]) (fun hc he => ?_) h
    cases he; exact ⟨by simpa [inConfig] using hc, rfl⟩
  | setQp a =>
    refine exec_next_of (by delta exec execSetQp; rfl) hi (by simp [inConfig]) (fun hc he => ?_) h
    cases he; exact ⟨by simpa [inConfig] using hc, rfl⟩
  | setIint a =>
    refine exec_next_of (by delta exec execSetIint; rfl) hi (by simp [inConfig]) (fun hc he => ?_) h
    cases he; exact ⟨by simpa [inConfig] using hc, rfl⟩
  | setFeat a =>
    refine exec_next_of (by delta exec execSetFeat; rfl) hi (by simp [inConfig]) (fun hc he => ?_) h
    cases he; exact ⟨by simpa [inConfig] using hc, rfl⟩
  | setOvh a =>
    refine exec_next_of (by delta exec execSetOvh; rfl) hi (by simp [inConfig]) (fun hc he => ?_) h
    cases he; exact ⟨by simpa [inConfig] using hc, rfl⟩
  | start =>
    refine exec_next_of (by delta exec execStart; rfl) hi (by simp [inConfig, configChecks]) (fun hc he => ?_) h
    cases he
    exact ⟨by simpa [inConfig] using hc _ List.mem_cons_self,
      configChecks_pass fun c hm => hc c (List.mem_cons_of_mem _ hm), rfl⟩
  | beginFrame =>
    refine exec_next_of (by delta exec execBeginFrame; rfl) hi (by simp [frameClosed]) (fun hc he => ?_) h
    refine ⟨by simpa [frameClosed] using hc, ?_⟩
    split at he
    · next hs => cases he; exact .inl ⟨hs, rfl⟩
    · next pic rest hs =>
      split at he
      · next hsh => cases he; exact .inr ⟨pic, rest, hs, hsh, rfl⟩
      · cases he
  | loadMb =>
    refine exec_next_of (by delta exec execLoadMb; rfl) hi (by simp [frameOpen]) (fun hc he => ?_) h
    simp [frameOpen, mbInPicture] at hc
    refine ⟨hc.1, hc.2.1, hc.2.2, ?_⟩
    rw [engineCur_open hc.1.2] at he
    split at he
    · next pic hcur =>
      split at he
      · next hsh => cases he; exact ⟨pic, hcur, hsh, rfl⟩
      · cases he
    · cases he
  | emit =>
    refine exec_next_of (by delta exec execEmit; rfl) hi (by simp [frameOpen, stageIs]) (fun hc he => ?_) h
    simp [frameOpen, stageIs] at hc
    cases he; exact ⟨hc.1, hc.2, rfl⟩
  | install =>
    refine exec_next_of (by delta exec execInstall; rfl) hi (by simp [frameOpen]) (fun hc he => ?_) h
    simp [frameOpen] at hc
    cases he; exact ⟨hc.1, hc.2, rfl⟩
  | intraPred =>
    refine exec_next_of (by delta exec execIntraPred; rfl) hi (by simp [frameOpen, ftypeIs, stageIs]) (fun hc he => ?_) h
    simp [frameOpen, ftypeIs, stageIs] at hc
    refine ⟨hc.1, hc.2.1, hc.2.2, ?_⟩
    split at he
    · next hen =>
      split at he
      · next hm => cases he; exact .inl ⟨hen, by simpa [mbInPicture] using hm, rfl⟩
      · cases he
    · next hen => cases he; exact .inr ⟨by simpa using hen, rfl⟩
  | intraRecon =>
    refine exec_next_of (by delta exec execIntraRecon; rfl) hi (by simp [frameOpen, ftypeIs, stageIs]) (fun hc he => ?_) h
    simp [frameOpen, ftypeIs, stageIs] at hc
    split at he
    · next hm => cases he; exact ⟨hc.1, hc.2.1, hc.2.2, by simpa [mbInPicture] using hm, rfl⟩
    · cases he
  | mcPred =>
    refine exec_next_of (by delta exec execMcPred; rfl) hi (by simp [frameOpen, ftypeIs, stageIs]) (fun hc he => ?_) h
    simp [frameOpen, ftypeIs, stageIs] at hc
    refine ⟨hc.1, hc.2.1, hc.2.2, ?_⟩
    split at he
    · next hen =>
      split at he
      · next hm => cases he; exact .inl ⟨hen, by simpa [mbInPicture] using hm, rfl⟩
      · cases he
    · next hen => cases he; exact .inr ⟨by simpa using hen, rfl⟩
  | mcRecon =>
    refine exec_next_of (by delta exec execMcRecon; rfl) hi (by simp [frameOpen, ftypeIs, stageIs]) (fun hc he => ?_) h
    simp [frameOpen, ftypeIs, stageIs] at hc
    split at he
    · next hm =>
      split at he
      · cases he
      · next hv =>
        cases he
        refine ⟨hc.1, hc.2.1, hc.2.2, by simpa [mbInPicture] using hm, fun hen => ?_, rfl⟩
        simpa [hen] using hv
    · cases he
  | fdct =>
    refine exec_next_of (by delta exec execFdct; rfl) hi (by simp [frameOpen, stageIs]) (fun hc he => ?_) h
    simp [frameOpen, stageIs] at hc
    cases he; exact ⟨hc.1, hc.2, rfl⟩
  | idct =>
    refine exec_next_of (by delta exec execIdct; rfl) hi (by simp [frameOpen, stageIs]) (fun hc he => ?_) h
    simp [frameOpen, stageIs] at hc
    cases he; exact ⟨hc.1, hc.2, rfl⟩
  | quant =>
    refine exec_next_of (by delta exec execQuant; rfl) hi (by simp [frameOpen, stageIs]) (fun hc he => ?_) h
    simp [frameOpen, stageIs] at hc
    cases he; exact ⟨hc.1, hc.2, rfl⟩
  | dequant =>
    refine exec_next_of (by delta exec execDequant; rfl) hi (by simp [frameOpen, stageIs]) (fun hc he => ?_) h
    simp [frameOpen, stageIs] at hc
    cases he; exact ⟨hc.1, hc.2, rfl⟩

/-! The frame source's picture between frames -/

/-- A command that needs an open frame answers alike, whatever picture the frame source holds, while none is open. -/
theorem command_closed_cur {w : Word} {checks checks' : List (Bool × ErrCode)} {effect effect' : State → Result}
    {s t : State} (hf : s.fopen = false) (c : Option Picture) (h : command w (frameOpen s :: checks) effect s = .next t) :
    command w (frameOpen { s with cur := c } :: checks') effect' { s with cur := c } = .next { t with cur := c } ∧
      t.fopen = false := by
  simp only [command, frameOpen, hf, Bool.and_false, firstFailed_cons] at h ⊢
  split at h <;> (cases h; simp_all [raiseFault])

/-- While no frame is open, no command can tell which picture the frame source holds: the next states differ in it alone,
and in nothing once a frame is open again. So no run tells a reset that keeps CUR from one that drops it (log 10). -/
theorem exec_closed_cur {i : Instr} {s t : State} (hf : s.fopen = false) (c : Option Picture)
    (h : exec i s = .next t) :
    ∃ d, exec i { s with cur := c } = .next { t with cur := d } ∧ (t.fopen = true → t.cur = d) := by
  suffices hs : (exec i { s with cur := c } = .next { t with cur := c } ∧ t.fopen = false) ∨
      exec i { s with cur := c } = .next t by
    rcases hs with ⟨h', hc⟩ | h'
    · exact ⟨c, h', by simp [hc]⟩
    · exact ⟨t.cur, h', fun _ => rfl⟩
  cases i with
  | reset => cases h; exact .inl ⟨rfl, rfl⟩
  | beginFrame =>
    simp only [exec, execBeginFrame, command, frameClosed, hf] at h ⊢
    split at h
    · cases h; exact .inl (by simp_all)
    · split at h
      · cases h; exact .inl (by simp_all [raiseFault])
      · split at h
        · cases h; exact .inl (by simp_all)
        · split at h
          · cases h; exact .inr (by simp_all [Picture.shaped, lh, lw, ch, cw, openFrame, frameHeader])
          · cases h
  | nop | setDim _ _ | setWin _ _ | setQp _ | setIint _ | setFeat _ | setOvh _ | start =>
    left
    simp only [exec, execNop, execSetDim, execSetWin, execSetQp, execSetIint, execSetFeat, execSetOvh, execStart,
      command, inConfig, configChecks] at h ⊢
    repeat' (split at h <;> try (cases h; simp_all [raiseFault]))
  | loadMb | emit | install | intraPred | intraRecon | mcPred | mcRecon | fdct | idct | quant | dequant =>
    left
    simp only [exec, execLoadMb, execEmit, execInstall, execIntraPred, execIntraRecon, execMcPred, execMcRecon,
      execFdct, execIdct, execQuant, execDequant] at h ⊢
    exact command_closed_cur hf c h

end Sys2Proof.Machine
end

