-- ==== Sys2Proof/Laws/Frame.lean ====
section
/-! SUPPORT. The frame of each named update in one equation: the fields it may change, every other field being the old
state's. -/

namespace Sys2Proof.Machine

theorem raiseFault_frame (code : ErrCode) (w : Word) (s : State) :
    raiseFault code w s = { s with errCode := code, errCmd := w, phase := .halt } := by
  delta raiseFault; with_reducible rfl

theorem setMbuf_frame (f : Plane → Nat → Nat → Int) (s : State) :
    setMbuf f s = { s with mbuf := (setMbuf f s).mbuf } := by
  delta setMbuf; with_reducible rfl

theorem setMbufSat_frame (f : Plane → Nat → Nat → Int) (s : State) :
    setMbufSat f s = { s with mbuf := (setMbufSat f s).mbuf, sat := (setMbufSat f s).sat } := by
  delta setMbufSat setMbuf; with_reducible rfl

theorem finishMacroblock_frame (s : State) :
    finishMacroblock s = { s with
      recStore := (finishMacroblock s).recStore, stage := .recon, mbidx := s.mbidx + 1 } := by
  delta finishMacroblock; with_reducible rfl

theorem intraPredict_frame (s : State) :
    intraPredict s = { s with
      mbuf := (intraPredict s).mbuf, edge := (intraPredict s).edge, mode := (intraPredict s).mode, stage := .resid } := by
  delta intraPredict setMbuf; with_reducible rfl

theorem intraReconstruct_frame (s : State) :
    intraReconstruct s = { s with mbuf := (intraReconstruct s).mbuf } := by
  delta intraReconstruct setMbuf; with_reducible rfl

theorem motionSearch_frame (s : State) :
    motionSearch s = { s with
      cost0 := (motionSearch s).cost0, cost1 := (motionSearch s).cost1, part := (motionSearch s).part,
      mv := (motionSearch s).mv } := by
  delta motionSearch; with_reducible rfl

theorem motionSubtract_frame (s : State) :
    motionSubtract s = { s with mbuf := (motionSubtract s).mbuf, stage := .resid } := by
  delta motionSubtract setMbuf; with_reducible rfl

theorem motionReconstruct_frame (s : State) :
    motionReconstruct s = { s with mbuf := (motionReconstruct s).mbuf } := by
  delta motionReconstruct setMbuf; with_reducible rfl

theorem loadMacroblock_frame (pic : Picture) (s : State) :
    loadMacroblock pic s = { s with
      mbuf := (loadMacroblock pic s).mbuf, mode := .dc, part := false, mv := Vector.replicate 4 ⟨0, 0⟩, mbqp := 0,
      cost0 := 0, cost1 := 0, sbValid := false, stage := .raw } := by
  delta loadMacroblock setMbuf; with_reducible rfl

end Sys2Proof.Machine
end

