-- ==== Sys2Proof/Laws/Numeric.lean ====
section
/-! SUPPORT. What the arithmetic primitives of R17 compute, said once. -/

namespace Sys2Proof.Machine

theorem floorDiv_of_pos {x y : Nat} (h : 0 < y) : floorDiv x y = x / y := by
  simp [floorDiv, Nat.pos_iff_ne_zero.mp h]

theorem floorMod_of_pos {x y : Nat} (h : 0 < y) : floorMod x y = x % y := by
  simp [floorMod, Nat.pos_iff_ne_zero.mp h]

theorem clamp_of_mem {v lo hi : Int} (h1 : lo ≤ v) (h2 : v ≤ hi) : clamp v lo hi = v := by
  unfold clamp; split_ifs <;> omega

theorem clamp_bounds {lo hi : Int} (h : lo ≤ hi) (v : Int) : lo ≤ clamp v lo hi ∧ clamp v lo hi ≤ hi := by
  unfold clamp; split_ifs <;> omega

theorem clip255_bounds (v : Int) : 0 ≤ clip255 v ∧ clip255 v ≤ 255 := clamp_bounds (by decide) v

theorem sat16_bounds (v : Int) : -32768 ≤ sat16 v ∧ sat16 v ≤ 32767 := clamp_bounds (by decide) v

theorem sat16_of_mem {v : Int} (h1 : -32768 ≤ v) (h2 : v ≤ 32767) : sat16 v = v := clamp_of_mem h1 h2

theorem sumTo_eq_sum (n : Nat) (f : Nat → Int) : sumTo n f = ∑ i ∈ Finset.range n, f i := by
  induction n with
  | zero => rfl
  | succ n ih => rw [sumTo, ih, Finset.sum_range_succ]

theorem sumSquare_eq_sum (n : Nat) (f : Nat → Nat → Int) :
    sumSquare n f = ∑ r ∈ Finset.range n, ∑ c ∈ Finset.range n, f r c := by
  simp [sumSquare, sumTo_eq_sum]

theorem sumTo_congr {n : Nat} {f g : Nat → Int} (h : ∀ i < n, f i = g i) : sumTo n f = sumTo n g := by
  rw [sumTo_eq_sum, sumTo_eq_sum]
  exact Finset.sum_congr rfl fun i hi => h i (Finset.mem_range.mp hi)

theorem sumSquare_congr {n : Nat} {f g : Nat → Nat → Int} (h : ∀ r < n, ∀ c < n, f r c = g r c) :
    sumSquare n f = sumSquare n g :=
  sumTo_congr fun r hr => sumTo_congr fun c hc => h r hr c hc

theorem toInt_tc16 {v : Int} (h1 : -32768 ≤ v) (h2 : v ≤ 32767) : (tc16 v).toInt = v := by
  rw [tc16, BitVec.toInt_ofInt, Int.bmod_eq_of_le (by omega) (by omega)]

theorem toInt_tc8 {v : Int} (h1 : -128 ≤ v) (h2 : v ≤ 127) : (tc8 v).toInt = v := by
  rw [tc8, BitVec.toInt_ofInt, Int.bmod_eq_of_le (by omega) (by omega)]

theorem toNat_ofInt8 {v : Int} (h1 : 0 ≤ v) (h2 : v ≤ 255) : ((BitVec.ofInt 8 v).toNat : Int) = v := by
  rw [BitVec.toNat_ofInt]; omega

theorem rndShr_zero (s : Nat) : rndShr 0 s = 0 := by simp [rndShr]

/-- A sign times a rounded magnitude is within half a divisor of the number: the nearest multiple of R12. -/
theorem sign_mul_div_near (a : Int) {d h : Nat} (hd : 0 < d) (hh : 2 * h = d) :
    |a.sign * ((a.natAbs + h) / d : Nat) * d - a| ≤ h := by
  have hm := Nat.div_add_mod (a.natAbs + h) d
  have hl := Nat.mod_lt (a.natAbs + h) hd
  set m := (a.natAbs + h) / d
  set k := (a.natAbs + h) % d
  have hmul : (m : Int) * d = a.natAbs + h - k := by
    have hz : (d : Int) * m + k = (a.natAbs : Int) + h := by exact_mod_cast hm
    linarith [mul_comm (m : Int) d]
  rw [abs_le]
  rcases lt_trichotomy a 0 with ha | ha | ha
  · rw [Int.sign_eq_neg_one_of_neg ha]
    have : (-1 : Int) * m * d = -(m * d) := by ring
    omega
  · subst ha; simp
  · rw [Int.sign_eq_one_of_pos ha]
    have : (1 : Int) * m * d = m * d := by ring
    omega

/-- `rnd_shr` is within half a unit (R12, R17). -/
theorem rndShr_near (a : Int) {s : Nat} (hs : 1 ≤ s) : |rndShr a s * 2 ^ s - a| ≤ 2 ^ (s - 1) := by
  have h : 2 * 2 ^ (s - 1) = 2 ^ s := by
    conv_rhs => rw [← Nat.sub_add_cancel hs, pow_succ]
    ring
  have := sign_mul_div_near a (d := 2 ^ s) (h := 2 ^ (s - 1)) (by positivity) h
  simpa [rndShr] using this

end Sys2Proof.Machine
end

