-- ==== Sys2Proof/Laws/Grid.lean ====
section
/-! SUPPORT. Reading the macroblock buffer after it was written (10_state.md R21, R23). -/

namespace Sys2Proof.Machine

theorem Grid.get_ofFn {α : Type} {n : Nat} (f : Nat → Nat → α) {r c : Nat} (d : α) (hr : r < n) (hc : c < n) :
    Grid.get (Grid.ofFn n f) r c d = f r c := by
  simp [Grid.get, Grid.ofFn, hr, hc]

theorem Mbuf.word_ofFn (f : Plane → Nat → Nat → Coef) {p : Plane} {r c : Nat} (hr : r < p.size) (hc : c < p.size) :
    Mbuf.word (Mbuf.ofFn f) p r c = f p r c := by
  cases p <;> exact Grid.get_ofFn _ _ hr hc

theorem Mbuf.val_ofFn (f : Plane → Nat → Nat → Coef) {p : Plane} {r c : Nat} (hr : r < p.size) (hc : c < p.size) :
    Mbuf.val (Mbuf.ofFn f) p r c = (f p r c).toInt := by
  rw [Mbuf.val, Mbuf.word_ofFn f hr hc]

/-- Every 16-bit word reads between the bounds of its width (R13). -/
theorem Mbuf.val_bounds (m : Mbuf) (p : Plane) (r c : Nat) : -32768 ≤ m.val p r c ∧ m.val p r c ≤ 32767 := by
  have h1 := BitVec.le_toInt (Mbuf.word m p r c)
  have h2 := BitVec.toInt_lt (x := Mbuf.word m p r c)
  constructor <;> simp only [Mbuf.val] <;> omega

/-- `setMbuf` stores a value that fits 16 bits unchanged. -/
theorem setMbuf_val (f : Plane → Nat → Nat → Int) (s : State) {p : Plane} {r c : Nat} (hr : r < p.size) (hc : c < p.size)
    (h1 : -32768 ≤ f p r c) (h2 : f p r c ≤ 32767) : (setMbuf f s).mbuf.val p r c = f p r c := by
  rw [setMbuf, Mbuf.val_ofFn _ hr hc, toInt_tc16 h1 h2]

/-- `setMbufSat` stores `sat16` of the value (R23). -/
theorem setMbufSat_val (f : Plane → Nat → Nat → Int) (s : State) {p : Plane} {r c : Nat} (hr : r < p.size)
    (hc : c < p.size) : (setMbufSat f s).mbuf.val p r c = sat16 (f p r c) := by
  have h := sat16_bounds (f p r c)
  exact setMbuf_val (fun p r c => sat16 (f p r c)) s hr hc h.1 h.2

theorem anyWord_eq_true (f : Plane → Nat → Nat → Bool) :
    anyWord f = true ↔ ∃ p, ∃ r < p.size, ∃ c < p.size, f p r c = true := by
  have hp : ∀ p : Plane, p ∈ planes := fun p => by cases p <;> decide
  simp [anyWord, List.any_eq_true, hp]

/-- Two macroblock buffers with equal words are equal. -/
theorem Mbuf.ofFn_congr {f g : Plane → Nat → Nat → Coef} (h : ∀ p, ∀ r < p.size, ∀ c < p.size, f p r c = g p r c) :
    Mbuf.ofFn f = Mbuf.ofFn g := by
  have hg : ∀ (p : Plane), Grid.ofFn p.size (f p) = Grid.ofFn p.size (g p) := by
    intro p
    unfold Grid.ofFn
    congr 1; funext r; congr 1; funext c
    exact h p r r.2 c c.2
  have h1 := hg .y; have h2 := hg .cb; have h3 := hg .cr
  simp only [Plane.size] at h1 h2 h3
  simp only [Mbuf.ofFn, h1, h2, h3]

end Sys2Proof.Machine
end

