-- ==== Sys2Proof/Laws/Memory.lean ====
section
/-! SUPPORT. The stores: a read after a write, every other sample unchanged, and the canonical form kept by every memory
operation (10_state.md R25, R27, R28; 20_memory.md R83). -/

namespace Sys2Proof.Machine

/-! Memory -/

theorem Memory.read_write_same (m : Memory) (k : Nat) (b : Sample) : Memory.read (Memory.write m k b) k = some b := by
  induction m with
  | nil => simp [Memory.write, Memory.read]
  | cons hd tl ih =>
    obtain ⟨a, x⟩ := hd
    unfold Memory.write
    split_ifs with h1 h2
    · simp [Memory.read]
    · simp [Memory.read]
    · rw [Memory.read, if_neg (Ne.symm h2), ih]

theorem Memory.read_write_other (m : Memory) {k j : Nat} (b : Sample) (h : k ≠ j) :
    Memory.read (Memory.write m k b) j = Memory.read m j := by
  induction m with
  | nil => simp [Memory.write, Memory.read, h]
  | cons hd tl ih =>
    obtain ⟨a, x⟩ := hd
    unfold Memory.write
    split_ifs with h1 h2
    · simp [Memory.read, h]
    · subst h2; simp [Memory.read, h]
    · by_cases h3 : a = j
      · simp [Memory.read, h3]
      · simp [Memory.read, h3, ih]

theorem Memory.mem_keys_write {m : Memory} {k j : Nat} {b : Sample}
    (h : j ∈ (Memory.write m k b).map Prod.fst) : j = k ∨ j ∈ m.map Prod.fst := by
  induction m with
  | nil => simpa [Memory.write] using h
  | cons hd tl ih =>
    obtain ⟨a, x⟩ := hd
    unfold Memory.write at h
    split_ifs at h with h1 h2
    · simpa using h
    · subst h2; simp at h ⊢; tauto
    · simp only [List.map_cons, List.mem_cons] at h ⊢
      rcases h with h | h
      · exact .inr (.inl h)
      · rcases ih h with h | h
        · exact .inl h
        · exact .inr (.inr h)

/-- A write keeps the canonical form. -/
theorem Memory.wf_write {m : Memory} (h : Memory.wf m) (k : Nat) (b : Sample) : Memory.wf (Memory.write m k b) := by
  induction m with
  | nil => simp [Memory.wf, Memory.write]
  | cons hd tl ih =>
    obtain ⟨a, x⟩ := hd
    have h' := h
    simp only [Memory.wf, List.map_cons, List.pairwise_cons] at h
    unfold Memory.write
    split_ifs with h1 h2
    · simp only [Memory.wf, List.map_cons, List.pairwise_cons] at h' ⊢
      refine ⟨?_, h'⟩
      intro j hj
      rcases List.mem_cons.mp hj with rfl | hj
      · exact h1
      · exact lt_trans h1 (h'.1 j hj)
    · subst h2; exact h'
    · simp only [Memory.wf, List.map_cons, List.pairwise_cons]
      refine ⟨?_, ih h.2⟩
      intro j hj
      rcases Memory.mem_keys_write hj with rfl | hj
      · omega
      · exact h.1 j hj

/-- Nothing listed is in canonical form: the stores of `State.reset`. -/
theorem Memory.wf_nil : Memory.wf [] := List.Pairwise.nil

/-! Keys -/

/-- Rows and columns below 2^20: distinct samples have distinct keys. -/
theorem sampleKey_inj {p q : Plane} {y y' x x' : Nat} (hy : y < 2 ^ 20) (hy' : y' < 2 ^ 20) (hx : x < 2 ^ 20)
    (hx' : x' < 2 ^ 20) (h : sampleKey p y x = sampleKey q y' x') : p = q ∧ y = y' ∧ x = x' := by
  cases p <;> cases q <;> simp only [sampleKey, Plane.index] at h <;> simp <;> omega

/-! Tables -/

theorem Memory.wf_table (rows cols : Nat) (hc : cols ≤ 2 ^ 20) (f : Nat → Nat → Sample) :
    Memory.wf (Memory.table rows cols f) := by
  unfold Memory.wf Memory.table
  rw [List.map_flatMap, List.pairwise_flatMap]
  constructor
  · intro y _
    simp only [List.map_map, List.pairwise_map, Function.comp]
    refine List.pairwise_lt_range.imp ?_
    intro a b hab; simp only [sampleKey]; omega
  · refine List.pairwise_lt_range.imp ?_
    intro y y' hy k hk k' hk'
    simp only [List.map_map, List.mem_map, List.mem_range, Function.comp] at hk hk'
    obtain ⟨x, hx, rfl⟩ := hk
    obtain ⟨x', hx', rfl⟩ := hk'
    simp only [sampleKey, Plane.index]; omega

/-- A read of a list of cells in canonical form finds the cell that is there. -/
theorem Memory.read_of_mem {m : Memory} (h : Memory.wf m) {k : Nat} {b : Sample} (hm : (k, b) ∈ m) :
    Memory.read m k = some b := by
  induction m with
  | nil => simp at hm
  | cons hd tl ih =>
    obtain ⟨a, x⟩ := hd
    simp only [Memory.wf, List.map_cons, List.pairwise_cons] at h
    rcases List.mem_cons.mp hm with heq | hm
    · cases heq; simp [Memory.read]
    · have : a < k := h.1 k (List.mem_map.mpr ⟨_, hm, rfl⟩)
      rw [Memory.read, if_neg (by omega)]
      exact ih h.2 hm

/-- What a table reads as inside its bounds. -/
theorem Memory.read_table {rows cols : Nat} (hc : cols ≤ 2 ^ 20) (f : Nat → Nat → Sample) {y x : Nat} (hy : y < rows)
    (hx : x < cols) : Memory.read (Memory.table rows cols f) (sampleKey .y y x) = some (f y x) := by
  refine Memory.read_of_mem (Memory.wf_table rows cols hc f) ?_
  simp only [Memory.table, List.mem_flatMap, List.mem_map, List.mem_range]
  exact ⟨y, hy, x, hx, rfl⟩

/-! Stores -/

theorem Store.read_write_same (st : Store) (p : Plane) (y x : Nat) (v : Sample) : (st.write p y x v).read p y x = v := by
  simp [Store.read, Store.write, Memory.read_write_same]

theorem Store.read_write_other (st : Store) {p q : Plane} {y y' x x' : Nat} (v : Sample)
    (h : sampleKey p y x ≠ sampleKey q y' x') : (st.write p y x v).read q y' x' = st.read q y' x' := by
  simp [Store.read, Store.write, Memory.read_write_other _ _ h]

/-- A store whose cells are all written from a list of positions with distinct keys: what it reads as. -/
theorem Store.read_foldl_write {ι : Type} (key : ι → Plane × Nat × Nat) (v : ι → Sample) (l : List ι) (st : Store)
    (q : Plane) (y x : Nat) (h : ∀ i ∈ l, sampleKey (key i).1 (key i).2.1 (key i).2.2 ≠ sampleKey q y x) :
    (l.foldl (fun st i => st.write (key i).1 (key i).2.1 (key i).2.2 (v i)) st).read q y x = st.read q y x := by
  induction l generalizing st with
  | nil => rfl
  | cons a l ih =>
    rw [List.foldl_cons, ih _ fun i hi => h i (List.mem_cons_of_mem _ hi)]
    exact Store.read_write_other _ _ (h a List.mem_cons_self)

theorem mem_positions {n r c : Nat} : (r, c) ∈ positions n ↔ r < n ∧ c < n := by
  simp [positions]

theorem Store.wf_write {st : Store} (h : Memory.wf st.cells) (p : Plane) (y x : Nat) (v : Sample) :
    Memory.wf (st.write p y x v).cells := Memory.wf_write h _ _

/-- Storing a macroblock keeps the canonical form (R83). -/
theorem wf_storeMacroblock {s : State} (h : Memory.wf s.recStore.cells) : Memory.wf (storeMacroblock s).cells := by
  have hp : ∀ (p : Plane) (l : List (Nat × Nat)) (st : Store), Memory.wf st.cells →
      Memory.wf (l.foldl (fun st rc => st.write p (mbRow s p + rc.1) (mbCol s p + rc.2)
        (BitVec.ofInt 8 (s.mbuf.val p rc.1 rc.2))) st).cells := by
    intro p l
    induction l with
    | nil => exact fun st h => h
    | cons a l ih => exact fun st h => ih _ (Store.wf_write h _ _ _ _)
  simp only [storeMacroblock, planes, List.foldl_cons, List.foldl_nil, storePlane]
  exact hp _ _ _ (hp _ _ _ (hp _ _ _ h))

end Sys2Proof.Machine
end

