-- ==== Sys2Proof/Laws/PerInstr.lean ====
section
/-! SUPPORT. Per command: the word of a well-formed command satisfies a row of the opcode map that builds the command
back (30_encoding.md R101, R103). -/

namespace Sys2Proof.Laws.EncodesItsRow

/-- A well-formed command's word satisfies a row of the opcode map, and the row takes the command's operands from it. -/
def Statement (i : Instr) : Prop :=
  i.wellFormed = true → ∃ row ∈ opcodeMap, row.matches (encode i) = true ∧ row.build (encode i) = i

/-- Masking off the low `k` bits. -/
theorem toNat_and_high (w : Word) (k : Nat) :
    (w &&& BitVec.allOnes 32 <<< k).toNat = w.toNat / 2 ^ k * 2 ^ k := by
  have h : w &&& BitVec.allOnes 32 <<< k = (w >>> k) <<< k := by
    ext i hi
    simp only [BitVec.getElem_and, BitVec.getElem_shiftLeft, BitVec.getElem_ushiftRight, BitVec.getElem_allOnes]
    by_cases hik : i < k
    · simp [hik]
    · have : k + (i - k) = i := by omega
      simp [hik, this, BitVec.getLsbD_eq_getElem hi]
  have hl := w.isLt
  have hd := Nat.div_mul_le_self w.toNat (2 ^ k)
  rw [h, BitVec.toNat_shiftLeft, BitVec.toNat_ushiftRight, Nat.shiftLeft_eq, Nat.shiftRight_eq_div_pow,
    Nat.mod_eq_of_lt (by omega)]

/-- A word satisfies a row whose mask is the bits from `k` up when its bits from `k` up are the pattern's. -/
theorem matches_of_high {row : OpcodeRow} {w : Word} (k : Nat) (hm : row.mask = BitVec.allOnes 32 <<< k)
    (h : w.toNat / 2 ^ k * 2 ^ k = row.pattern.toNat) : row.matches w = true := by
  rw [OpcodeRow.matches, beq_iff_eq]
  apply BitVec.eq_of_toNat_eq
  rw [hm, toNat_and_high w k, h]

/-- A field's value is the word's bits from `lo` up, cut to its width. -/
theorem argField_eq (w : Word) (lo width : Nat) : argField w lo width = w.toNat / 2 ^ lo % 2 ^ width := by
  simp [argField, BitVec.extractLsb', Nat.shiftRight_eq_div_pow]

theorem setDim (picw pich : Nat) : Statement (.setDim picw pich) := by
  intro h
  simp only [Instr.wellFormed, Bool.and_eq_true, decide_eq_true_eq] at h
  have e : (encode (.setDim picw pich)).toNat = 0x01000000 + pich * 256 + picw := by
    simp only [encode, BitVec.toNat_ofNat]; omega
  refine ⟨⟨0x01000000, 0xFFFF0000, fun w => .setDim (argField w 0 8) (argField w 8 8)⟩, by simp [opcodeMap, configRows],
    matches_of_high 16 rfl ?_, ?_⟩
  · rw [e]; change _ = 0x01000000; omega
  · simp only [argField_eq, e, Instr.setDim.injEq]; omega

theorem setWin (winx winy : Nat) : Statement (.setWin winx winy) := by
  intro h
  simp only [Instr.wellFormed, Bool.and_eq_true, decide_eq_true_eq] at h
  have e : (encode (.setWin winx winy)).toNat = 0x02000000 + winy * 256 + winx := by
    simp only [encode, BitVec.toNat_ofNat]; omega
  refine ⟨⟨0x02000000, 0xFFFF0000, fun w => .setWin (argField w 0 8) (argField w 8 8)⟩, by simp [opcodeMap, configRows],
    matches_of_high 16 rfl ?_, ?_⟩
  · rw [e]; change _ = 0x02000000; omega
  · simp only [argField_eq, e, Instr.setWin.injEq]; omega

theorem setQp (qp : Nat) : Statement (.setQp qp) := by
  intro h
  simp only [Instr.wellFormed, decide_eq_true_eq] at h
  have e : (encode (.setQp qp)).toNat = 0x03000000 + qp := by simp only [encode, BitVec.toNat_ofNat]; omega
  refine ⟨⟨0x03000000, 0xFFFFFF00, fun w => .setQp (argField w 0 8)⟩, by simp [opcodeMap, configRows],
    matches_of_high 8 rfl ?_, ?_⟩
  · rw [e]; change _ = 0x03000000; omega
  · simp only [argField_eq, e, Instr.setQp.injEq]; omega

theorem setIint (iint : Nat) : Statement (.setIint iint) := by
  intro h
  simp only [Instr.wellFormed, decide_eq_true_eq] at h
  have e : (encode (.setIint iint)).toNat = 0x04000000 + iint := by simp only [encode, BitVec.toNat_ofNat]; omega
  refine ⟨⟨0x04000000, 0xFFFF0000, fun w => .setIint (argField w 0 16)⟩, by simp [opcodeMap, configRows],
    matches_of_high 16 rfl ?_, ?_⟩
  · rw [e]; change _ = 0x04000000; omega
  · simp only [argField_eq, e, Instr.setIint.injEq]; omega

theorem setFeat (feat : Nat) : Statement (.setFeat feat) := by
  intro h
  simp only [Instr.wellFormed, decide_eq_true_eq] at h
  have e : (encode (.setFeat feat)).toNat = 0x05000000 + feat := by simp only [encode, BitVec.toNat_ofNat]; omega
  refine ⟨⟨0x05000000, 0xFFFFFFF0, fun w => .setFeat (argField w 0 4)⟩, by simp [opcodeMap, configRows],
    matches_of_high 4 rfl ?_, ?_⟩
  · rw [e]; change _ = 0x05000000; omega
  · simp only [argField_eq, e, Instr.setFeat.injEq]; omega

theorem setOvh (ovh : Nat) : Statement (.setOvh ovh) := by
  intro h
  simp only [Instr.wellFormed, decide_eq_true_eq] at h
  have e : (encode (.setOvh ovh)).toNat = 0x06000000 + ovh := by simp only [encode, BitVec.toNat_ofNat]; omega
  refine ⟨⟨0x06000000, 0xFF000000, fun w => .setOvh (argField w 0 24)⟩, by simp [opcodeMap, configRows],
    matches_of_high 24 rfl ?_, ?_⟩
  · rw [e]; change _ = 0x06000000; omega
  · simp only [argField_eq, e, Instr.setOvh.injEq]; omega

/-- A row of format Z builds its one command from its one word. -/
theorem plain {i : Instr} (row : OpcodeRow) (hr : row ∈ opcodeMap) (hm : row.matches (encode i) = true)
    (hb : row.build (encode i) = i) : Statement i := fun _ => ⟨row, hr, hm, hb⟩

theorem nop : Statement .nop :=
  plain ⟨0x00000000, 0xFFFFFFFF, fun _ => .nop⟩ (by simp [opcodeMap, configRows]) (by decide) rfl
theorem start : Statement .start :=
  plain ⟨0x07000000, 0xFFFFFFFF, fun _ => .start⟩ (by simp [opcodeMap, configRows]) (by decide) rfl
theorem beginFrame : Statement .beginFrame :=
  plain ⟨0x10000000, 0xFFFFFFFF, fun _ => .beginFrame⟩ (by simp [opcodeMap, commandRows]) (by decide) rfl
theorem loadMb : Statement .loadMb :=
  plain ⟨0x11000000, 0xFFFFFFFF, fun _ => .loadMb⟩ (by simp [opcodeMap, commandRows]) (by decide) rfl
theorem emit : Statement .emit :=
  plain ⟨0x12000000, 0xFFFFFFFF, fun _ => .emit⟩ (by simp [opcodeMap, commandRows]) (by decide) rfl
theorem install : Statement .install :=
  plain ⟨0x13000000, 0xFFFFFFFF, fun _ => .install⟩ (by simp [opcodeMap, commandRows]) (by decide) rfl
theorem intraPred : Statement .intraPred :=
  plain ⟨0x20000000, 0xFFFFFFFF, fun _ => .intraPred⟩ (by simp [opcodeMap, commandRows]) (by decide) rfl
theorem intraRecon : Statement .intraRecon :=
  plain ⟨0x21000000, 0xFFFFFFFF, fun _ => .intraRecon⟩ (by simp [opcodeMap, commandRows]) (by decide) rfl
theorem mcPred : Statement .mcPred :=
  plain ⟨0x30000000, 0xFFFFFFFF, fun _ => .mcPred⟩ (by simp [opcodeMap, commandRows]) (by decide) rfl
theorem mcRecon : Statement .mcRecon :=
  plain ⟨0x31000000, 0xFFFFFFFF, fun _ => .mcRecon⟩ (by simp [opcodeMap, commandRows]) (by decide) rfl
theorem fdct : Statement .fdct :=
  plain ⟨0x40000000, 0xFFFFFFFF, fun _ => .fdct⟩ (by simp [opcodeMap, commandRows]) (by decide) rfl
theorem idct : Statement .idct :=
  plain ⟨0x41000000, 0xFFFFFFFF, fun _ => .idct⟩ (by simp [opcodeMap, commandRows]) (by decide) rfl
theorem quant : Statement .quant :=
  plain ⟨0x50000000, 0xFFFFFFFF, fun _ => .quant⟩ (by simp [opcodeMap, commandRows]) (by decide) rfl
theorem dequant : Statement .dequant :=
  plain ⟨0x51000000, 0xFFFFFFFF, fun _ => .dequant⟩ (by simp [opcodeMap, commandRows]) (by decide) rfl
theorem reset : Statement .reset :=
  plain ⟨0xFF000000, 0xFFFFFFFF, fun _ => .reset⟩ (by simp [opcodeMap, commandRows]) (by decide) rfl

end Sys2Proof.Laws.EncodesItsRow
end

