-- ==== Sys2Proof/Laws/Search.lean ====
section
/-! SUPPORT. What visiting one candidate of a motion search can do (42_motion.md R144, R146, R147). -/

namespace Sys2Proof.Machine

/-- A sum of squared errors is not negative (R145). -/
theorem motionSse_nonneg (s : State) (t : Footprint) (dx dy : Int) : 0 ≤ motionSse s t dx dy := by
  rw [motionSse, sumSquare_eq_sum]
  exact Finset.sum_nonneg fun _ _ => Finset.sum_nonneg fun _ _ => sq_nonneg _

/-- A visit keeps the best, or adopts a reachable and strictly better candidate with its own cost. -/
theorem visit_cases (s : State) (t : Footprint) (best : Found) (dx dy : Int) :
    (visit s t best dx dy = best ∧ (reach s t dx dy = true → best.cost ≤ motionSse s t dx dy)) ∨
    (visit s t best dx dy = ⟨dx, dy, motionSse s t dx dy⟩ ∧ reach s t dx dy = true ∧
      motionSse s t dx dy < best.cost) := by
  by_cases hr : reach s t dx dy = true
  · by_cases hc : motionSse s t dx dy < best.cost
    · right; simp [visit, candidateCost, hr, hc]
    · left; simp [visit, candidateCost, hr, hc]; omega
  · left; simp [visit, hr]

/-- A visit never makes the best worse. -/
theorem visit_cost_le (s : State) (t : Footprint) (best : Found) (dx dy : Int) :
    (visit s t best dx dy).cost ≤ best.cost := by
  rcases visit_cases s t best dx dy with ⟨h, -⟩ | ⟨h, -, hc⟩
  · rw [h]
  · rw [h]; exact le_of_lt hc

end Sys2Proof.Machine
end

