-- ==== Sys2Proof/Laws/Step.lean ====
section
/-! SUPPORT. The step, one lemma per thing the host's port can hold (10_state.md R57, 70_reset_and_hazards.md R260), and
that no run tells whether a reset kept CUR or dropped it (log 10). -/

namespace Sys2Proof.Machine

/-- With nothing on the port the step waits. -/
theorem performNext_nil {s : State} (h : s.port = []) : performNext s = .next s := by
  simp [performNext, h]

/-- The oldest operation of the port is performed on the state without it. -/
theorem performNext_cons {s : State} {op : HostOp} {rest : List HostOp} (h : s.port = op :: rest) :
    performNext s = hostOp op { s with port := rest } := by
  simp [performNext, h]

/-- A word that decodes is the command. -/
theorem cmdWrite_ok {w : Word} {i : Instr} (h : decode w = .ok i) (s : State) : cmdWrite w s = exec i s := by
  simp [cmdWrite, h]

/-- A word that does not decode is ignored in HALT and faults otherwise. -/
theorem cmdWrite_error {w : Word} {e : Illegal} (h : decode w = .error e) (s : State) :
    cmdWrite w s = if s.phase = .halt then .next s else .next (raiseFault .illegal w s) := by
  simp [cmdWrite, h, command]

/-! The picture the frame source holds while no frame is open (log 10) -/

/-- `t` is `s`, but for the picture the frame source may hold while no frame is open. -/
def SameButHeldPicture (s t : State) : Prop := t = { s with cur := t.cur } ∧ (s.fopen = true → t = s)

theorem SameButHeldPicture.refl (s : State) : SameButHeldPicture s s := ⟨rfl, fun _ => rfl⟩

theorem SameButHeldPicture.symm {s t : State} (h : SameButHeldPicture s t) : SameButHeldPicture t s := by
  obtain ⟨h, ho⟩ := h
  refine ⟨by rw [h], fun hf => (ho ?_).symm⟩
  rw [h] at hf; exact hf

/-- Such states answer every command alike. -/
theorem SameButHeldPicture.exec {i : Instr} {s t u : State} (h : SameButHeldPicture s t)
    (hu : Machine.exec i s = .next u) : ∃ v, Machine.exec i t = .next v ∧ SameButHeldPicture u v := by
  cases hf : s.fopen with
  | true => exact ⟨u, by rw [h.2 hf]; exact hu, .refl u⟩
  | false =>
    obtain ⟨d, hd, ho⟩ := exec_closed_cur hf t.cur hu
    refine ⟨{ u with cur := d }, by rw [h.1]; exact hd, rfl, fun hv => ?_⟩
    rw [← ho hv]

/-- Such states answer every step alike. -/
theorem SameButHeldPicture.step {s t u : State} (h : SameButHeldPicture s t) (hu : Machine.step s = .next u) :
    ∃ v, Machine.step t = .next v ∧ SameButHeldPicture u v := by
  have hport : t.port = s.port := by rw [h.1]
  simp only [Machine.step] at hu ⊢
  cases hp : s.port with
  | nil =>
    rw [performNext_nil hp] at hu; cases hu
    exact ⟨t, performNext_nil (hport.trans hp), h⟩
  | cons op rest =>
    rw [performNext_cons hp] at hu
    rw [performNext_cons (hport.trans hp)]
    have h' : SameButHeldPicture { s with port := rest } { t with port := rest } :=
      ⟨by rw [h.1], fun hf => by rw [h.2 hf]⟩
    cases op with
    | hardReset => exact h'.exec (i := .reset) hu
    | cmdWrite w =>
      simp only [hostOp] at hu ⊢
      cases hw : decode w with
      | ok i => rw [cmdWrite_ok hw] at hu ⊢; exact h'.exec hu
      | error e =>
        rw [cmdWrite_error hw] at hu ⊢
        by_cases hp : s.phase = .halt
        · rw [if_pos hp] at hu; cases hu
          exact ⟨_, if_pos (by rw [h.1]; exact hp), h'⟩
        · rw [if_neg hp] at hu; cases hu
          exact ⟨_, if_neg (by rw [h.1]; exact hp), by simp only [raiseFault]; rw [h.1], fun hf => by rw [h'.2 hf]⟩

/-- No run tells a reset that keeps CUR (10_state.md R62, 20_memory.md R78) from one that writes it as none
(45_sequencer.md R216): whatever the host does next, for any number of steps, it reads the same value from every register,
and the streams and the stores are the same. -/
theorem run_after_reset_cur {k : Nat} {s u : State}
    (hu : Host.Core.run Sys2Proof.core k (resetEngine s) = .next u) :
    ∃ v, Host.Core.run Sys2Proof.core k { resetEngine s with cur := none } = .next v ∧ v = { u with cur := v.cur } ∧
      (u.fopen = true → v = u) ∧ ∀ n, csrRead n v = csrRead n u := by
  suffices hs : ∀ (k : Nat) (s t u : State), SameButHeldPicture s t → Host.Core.run Sys2Proof.core k s = .next u →
      ∃ v, Host.Core.run Sys2Proof.core k t = .next v ∧ SameButHeldPicture u v by
    obtain ⟨v, hv, h⟩ := hs k _ { resetEngine s with cur := none } u ⟨rfl, fun hf => by simp at hf⟩ hu
    exact ⟨v, hv, h.1, h.2, fun n => by rw [h.1]; rfl⟩
  intro k
  induction k with
  | zero => intro s t u h hu; cases hu; exact ⟨t, rfl, h⟩
  | succ k ih =>
    intro s t u h hu
    cases hs : Machine.step s with
    | next s' =>
      obtain ⟨t', ht, h'⟩ := h.step hs
      simp only [Host.Core.run, Sys2Proof.core, hs, ht] at hu ⊢
      exact ih s' t' u h' hu
    | fault r => simp [Host.Core.run, Sys2Proof.core, hs] at hu
    | refused r => simp [Host.Core.run, Sys2Proof.core, hs] at hu

end Sys2Proof.Machine
end

