-- ==== Sys2Proof/Laws/Store.lean ====
section
/-! SUPPORT. Storing a macroblock into REC (20_memory.md R83): what its area reads as afterwards, and that every other
sample reads as before. -/

namespace Sys2Proof.Machine

/-- A fold of writes leaves a key none of them names. -/
theorem Memory.read_foldl_other {ι : Type} (key : ι → Nat) (v : ι → Sample) (k : Nat) (l : List ι)
    (h : ∀ i ∈ l, key i ≠ k) (m : Memory) :
    Memory.read (l.foldl (fun m i => Memory.write m (key i) (v i)) m) k = Memory.read m k := by
  induction l generalizing m with
  | nil => rfl
  | cons a l ih =>
    rw [List.foldl_cons, ih fun i hi => h i (List.mem_cons_of_mem _ hi)]
    exact Memory.read_write_other _ _ (h a List.mem_cons_self)

/-- A fold of writes that names a key always with one value leaves that value there. -/
theorem Memory.read_foldl_same {ι : Type} (key : ι → Nat) (v : ι → Sample) (k : Nat) (b : Sample) (l : List ι)
    (hv : ∀ i ∈ l, key i = k → v i = b) (h : ∃ i ∈ l, key i = k) (m : Memory) :
    Memory.read (l.foldl (fun m i => Memory.write m (key i) (v i)) m) k = some b := by
  induction l generalizing m with
  | nil => simp at h
  | cons a l ih =>
    rw [List.foldl_cons]
    by_cases hl : ∃ i ∈ l, key i = k
    · exact ih (fun i hi => hv i (List.mem_cons_of_mem _ hi)) hl _
    · have ha : key a = k := by
        obtain ⟨i, hi, hk⟩ := h
        rcases List.mem_cons.mp hi with rfl | hi
        · exact hk
        · exact absurd ⟨i, hi, hk⟩ hl
      rw [Memory.read_foldl_other key v k l fun i hi hk => hl ⟨i, hi, hk⟩]
      rw [hv a List.mem_cons_self ha, ha, Memory.read_write_same]

/-- A macroblock's rows and columns inside a picture are below 2^20, so their keys are distinct. -/
theorem mbPosition_bounds {s : State} (h : s.mbidx.toNat < nmb s) (p : Plane) {r c : Nat} (hr : r < p.size)
    (hc : c < p.size) : mbRow s p + r < 2 ^ 20 ∧ mbCol s p + c < 2 ^ 20 := by
  have hw : 0 < s.picw.toNat := by
    rcases Nat.eq_zero_or_pos s.picw.toNat with h0 | h0
    · simp [nmb, h0] at h
    · exact h0
  have h1 : mby s ≤ s.mbidx.toNat := by rw [mby, floorDiv_of_pos hw]; exact Nat.div_le_self _ _
  have h2 : mbx s ≤ s.mbidx.toNat := by rw [mbx, floorMod_of_pos hw]; exact Nat.mod_le _ _
  have h3 := s.mbidx.isLt
  cases p <;> simp only [mbRow, mbCol, Plane.size] at * <;> omega

/-- One plane's store, at the level of the written cells. -/
theorem storePlane_cells (s : State) (st : Store) (p : Plane) :
    (storePlane s st p).cells = (positions p.size).foldl (fun m rc =>
      Memory.write m (sampleKey p (mbRow s p + rc.1) (mbCol s p + rc.2)) (BitVec.ofInt 8 (s.mbuf.val p rc.1 rc.2)))
        st.cells := by
  unfold storePlane
  generalize positions p.size = l
  induction l generalizing st with
  | nil => rfl
  | cons a l ih => rw [List.foldl_cons, ih, List.foldl_cons]; rfl

/-- A sample outside the macroblock's area of its plane keeps what was written there. -/
theorem storePlane_read_other {s : State} (h : s.mbidx.toNat < nmb s) (st : Store) {p q : Plane} {y x : Nat}
    (hy : y < 2 ^ 20) (hx : x < 2 ^ 20)
    (ho : p = q → ¬ ((mbRow s p ≤ y ∧ y < mbRow s p + p.size) ∧ (mbCol s p ≤ x ∧ x < mbCol s p + p.size))) :
    Memory.read (storePlane s st p).cells (sampleKey q y x) = Memory.read st.cells (sampleKey q y x) := by
  rw [storePlane_cells]
  refine Memory.read_foldl_other
    (fun rc : Nat × Nat => sampleKey p (mbRow s p + rc.1) (mbCol s p + rc.2))
    (fun rc => BitVec.ofInt 8 (s.mbuf.val p rc.1 rc.2)) _ _ ?_ _
  rintro ⟨r, c⟩ hrc hk
  obtain ⟨hr, hc⟩ := mem_positions.mp hrc
  obtain ⟨b1, b2⟩ := mbPosition_bounds h p hr hc
  obtain ⟨rfl, rfl, rfl⟩ := sampleKey_inj b1 hy b2 hx hk
  exact ho rfl (by omega)

/-- A sample of the macroblock's area reads as MBUF's word. -/
theorem storePlane_read_same {s : State} (h : s.mbidx.toNat < nmb s) (st : Store) {p : Plane} {r c : Nat}
    (hr : r < p.size) (hc : c < p.size) :
    Memory.read (storePlane s st p).cells (sampleKey p (mbRow s p + r) (mbCol s p + c))
      = some (BitVec.ofInt 8 (s.mbuf.val p r c)) := by
  rw [storePlane_cells]
  refine Memory.read_foldl_same
    (fun rc : Nat × Nat => sampleKey p (mbRow s p + rc.1) (mbCol s p + rc.2))
    (fun rc => BitVec.ofInt 8 (s.mbuf.val p rc.1 rc.2)) _ _ _ ?_ ⟨(r, c), mem_positions.mpr ⟨hr, hc⟩, rfl⟩ _
  rintro ⟨r', c'⟩ hrc hk
  obtain ⟨hr', hc'⟩ := mem_positions.mp hrc
  obtain ⟨b1, b2⟩ := mbPosition_bounds h p hr hc
  obtain ⟨b1', b2'⟩ := mbPosition_bounds h p hr' hc'
  obtain ⟨-, e1, e2⟩ := sampleKey_inj b1' b1 b2' b2 hk
  have : r' = r := by omega
  have : c' = c := by omega
  subst_vars; rfl

/-- Storing a macroblock: its area of every plane is written with MBUF's words (R83). -/
theorem storeMacroblock_read_same {s : State} (h : s.mbidx.toNat < nmb s) {p : Plane} {r c : Nat} (hr : r < p.size)
    (hc : c < p.size) :
    Memory.read (storeMacroblock s).cells (sampleKey p (mbRow s p + r) (mbCol s p + c))
      = some (BitVec.ofInt 8 (s.mbuf.val p r c)) := by
  obtain ⟨b1, b2⟩ := mbPosition_bounds h p hr hc
  simp only [storeMacroblock, planes, List.foldl_cons, List.foldl_nil]
  cases p
  · rw [storePlane_read_other h _ b1 b2 (by simp), storePlane_read_other h _ b1 b2 (by simp),
      storePlane_read_same h _ hr hc]
  · rw [storePlane_read_other h _ b1 b2 (by simp), storePlane_read_same h _ hr hc]
  · rw [storePlane_read_same h _ hr hc]

/-- Storing a macroblock leaves every sample outside its area as it was (R83). -/
theorem storeMacroblock_read_other {s : State} (h : s.mbidx.toNat < nmb s) {p : Plane} {y x : Nat} (hy : y < 2 ^ 20)
    (hx : x < 2 ^ 20)
    (ho : ¬ ((mbRow s p ≤ y ∧ y < mbRow s p + p.size) ∧ (mbCol s p ≤ x ∧ x < mbCol s p + p.size))) :
    Memory.read (storeMacroblock s).cells (sampleKey p y x) = Memory.read s.recStore.cells (sampleKey p y x) := by
  simp only [storeMacroblock, planes, List.foldl_cons, List.foldl_nil]
  rw [storePlane_read_other h _ hy hx (fun e => by subst e; exact ho),
    storePlane_read_other h _ hy hx (fun e => by subst e; exact ho),
    storePlane_read_other h _ hy hx (fun e => by subst e; exact ho)]

/-- Storing a macroblock keeps the tag of REC's unspecified content. -/
theorem storeMacroblock_fill (s : State) : (storeMacroblock s).fill = s.recStore.fill := by
  have hp : ∀ (p : Plane) (st : Store), (storePlane s st p).fill = st.fill := by
    intro p st
    unfold storePlane
    generalize positions p.size = l
    induction l generalizing st with
    | nil => rfl
    | cons a l ih => rw [List.foldl_cons, ih]; rfl
  simp [storeMacroblock, planes, hp]

end Sys2Proof.Machine
end

