-- ==== Sys2Proof/Machine/Assembler.lean ====
section
/-! DEFINITION. The assembler of the command stream (30_encoding.md R107) and its pseudo-commands (R108). A line is a
list of characters; the words it gives are `encode`'s. It is no part of a step. -/

namespace Sys2Proof.Machine

/-! Pseudo-commands (R108) -/

/-- The eight commands of a macroblock in an I frame (`ENC_MB_I`). -/
def encMbI : List Instr := [.loadMb, .intraPred, .fdct, .quant, .emit, .dequant, .idct, .intraRecon]

/-- The eight commands of a macroblock in a P frame (`ENC_MB_P`). -/
def encMbP : List Instr := [.loadMb, .mcPred, .fdct, .quant, .emit, .dequant, .idct, .mcRecon]

/-- What a pseudo-command expands to (R108). That n equals PICW * PICH is not checked: the line alone does not say what they
are (DESIGN CHOICE, log 20). -/
def expandPseudo : Pseudo → List Instr
  | .encMbI => encMbI
  | .encMbP => encMbP
  | .encFrameI n => .beginFrame :: (List.replicate n encMbI).flatten ++ [.install]
  | .encFrameP n => .beginFrame :: (List.replicate n encMbP).flatten ++ [.install]
  | .config picw pich winx winy qp iint feat ovh =>
    [.setDim picw pich, .setWin winx winy, .setQp qp, .setIint iint, .setFeat feat, .setOvh ovh, .start]

/-! Lines (R107) -/

/-- A space between tokens; R107 does not list them, the model takes blank and tab (log 14). -/
def isBlank (c : Char) : Bool := c == ' ' || c == '\t'

/-- Drop leading and trailing blanks. -/
def trimBlanks (cs : List Char) : List Char := ((cs.dropWhile isBlank).reverse.dropWhile isBlank).reverse

/-- Split at every occurrence of `sep`. -/
def splitAt (sep : Char) : List Char → List (List Char)
  | [] => [[]]
  | c :: cs =>
    match splitAt sep cs with
    | [] => [[c]]
    | w :: ws => if c == sep then [] :: w :: ws else (c :: w) :: ws

/-- The value of a digit in the given base; hexadecimal letters in either case (DESIGN CHOICE, log 20). -/
def digitValue (base : Nat) (c : Char) : Option Nat :=
  let n := c.toNat
  let v := if 48 ≤ n ∧ n ≤ 57 then n - 48
    else if 65 ≤ n ∧ n ≤ 70 then n - 55
    else if 97 ≤ n ∧ n ≤ 102 then n - 87
    else base
  if v < base then some v else none

/-- A nonempty string of digits in the given base. -/
def parseDigits (base : Nat) (cs : List Char) : Option Nat :=
  if cs = [] then none
  else cs.foldl (fun acc c => do let a ← acc; let d ← digitValue base c; pure (a * base + d)) (some 0)

/-- An unsigned number, decimal or `0x` hexadecimal (R107). -/
def parseNumber (cs : List Char) : Option Nat :=
  match cs with
  | '0' :: 'x' :: rest => parseDigits 16 rest
  | _ => parseDigits 10 cs

/-- The names of SET_FEAT's bits (R107). -/
def featName (cs : List Char) : Option Nat :=
  if cs = ['I', 'N', 'T', 'R', 'A'] then some 1
  else if cs = ['M', 'C'] then some 2
  else if cs = ['T'] then some 4
  else if cs = ['Q'] then some 8
  else none

/-- SET_FEAT's operand: a number, or a sum of names (R107); a name that stands twice counts twice (DESIGN CHOICE, log 20). -/
def parseFeat (cs : List Char) : Option Nat :=
  match parseNumber cs with
  | some n => some n
  | none => ((splitAt '+' cs).map fun t => featName (trimBlanks t)).foldl
      (fun acc x => do let a ← acc; let b ← x; pure (a + b)) (some 0)

/-- All operands as numbers, or none. -/
def parseNumbers : List (List Char) → Option (List Nat)
  | [] => some []
  | a :: rest => do let n ← parseNumber a; let ns ← parseNumbers rest; pure (n :: ns)

/-- The commands without operand, by mnemonic (R107). -/
def plainMnemonics : List (List Char × List Instr) :=
  [ ("NOP".toList, [.nop]), ("START".toList, [.start]), ("BEGIN_FRAME".toList, [.beginFrame]),
    ("LOAD_MB".toList, [.loadMb]), ("EMIT".toList, [.emit]), ("INSTALL".toList, [.install]),
    ("INTRA_PRED".toList, [.intraPred]), ("INTRA_RECON".toList, [.intraRecon]), ("MC_PRED".toList, [.mcPred]),
    ("MC_RECON".toList, [.mcRecon]), ("FDCT".toList, [.fdct]), ("IDCT".toList, [.idct]), ("QUANT".toList, [.quant]),
    ("DEQUANT".toList, [.dequant]), ("RESET".toList, [.reset]), ("ENC_MB_I".toList, expandPseudo .encMbI),
    ("ENC_MB_P".toList, expandPseudo .encMbP) ]

/-- A command with its numeric operands (R107, R108). -/
def assembleCommand (name : List Char) (args : List Nat) : Option (List Instr) :=
  match args with
  | [] => (plainMnemonics.find? fun m => m.1 == name).map Prod.snd
  | [a] =>
    if name = "SET_QP".toList then some [.setQp a]
    else if name = "SET_IINT".toList then some [.setIint a]
    else if name = "SET_FEAT".toList then some [.setFeat a]
    else if name = "SET_OVH".toList then some [.setOvh a]
    else if name = "ENC_FRAME_I".toList then some (expandPseudo (.encFrameI a))
    else if name = "ENC_FRAME_P".toList then some (expandPseudo (.encFrameP a))
    else none
  | [a, b] =>
    if name = "SET_DIM".toList then some [.setDim a b]
    else if name = "SET_WIN".toList then some [.setWin a b]
    else none
  | [a, b, c, d, e, f, g, h] =>
    if name = "CONFIG".toList then some (expandPseudo (.config a b c d e f g h)) else none
  | _ => none

/-- The words of a list of commands; an operand that does not fit its field is an error, and nothing is emitted (R107). -/
def wordsOf (is : List Instr) : Option (List Word) :=
  if is.all Instr.wellFormed then some (is.map encode) else none

/-- One line: a mnemonic, its operands separated by commas, a comment after `;` (R107). An empty line gives no word (log 14).
DESIGN CHOICE: the names of SET_FEAT's bits are taken by SET_FEAT alone; CONFIG's feat operand is a number (log 20). -/
def assembleLine (line : List Char) : Option (List Word) :=
  let body := trimBlanks (line.takeWhile (· != ';'))
  let name := body.takeWhile (fun c => !isBlank c)
  let rest := trimBlanks (body.dropWhile (fun c => !isBlank c))
  if body = [] then some []
  else if rest = [] then (assembleCommand name []).bind wordsOf
  else if name = "SET_FEAT".toList then (parseFeat rest).bind fun n => wordsOf [.setFeat n]
  else do
    let ns ← parseNumbers ((splitAt ',' rest).map trimBlanks)
    let is ← assembleCommand name ns
    wordsOf is

end Sys2Proof.Machine
end

