-- ==== Sys2Proof/Tests/Slice0.lean ====
section
/-! SUPPORT. The model's own tests: ill-formed commands refused, words written out from the spec's encoding decoded, one or
two single steps per command with the spec's own numbers, and a concrete state for the hypotheses of every obligation. -/

namespace Sys2Proof.Tests

open Sys2Proof.Machine

/-! WellFormed: one ill-formed command for each check (R107: "An operand that does not fit its field is an assembly error") -/

theorem test_illFormed_setDim_picw : (Instr.setDim 256 0).wellFormed = false := by decide
theorem test_illFormed_setDim_pich : (Instr.setDim 0 256).wellFormed = false := by decide
theorem test_illFormed_setWin_winx : (Instr.setWin 256 0).wellFormed = false := by decide
theorem test_illFormed_setWin_winy : (Instr.setWin 0 256).wellFormed = false := by decide
theorem test_illFormed_setQp : (Instr.setQp 256).wellFormed = false := by decide
theorem test_illFormed_setIint : (Instr.setIint 65536).wellFormed = false := by decide
theorem test_illFormed_setFeat : (Instr.setFeat 16).wellFormed = false := by decide
theorem test_illFormed_setOvh : (Instr.setOvh 16777216).wellFormed = false := by decide

/-! Decode: the word of each command, cut into the columns of R101 (opcode, bits 23:16, 15:8, 7:0) -/

/-- A command word from its opcode and its three argument bytes (R101). -/
def word (op hi mid lo : BitVec 8) : Word := op ++ hi ++ mid ++ lo

theorem test_decode_nop : decode (word 0x00 0 0 0) = .ok .nop := by decide
theorem test_decode_setDim : decode (word 0x01 0 18 22) = .ok (.setDim 22 18) := by decide
theorem test_decode_setWin : decode (word 0x02 0 255 7) = .ok (.setWin 7 255) := by decide
theorem test_decode_setQp : decode (word 0x03 0 0 52) = .ok (.setQp 52) := by decide
theorem test_decode_setIint : decode (word 0x04 0 0x01 0x2C) = .ok (.setIint 300) := by decide
theorem test_decode_setFeat : decode (word 0x05 0 0 0b1010) = .ok (.setFeat 10) := by decide
theorem test_decode_setOvh : decode (word 0x06 0x12 0x34 0x56) = .ok (.setOvh 0x123456) := by decide
theorem test_decode_start : decode (word 0x07 0 0 0) = .ok .start := by decide
theorem test_decode_beginFrame : decode (word 0x10 0 0 0) = .ok .beginFrame := by decide
theorem test_decode_loadMb : decode (word 0x11 0 0 0) = .ok .loadMb := by decide
theorem test_decode_emit : decode (word 0x12 0 0 0) = .ok .emit := by decide
theorem test_decode_install : decode (word 0x13 0 0 0) = .ok .install := by decide
theorem test_decode_intraPred : decode (word 0x20 0 0 0) = .ok .intraPred := by decide
theorem test_decode_intraRecon : decode (word 0x21 0 0 0) = .ok .intraRecon := by decide
theorem test_decode_mcPred : decode (word 0x30 0 0 0) = .ok .mcPred := by decide
theorem test_decode_mcRecon : decode (word 0x31 0 0 0) = .ok .mcRecon := by decide
theorem test_decode_fdct : decode (word 0x40 0 0 0) = .ok .fdct := by decide
theorem test_decode_idct : decode (word 0x41 0 0 0) = .ok .idct := by decide
theorem test_decode_quant : decode (word 0x50 0 0 0) = .ok .quant := by decide
theorem test_decode_dequant : decode (word 0x51 0 0 0) = .ok .dequant := by decide
theorem test_decode_reset : decode (word 0xFF 0 0 0) = .ok .reset := by decide

/-- R104: a must-be-zero bit of each format set, and the edges of the unused opcode ranges. -/
theorem test_decode_illegal :
    decode (word 0x01 1 0 0) = .error .reservedBitSet ∧ decode (word 0x03 0 1 0) = .error .reservedBitSet ∧
    decode (word 0x04 128 0 0) = .error .reservedBitSet ∧ decode (word 0x05 0 0 16) = .error .reservedBitSet ∧
    decode (word 0x40 0 0 1) = .error .reservedBitSet ∧ decode (word 0xFF 0 0 1) = .error .reservedBitSet ∧
    decode (word 0x08 0 0 0) = .error .unknownOpcode ∧ decode (word 0x52 0 0 0) = .error .unknownOpcode ∧
    decode (word 0xFE 255 255 255) = .error .unknownOpcode := by decide

/-- R107's example line, and a comment. -/
theorem test_assemble_setDim : assembleLine "SET_DIM 22, 0x12 ; CIF".toList = some [0x01001216] := by decide +kernel

/-- R108's expansion with a numeric feat; a sum of names is SET_FEAT's alone (log 20). -/
theorem test_assemble_config :
    assembleLine "CONFIG 1, 1, 0, 0, 2, 1, 15, 0".toList = some [0x01000101, 0x02000000, 0x03000002, 0x04000001,
      0x0500000F, 0x06000000, 0x07000000] ∧
    assembleLine "SET_FEAT INTRA+MC+T+Q".toList = some [0x0500000F] ∧
    assembleLine "CONFIG 1, 1, 0, 0, 2, 1, INTRA+Q, 0".toList = none := by decide +kernel

/-! Small states -/

/-- A one-macroblock picture of one grey value. -/
def grey (v : Sample) : Picture :=
  ⟨List.replicate 16 (List.replicate 16 v), List.replicate 8 (List.replicate 8 v), List.replicate 8 (List.replicate 8 v)⟩

/-- An open frame of one macroblock at a given stage: QP = 10, IINT = 2, all units enabled. -/
def opened (ft : FrameType) (st : Stage) : State :=
  { State.reset with
    picw := 1, pich := 1, qp := 10, iint := 2, feat := 15, phase := .run, fopen := true, ftype := ft, stage := st,
    cur := some (grey 100) }

/-- An open frame with every MBUF word the same. -/
def filled (ft : FrameType) (st : Stage) (v : Int) : State := setMbuf (fun _ _ _ => v) (opened ft st)

/-- An open frame with all units disabled. -/
def bypassed (ft : FrameType) (st : Stage) : State := { opened ft st with feat := 0 }

/-- The CONFIG phase with the minimal legal configuration of R261. -/
def configured : State := { State.reset with picw := 1, pich := 1, qp := 2, iint := 1 }

/-- RUN with no frame open. -/
def between : State := { opened .intra .empty with fopen := false, cur := none }

/-- What a result's next state shows, if there is one. -/
def shows {α : Type} (r : Result) (f : State → α) : Option α :=
  match r with
  | .next t => some (f t)
  | .fault _ => none
  | .refused _ => none

/-! One step per command, the numbers from the rules' own examples -/

theorem test_nop : shows (exec .nop (opened .intra .quant)) (·.stage) = some .quant := by decide
theorem test_setDim : shows (exec (.setDim 22 18) State.reset) (fun t => (t.picw, t.pich)) = some (22, 18) := by decide
theorem test_setWin : shows (exec (.setWin 8 9) State.reset) (fun t => (t.winx, t.winy)) = some (8, 9) := by decide
theorem test_setQp_inRun : shows (exec (.setQp 10) between) (fun t => (t.errCode, t.errCmd, t.qp)) =
    some (.phase, 0x0300000A, 10) := by decide
theorem test_setQp : shows (exec (.setQp 0) configured) (·.qp) = some 0 := by decide
theorem test_setIint : shows (exec (.setIint 12) State.reset) (·.iint) = some 12 := by decide
theorem test_setFeat : shows (exec (.setFeat 6) State.reset) (fun t => (enIntra t, enMc t, enT t, enQ t)) =
    some (false, true, true, false) := by decide
theorem test_setOvh : shows (exec (.setOvh 512) State.reset) (·.ovh) = some 512 := by decide
/-- R208's example: after reset, START alone faults with E_CFG_QP. -/
theorem test_start_afterReset : shows (exec .start State.reset) (fun t => (t.phase, t.errCode)) =
    some (.halt, .cfgQp) := by decide
/-- R261's minimal bring-up. -/
theorem test_start : shows (exec .start configured) (fun t => (t.phase, t.errCode)) = some (.run, .ok) := by decide
/-- R81: the header is PICW, PICH, QP, IINT, FEAT. -/
theorem test_beginFrame : shows (exec .beginFrame { between with src := [grey 7] })
    (fun t => (t.out, t.ftype, t.fopen, t.cur)) = some ([1, 1, 10, 2, 15], .intra, true, some (grey 7)) := by decide +kernel
theorem test_beginFrame_predicted : shows (exec .beginFrame { between with src := [grey 7], ipos := 1 }) (·.ftype) =
    some .predicted := by decide +kernel
theorem test_loadMb : shows (exec .loadMb (opened .intra .empty)) (fun t => (t.mbuf.val .y 15 3, t.mbuf.val .cr 7 7, t.stage)) =
    some (100, 100, .raw) := by decide +kernel
/-- R211: "after the last macroblock (MBIDX = NMB, STAGE = RECON) LOAD_MB faults E_MBRANGE". -/
theorem test_loadMb_afterLast : shows (exec .loadMb { opened .intra .recon with mbidx := 1 }) (·.errCode) =
    some .mbRange := by decide
/-- R212's example: MODE = 2 and all levels 0 give the word 2 followed by 384 words 0. -/
theorem test_emit : shows (exec .emit { opened .intra .quant with mode := .horizontal }) (·.out) =
    some (2 :: List.replicate 384 0) := by decide +kernel
/-- R49, R82: signed components, dx before dy. -/
theorem test_emit_predicted : shows (exec .emit { opened .predicted .quant with
      part := true, mv := Vector.ofFn fun q : Fin 4 => (⟨BitVec.ofInt 8 (-(q.val : Int)), 7⟩ : MotionVec) })
    (fun t => (t.out.take 9).map BitVec.toInt) = some [1, 0, 7, -1, 7, -2, 7, -3, 7] := by decide +kernel
/-- R214's example: IINT = 3, IPOS = 2: after INSTALL, IPOS = 0. -/
theorem test_install : shows (exec .install { opened .predicted .recon with iint := 3, ipos := 2, mbidx := 1 })
    (fun t => (t.ipos, t.fopen, t.refValid, t.stage, t.mbidx)) = some (0, false, true, .empty, 1) := by decide
theorem test_install_incomplete : shows (exec .install (opened .intra .recon)) (·.errCode) = some .incomplete := by decide
/-- R120's example: Y all 100, no neighbours: DC wins the tie and every word becomes -28. -/
theorem test_intraPred : shows (exec .intraPred (filled .intra .raw 100))
    (fun t => (t.mode, t.mbuf.val .y 0 0, t.mbuf.val .cb 7 7)) = some (.dc, -28, -28) := by decide +kernel
/-- R129's example: IRES words -28 on edges 128 give 100, in MBUF and in REC. -/
theorem test_intraRecon : shows (exec .intraRecon { filled .intra .ires (-28) with edge := gatherEdge (opened .intra .raw) })
    (fun t => (t.mbuf.val .y 15 15, t.recStore.read .y 15 15, t.recStore.read .cr 0 7, t.mbidx)) =
      some (100, 100, 100, 1) := by decide +kernel
theorem test_mcPred_bypassed : shows (exec .mcPred { bypassed .predicted .raw with part := true, cost0 := 5 })
    (fun t => (t.part, t.cost0, t.stage)) = some (false, 0, .resid) := by decide
theorem test_mcPred_inIFrame : shows (exec .mcPred (opened .intra .resid)) (·.errCode) = some .ftype := by decide
/-- R158: results outside 0..255 are clipped, and stored, also with EN_MC = 0. -/
theorem test_mcRecon : shows (exec .mcRecon { filled .predicted .ires 300 with feat := 0 })
    (fun t => (t.mbuf.val .y 0 0, t.recStore.read .cb 7 0, t.stage)) = some (255, 255, .recon) := by decide +kernel
/-- R173's example: a block of 255 gives C[0][0] = 16319 and zero elsewhere. -/
theorem test_fdct : shows (exec .fdct (filled .intra .resid 255))
    (fun t => (t.mbuf.val .y 0 0, t.mbuf.val .y 8 8, t.mbuf.val .cb 0 1, t.stage)) = some (16319, 16319, 0, .xform) := by
  decide +kernel
/-- R176's example: a block whose only word is C[0][0] = 16319 gives 255 everywhere. -/
theorem test_idct : shows (exec .idct (setMbuf (fun _ r c => if r = 0 ∧ c = 0 then 16319 else 0) (opened .intra .deq)))
    (fun t => (t.mbuf.val .cr 0 0, t.mbuf.val .cr 7 3, t.stage)) = some (255, 255, .ires) := by decide +kernel
/-- R186's example: QP = 10; 16319, -39, -40 give 204, 0, -1. -/
theorem test_quant : shows (exec .quant
      (setMbuf (fun _ r _ => if r = 0 then 16319 else if r = 1 then -39 else -40) (opened .intra .xform)))
    (fun t => (t.mbuf.val .y 0 0, t.mbuf.val .y 1 0, t.mbuf.val .y 2 0, t.mbqp)) = some (204, 0, -1, 10) := by decide +kernel
/-- R189's example: QP = 10; levels 204, -1 give 16320, -80. -/
theorem test_dequant : shows (exec .dequant
      { setMbuf (fun _ r _ => if r = 0 then 204 else -1) (opened .intra .sent) with mbqp := 10 })
    (fun t => (t.mbuf.val .y 0 0, t.mbuf.val .y 1 0, t.stage)) = some (16320, -80, .deq) := by decide +kernel
/-- R216's example: after a fault with ERRCODE = 3, RESET gives STATUS = 0, ERRCODE = 0. -/
theorem test_reset : shows (exec .reset (raiseFault .stage 0x40000000 (opened .intra .raw)))
    (fun t => (csrRead 1 t, csrRead 2 t)) = some (0, 0) := by decide
/-- R58, R59: registers of an open P frame. -/
theorem test_csrRead : let s := { opened .predicted .raw with
      refValid := true, picw := 22, pich := 18, mv := Vector.ofFn fun q : Fin 4 => (⟨-1, BitVec.ofNat 8 q⟩ : MotionVec) }
    csrRead 1 s = 0x1D ∧ csrRead 4 s = 0x1216 ∧ csrRead 0x13 s = 0x03FF ∧ csrRead 0x0C s = 1 := by decide
/-- The host's hook: a table row's word is the next step's command. -/
theorem test_withFetchWord : shows (step (State.reset.withFetchWord 32 0x0300000A)) (·.qp) = some 10 := by decide

/-! Witnesses: concrete states and operands that meet all the hypotheses of an obligation together, at boundary values
where a clause has a range -/

/-- The state with one operation on the port. -/
def hosted (op : HostOp) (s : State) : State := { s with port := [op] }

theorem filled_val (ft : FrameType) (st : Stage) {v : Int} (h1 : -32768 ≤ v) (h2 : v ≤ 32767) {p : Plane} {r c : Nat}
    (hr : r < p.size) (hc : c < p.size) : (filled ft st v).mbuf.val p r c = v :=
  setMbuf_val _ _ hr hc h1 h2

theorem witness_DecodeOfEncodeIsTheCommand :
    (Instr.setDim 255 0).wellFormed = true ∧ (Instr.setIint 65535).wellFormed = true ∧ (Instr.setFeat 15).wellFormed = true ∧
    (Instr.setOvh 16777215).wellFormed = true ∧ Instr.reset.wellFormed = true := by decide
theorem witness_EncodeOfDecodeIsTheWord : decode 0x0100FFFF = .ok (.setDim 255 255) := by decide
theorem witness_DecodingIsTotalAndUnambiguous :
    (∃ row ∈ opcodeMap, (0x02001100 : Word) &&& row.mask = row.pattern) ∧
    ∀ row ∈ opcodeMap, (0x14000000 : Word) &&& row.mask ≠ row.pattern := by
  refine ⟨⟨⟨0x02000000, 0xFFFF0000, fun w => .setWin (argField w 0 8) (argField w 8 8)⟩, by simp [opcodeMap, configRows],
    by decide⟩, ?_⟩
  simp only [opcodeMap, configRows, commandRows, List.cons_append, List.nil_append, List.forall_mem_cons]
  refine ⟨?_, ?_, ?_, ?_, ?_, ?_, ?_, ?_, ?_, ?_, ?_, ?_, ?_, ?_, ?_, ?_, ?_, ?_, ?_, ?_, ?_, ?_⟩ <;> decide
theorem witness_StepRunsTheDecodedCommand :
    (hosted (.cmdWrite 0x0300000A) State.reset).port = .cmdWrite 0x0300000A :: [] ∧ decode 0x0300000A = .ok (.setQp 10) := by
  decide
theorem witness_EmptyPortWaits : (opened .intra .raw).port = [] := rfl
theorem witness_IllegalWordFaults :
    (hosted (.cmdWrite 0x14000000) (opened .intra .raw)).port = [.cmdWrite 0x14000000] ∧
    decode 0x14000000 = .error .unknownOpcode ∧ (opened .intra .raw).phase ≠ .halt := by decide
theorem witness_HaltIgnoresEveryWordButReset :
    (hosted (.cmdWrite 0xFF000001) (raiseFault .stage 0 State.reset)).port = [.cmdWrite 0xFF000001] ∧
    (raiseFault .stage 0 State.reset).phase = .halt ∧ (0xFF000001 : Word) ≠ 0xFF000000 := by decide
theorem witness_FaultWritesOnlyTheFaultRegisters :
    shows (step (hosted (.cmdWrite 0x07000000) State.reset)) (·.phase) = some .halt ∧ State.reset.phase ≠ .halt := by decide
theorem witness_WrongPhaseFaults :
    (.install ∈ frameCommands ∧ between.phase ≠ .halt ∧ ¬ FrameIsOpen between) ∧
    ((opened .intra .raw).phase ≠ .halt ∧ ¬ ((opened .intra .raw).phase = .run ∧ (opened .intra .raw).fopen = false)) ∧
    (configures (.setQp 255) = true ∧ configures .start = true ∧ between.phase = .run) := by decide
theorem witness_WrongFrameTypeFaults :
    (Instr.mcRecon, FrameType.predicted) ∈ ftypeTable ∧ FrameIsOpen (opened .intra .raw) ∧
    (opened .intra .raw).ftype ≠ .predicted := by decide
theorem witness_WrongStageFaults :
    ((Instr.mcPred, Stage.raw) ∈ stageTable ∧ FrameIsOpen (opened .predicted .resid) ∧
      (∀ ft, (Instr.mcPred, ft) ∈ ftypeTable → (opened .predicted .resid).ftype = ft) ∧
      (opened .predicted .resid).stage ≠ .raw) ∧
    (FrameIsOpen (opened .intra .ires) ∧ (opened .intra .ires).stage ≠ .empty ∧ (opened .intra .ires).stage ≠ .recon) := by
  refine ⟨⟨by decide, by decide, ?_, by decide⟩, by decide⟩
  intro ft h; cases ft
  · exact absurd h (by decide)
  · rfl
theorem witness_FrameBoundaryFaults :
    (FrameIsOpen (opened .intra .recon) ∧
      (opened .intra .recon).mbidx.toNat ≠ (opened .intra .recon).picw.toNat * (opened .intra .recon).pich.toNat) ∧
    (let s := { opened .intra .recon with mbidx := 1 }
     FrameIsOpen s ∧ (s.stage = .empty ∨ s.stage = .recon) ∧ s.picw.toNat * s.pich.toNat ≤ s.mbidx.toNat) := by decide
theorem witness_ConfigurationWrites :
    State.reset.phase = .config ∧ configures (.setOvh 16777215) = true ∧ between.phase = .run := by decide
/-- Each clause of START at the edge of its range: QP 1 and 53 fail, 2 and 52 pass, and so on. -/
theorem witness_StartChecksThenRuns :
    (between.phase = .run ∧ configured.phase = .config) ∧
    (¬ (2 ≤ ({ configured with qp := 1 } : State).qp.toNat) ∧ ¬ (({ configured with qp := 53 } : State).qp.toNat ≤ 52)) ∧
    (let s := { configured with qp := 52, pich := 0 }
     (2 ≤ s.qp.toNat ∧ s.qp.toNat ≤ 52) ∧ ¬ (1 ≤ s.picw.toNat ∧ 1 ≤ s.pich.toNat)) ∧
    (let s := { configured with winy := 17 }
     (2 ≤ s.qp.toNat ∧ s.qp.toNat ≤ 52) ∧ (1 ≤ s.picw.toNat ∧ 1 ≤ s.pich.toNat) ∧
       ¬ (s.winx.toNat ≤ 16 ∧ s.winy.toNat ≤ 16)) ∧
    (let s := { configured with winx := 16, iint := 0 }
     (2 ≤ s.qp.toNat ∧ s.qp.toNat ≤ 52) ∧ (1 ≤ s.picw.toNat ∧ 1 ≤ s.pich.toNat) ∧
       (s.winx.toNat ≤ 16 ∧ s.winy.toNat ≤ 16) ∧ s.iint.toNat = 0) ∧
    ConfigLegal configured ∧ ConfigLegal { configured with qp := 52, picw := 255, pich := 255, winx := 16, winy := 16 } := by
  decide
theorem witness_BeginFrameOpensTheFrame :
    (let s := { between with src := [grey 7] }
     s.phase = .run ∧ s.fopen = false ∧ s.src = grey 7 :: [] ∧ (grey 7).shaped s = true) := by decide +kernel
theorem witness_EndOfStreamIsNoFault :
    between.phase = .run ∧ between.fopen = false ∧ between.src = [] ∧ Instr.emit ∈ frameCommands := by decide
theorem witness_BeginFrameRefusesMisshapedPicture :
    (let s := { between with src := [grey 7], picw := 2 }
     s.phase = .run ∧ s.fopen = false ∧ s.src = grey 7 :: [] ∧ (grey 7).shaped s = false) := by decide +kernel
theorem witness_LoadMbBringsTheMacroblock :
    (let s := opened .intra .empty
     FrameIsOpen s ∧ s.stage = .empty ∧ s.mbidx.toNat < nmb s ∧ s.cur = some (grey 100) ∧ (grey 100).shaped s = true) ∧
    (opened .predicted .recon).stage = .recon := by decide +kernel
theorem witness_EmitAppendsTheRecord :
    (FrameIsOpen (opened .intra .quant) ∧ (opened .intra .quant).stage = .quant) ∧
    (FrameIsOpen (opened .predicted .quant) ∧ (opened .predicted .quant).stage = .quant) := by decide
theorem witness_InstallReplacesTheReference :
    (let s := { opened .intra .recon with mbidx := 1 }
     FrameIsOpen s ∧ s.mbidx.toNat = nmb s ∧ 1 ≤ s.iint.toNat) := by decide
theorem witness_IntraPredSubtractsTheBestCandidate :
    (let s := filled .intra .raw 255
     FrameIsOpen s ∧ s.ftype = .intra ∧ s.stage = .raw ∧ enIntra s = true ∧ s.mbidx.toNat < nmb s) ∧
    ∀ p : Plane, ∀ r < p.size, ∀ c < p.size,
      0 ≤ (filled .intra .raw 255).mbuf.val p r c ∧ (filled .intra .raw 255).mbuf.val p r c ≤ 255 := by
  refine ⟨by decide, fun p r hr c hc => ?_⟩
  rw [filled_val _ _ (by decide) (by decide) hr hc]; decide
theorem witness_IntraPredPassThrough :
    (let s := bypassed .intra .raw
     FrameIsOpen s ∧ s.ftype = .intra ∧ s.stage = .raw ∧ enIntra s = false) := by decide
theorem witness_IntraReconStoresTheMacroblock :
    (let s := filled .intra .ires (-28)
     FrameIsOpen s ∧ s.ftype = .intra ∧ s.stage = .ires ∧ s.mbidx.toNat < nmb s) := by decide
/-- R130 (d): edge registers all 9. -/
theorem witness_CandidatesFromTheEdges :
    (let n := EdgeChannel.mk (n := 8) (Vector.replicate 8 9) (Vector.replicate 8 9) 9
     let e : Edge := ⟨EdgeChannel.mk (Vector.replicate 16 9) (Vector.replicate 16 9) 9, n, n⟩
     (∀ j < Plane.size .y, e.top .y j = 9) ∧ (∀ i < Plane.size .y, e.left .y i = 9) ∧ e.corner .y = 9) := by decide
theorem witness_McPredSearchesAndSubtracts :
    (let s := filled .predicted .raw 0
     FrameIsOpen s ∧ s.ftype = .predicted ∧ s.stage = .raw ∧ enMc s = true ∧ s.mbidx.toNat < nmb s) ∧
    ∀ p : Plane, ∀ r < p.size, ∀ c < p.size,
      0 ≤ (filled .predicted .raw 0).mbuf.val p r c ∧ (filled .predicted .raw 0).mbuf.val p r c ≤ 255 := by
  refine ⟨by decide, fun p r hr c hc => ?_⟩
  rw [filled_val _ _ (by decide) (by decide) hr hc]; decide
theorem witness_McPredPassThrough :
    (let s := bypassed .predicted .raw
     FrameIsOpen s ∧ s.ftype = .predicted ∧ s.stage = .raw ∧ enMc s = false) := by decide
/-- The zero vectors stay inside SB whatever the window is. -/
theorem witness_McReconStoresTheMacroblock :
    (let s := filled .predicted .ires 0
     FrameIsOpen s ∧ s.ftype = .predicted ∧ s.stage = .ires ∧ s.mbidx.toNat < nmb s ∧
       enMc s = true ∧ vectorsReach s = true) := by decide
theorem witness_PredictionReadsTheStores :
    (let s := { opened .predicted .raw with picw := 255, pich := 255, mbidx := 65024 }
     s.mbidx.toNat < nmb s) ∧ Plane.cr ≠ .y := by decide
theorem witness_SearchEndsAtAReachableCandidate :
    wholeBlock ∈ [wholeBlock, quadrant 0, quadrant 1, quadrant 2, quadrant 3] ∧
    quadrant 3 ∈ [wholeBlock, quadrant 0, quadrant 1, quadrant 2, quadrant 3] := by decide
theorem witness_QuantizerPairProperties : (1 ≤ 1 ∧ 1 ≤ 52) ∧ ((-1 : Int) ≤ 0) := by decide
theorem witness_DiagonalSeedsAndPropagation : 2 ≤ 7 ∧ 7 < Plane.size .cb ∧ 15 < Plane.size .y := by decide
theorem witness_CandidatesAreSamples : 15 < Plane.size .y ∧ 7 < Plane.size .cr := by decide
/-- The corner neighbour of the first iteration is reachable in a window of 4 and not in one of 3. -/
theorem witness_IterationAdoptsOnlyStrictImprovement :
    reach { opened .predicted .raw with winx := 4, winy := 4 } wholeBlock (0 + -1 * 4) (0 + -1 * 4) = true ∧
    reach { opened .predicted .raw with winx := 3, winy := 4 } wholeBlock (0 + -1 * 4) (0 + -1 * 4) = false := by decide
/-- A black macroblock on a black search buffer. -/
theorem witness_PerfectMatchStaysUnsplit :
    (let s := { filled .predicted .raw 0 with sb := ⟨Memory.table 16 16 fun _ _ => 0, 2⟩ }
     motionSse s wholeBlock 0 0 = 0 ∧ motionSse s (quadrant 3) 0 0 = 0) := by decide +kernel
theorem witness_FdctTransformsEveryBlock :
    (FrameIsOpen (opened .intra .resid) ∧ (opened .intra .resid).stage = .resid ∧ enT (opened .intra .resid) = true) ∧
    (FrameIsOpen (bypassed .predicted .resid) ∧ (bypassed .predicted .resid).stage = .resid ∧
      enT (bypassed .predicted .resid) = false) := by decide
theorem witness_IdctInvertsEveryBlock :
    (FrameIsOpen (opened .intra .deq) ∧ (opened .intra .deq).stage = .deq) ∧
    (FrameIsOpen (bypassed .intra .deq) ∧ (bypassed .intra .deq).stage = .deq) := by decide
theorem witness_QuantDividesEveryWord :
    (let s := { opened .intra .xform with qp := 1 }
     FrameIsOpen s ∧ s.stage = .xform ∧ 1 ≤ s.qp.toNat) := by decide
theorem witness_DequantMultipliesEveryLevel :
    (FrameIsOpen (opened .intra .sent) ∧ (opened .intra .sent).stage = .sent ∧ enQ (opened .intra .sent) = true) ∧
    enQ (bypassed .intra .sent) = false := by decide
theorem witness_TransformRoundTripIsExact :
    (∀ r < 8, ∀ c < 8, |(fun _ _ => -255 : Block) r c| ≤ 255) ∧
    (let s := { filled .intra .resid (-255) with feat := 4 }
     FrameIsOpen s ∧ s.stage = .resid ∧ enQ s = false ∧ enT s = true) ∧
    ∀ p : Plane, ∀ r < p.size, ∀ c < p.size, |({ filled .intra .resid (-255) with feat := 4 } : State).mbuf.val p r c| ≤ 255 := by
  refine ⟨by simp, by decide, fun p r hr c hc => ?_⟩
  rw [show ({ filled .intra .resid (-255) with feat := 4 } : State).mbuf = (filled .intra .resid (-255)).mbuf from rfl,
    filled_val _ _ (by decide) (by decide) hr hc]
  simp
theorem witness_TransformBounds :
    (∀ r < 8, ∀ c < 8, |(fun _ _ => 255 : Block) r c| ≤ 255) ∧ (∀ u < 8, ∀ v < 8, |(fun _ _ => -16528 : Block) u v| ≤ 16528) := by
  simp
theorem witness_ConfigurationFrozenUntilReset :
    shows (step (hosted (.cmdWrite 0x03000005) between)) (·.qp) = some 10 ∧ between.phase ≠ .config := by decide
theorem witness_StoresChangeOnlyByTheirCommands :
    (∃ t, exec .fdct (opened .intra .resid) = .next t) ∧ Instr.fdct ≠ .reset := ⟨⟨_, rfl⟩, by decide⟩
theorem witness_RegistersChangeOnlyByTheirCommands :
    (∃ t, exec .loadMb { opened .intra .recon with eos := true, sat := true } = .next t) ∧ Instr.loadMb ≠ .reset ∧
    (let h := raiseFault .stage 0x40000000 (opened .intra .raw)
     h.phase = .halt ∧ ∃ t, exec .fdct h = .next t) :=
  ⟨⟨_, rfl⟩, by decide, rfl, _, rfl⟩
theorem witness_StageAdvancesMonotonically :
    (∃ t, exec .quant (opened .intra .xform) = .next t) ∧ Instr.quant ≠ .reset := ⟨⟨_, rfl⟩, by decide⟩
theorem witness_OutputIsAppendOnly :
    shows (step (hosted (.cmdWrite 0x10000000) { between with src := [grey 7] })) (·.out) = some [1, 1, 10, 2, 15] := by
  decide +kernel

/-! Witnesses of the invariants: an open I frame and an open P frame, one macroblock loaded -/

/-- A reference picture whose one macroblock is stored. -/
def stored : Store := storeMacroblock (opened .intra .empty)

/-- The states a macroblock is predicted from. -/
def rawI : State := filled .intra .raw 100
def rawP : State := { filled .predicted .raw 100 with refValid := true, ipos := 1, refStore := stored }

theorem rawI_sequencer : SequencerInv rawI := by
  constructor <;> decide
theorem rawP_sequencer : SequencerInv rawP := by
  constructor <;> decide

theorem stored_covers (s : State) (hw : s.picw = 1) : MacroblockStored stored s 0 := by
  intro p r hr c hc
  have h := storeMacroblock_read_same (s := opened .intra .empty) (by decide) hr hc
  have h1 : mbRow (opened .intra .empty) p = 0 := by cases p <;> decide
  have h2 : mbCol (opened .intra .empty) p = 0 := by cases p <;> decide
  rw [h1, h2] at h
  simp only [hw, Nat.zero_div, Nat.zero_mod, Nat.mul_zero, stored]
  rw [h]; rfl

theorem rawI_run : RunInv rawI where
  sequencer := rawI_sequencer
  coverage := ⟨fun _ _ m hm => absurd hm (by simp [rawI, filled, setMbuf, opened, State.reset]), fun _ h => absurd h (by decide)⟩
  datapath := by constructor <;> decide
  range := ⟨by
    intro _ lo hi h p r hr c hc
    have e : stageRange (enQ rawI) rawI.stage = some (0, 255) := rfl
    rw [e] at h; cases h
    rw [rawI, filled_val _ _ (by decide) (by decide) hr hc]; decide, fun _ _ h => absurd h (by decide), rfl⟩

theorem rawP_run : RunInv rawP where
  sequencer := rawP_sequencer
  coverage := ⟨fun _ _ m hm => absurd hm (by simp [rawP, filled, setMbuf, opened, State.reset]), fun _ _ m hm => by
    have h0 : m = 0 := by
      have e : nmb rawP = 1 := by decide
      omega
    rw [h0]; exact stored_covers rawP rfl⟩
  datapath := by constructor <;> decide
  range := ⟨by
    intro _ lo hi h p r hr c hc
    have e : stageRange (enQ rawP) rawP.stage = some (0, 255) := rfl
    rw [e] at h; cases h
    rw [show rawP.mbuf = (filled .predicted .raw 100).mbuf from rfl, filled_val _ _ (by decide) (by decide) hr hc]
    decide, fun _ _ h => absurd h (by decide), rfl⟩

theorem witness_ReconstructionClosesTheLoop :
    (RunInv rawI ∧ FrameIsOpen rawI ∧ rawI.stage = .raw ∧ rawI.ftype = .intra) ∧
    (RunInv rawP ∧ FrameIsOpen rawP ∧ rawP.stage = .raw ∧ rawP.ftype = .predicted) :=
  ⟨⟨rawI_run, by decide, rfl, rfl⟩, rawP_run, by decide, rfl, rfl⟩

/-- A run's state with the command that is next. -/
def next (w : Word) (s : State) : State := hosted (.cmdWrite w) s

theorem witness_SequencingInvariantKept :
    SequencerInv (next 0x20000000 rawI) ∧ ∃ t, step (next 0x20000000 rawI) = .next t := by
  refine ⟨?_, _, rfl⟩
  have h := rawI_sequencer
  exact ⟨h.1, h.2, h.3, h.4, h.5, h.6, h.7, h.8, h.9, h.10, h.11, h.12, h.13⟩

/-- After BEGIN_FRAME's header, no record has been pushed yet. -/
theorem witness_RecordCountKept :
    (let s := { rawI with out := frameHeader rawI }
     SequencerInv s ∧ OutputInv s) := by
  have h := rawI_sequencer
  exact ⟨⟨h.1, h.2, h.3, h.4, h.5, h.6, h.7, h.8, h.9, h.10, h.11, h.12, h.13⟩, fun _ _ => ⟨[], [], rfl, rfl⟩⟩

theorem next_run (w : Word) {s : State} (h : RunInv s) : RunInv (next w s) := by
  obtain ⟨⟨a1, a2, a3, a4, a5, a6, a7, a8, a9, a10, a11, a12, a13⟩, ⟨b1, b2⟩, ⟨c1, c2, c3, c4, c5⟩, ⟨d1, d2, d3⟩⟩ := h
  exact ⟨⟨a1, a2, a3, a4, a5, a6, a7, a8, a9, a10, a11, a12, a13⟩, ⟨b1, b2⟩, ⟨c1, c2, c3, c4, c5⟩, ⟨d1, d2, d3⟩⟩

theorem witness_RunInvariantKept :
    RunInv (next 0x30000000 rawP) ∧ ∃ t, step (next 0x30000000 rawP) = .next t := ⟨next_run _ rawP_run, _, rfl⟩

theorem witness_MemoryStaysCanonical :
    MemoryInv (next 0x30000000 rawP) ∧ ∃ t, step (next 0x30000000 rawP) = .next t :=
  ⟨⟨Memory.wf_nil, wf_storeMacroblock Memory.wf_nil, Memory.wf_nil⟩, _, rfl⟩

theorem witness_NoRunIndexesOutsideAStore :
    (SequencerInv rawI ∧ DatapathInv rawI) ∧
    (∃ r, step (hosted (.cmdWrite 0x10000000) { between with src := [grey 7], picw := 2 }) = .refused r) :=
  ⟨⟨rawI_run.sequencer, rawI_run.datapath⟩, .pictureNotOfConfiguredSize, rfl⟩

/-- Two states that differ in EDGE, SB and the tags of their unspecified contents. -/
theorem witness_UnspecifiedContentsNeverMatter :
    (let t := { next 0x30000000 rawP with
       sb := ⟨[(0, 1)], 8⟩, recStore := ⟨[], 9⟩, fillNext := 10, edge := unspecifiedEdge 5 }
     RunInv (next 0x30000000 rawP) ∧ RunInv t ∧ SameSpecified (next 0x30000000 rawP) t ∧
       ∃ s', step (next 0x30000000 rawP) = .next s') := by
  refine ⟨next_run _ rawP_run, ?_, ?_, _, rfl⟩
  · obtain ⟨⟨a1, a2, a3, a4, a5, a6, a7, a8, a9, a10, a11, a12, a13⟩, ⟨b1, b2⟩, ⟨c1, c2, c3, c4, c5⟩, ⟨d1, d2, d3⟩⟩ :=
      next_run 0x30000000 rawP_run
    exact ⟨⟨a1, a2, a3, a4, a5, a6, a7, a8, a9, a10, a11, a12, a13⟩,
      ⟨fun _ _ m hm => absurd hm (by simp [next, hosted, rawP, filled, setMbuf, opened, State.reset]), b2⟩,
      ⟨fun _ _ h => absurd h (by decide), fun _ _ _ _ h => absurd h (by decide), c3, c4, c5⟩, ⟨d1, d2, d3⟩⟩
  · exact ⟨rfl, fun _ => rfl, fun _ _ h => absurd h (by decide), fun _ _ _ _ h => absurd h (by decide), fun _ => rfl,
      fun _ => rfl⟩

end Sys2Proof.Tests
end

section
/-! PROOFS. The scope's one step per command (00_scope.md R3). -/

namespace Sys2Proof.Machine

/-- What a step does when the host's oldest operation is a command word, legal or not (00_scope.md R3, 10_state.md R57). -/
theorem step_cmdWrite {s : State} {w : Word} {rest : List HostOp} (hport : s.port = .cmdWrite w :: rest) :
    step s = cmdWrite w { s with port := rest } :=
  performNext_cons hport

/-- Settles O6: the step performs the command word at the head of the port, and a word that decodes is run by `exec`. -/
theorem stepRunsTheDecodedCommand : Obligations.StepRunsTheDecodedCommand := by
  intro s w rest i hport hdecode
  calc step s = cmdWrite w { s with port := rest } := step_cmdWrite hport
    _ = exec i { s with port := rest } := cmdWrite_ok hdecode _

end Sys2Proof.Machine
end

section
/-! PROOFS. What a step and a decoded word can be (00_scope.md R3, 10_state.md R57, 30_encoding.md R103). -/

namespace Sys2Proof.Machine

/-- A step that gives a next state waited, was a reset, ran a command, or met an illegal word, which HALT ignores. -/
theorem step_next {s t : State} (h : step s = .next t) :
    (s.port = [] ∧ t = s) ∨
    (∃ rest, s.port = .hardReset :: rest ∧ exec .reset { s with port := rest } = .next t) ∨
    (∃ w rest i, s.port = .cmdWrite w :: rest ∧ decode w = .ok i ∧ exec i { s with port := rest } = .next t) ∨
    (∃ w rest, s.port = .cmdWrite w :: rest ∧
      (t = { s with port := rest } ∨ t = raiseFault .illegal w { s with port := rest })) := by
  rw [step] at h
  cases hport : s.port with
  | nil => rw [performNext_nil hport] at h; cases h; exact .inl ⟨rfl, rfl⟩
  | cons op rest =>
    right
    rw [performNext_cons hport] at h
    cases op with
    | hardReset => exact .inl ⟨rest, rfl, h⟩
    | cmdWrite w =>
      right
      rw [hostOp] at h
      cases hw : decode w with
      | ok i => exact .inl ⟨w, rest, i, rfl, hw, by rwa [cmdWrite_ok hw] at h⟩
      | error e =>
        rw [cmdWrite_error hw] at h
        refine .inr ⟨w, rest, rfl, ?_⟩
        split at h <;> cases h
        · exact .inl rfl
        · exact .inr rfl

/-- A word that decodes satisfies a row of the opcode map, and is the command that row builds (R103, R105). -/
theorem exists_row_of_decode {w : Word} {i : Instr} (h : decode w = .ok i) :
    ∃ row ∈ opcodeMap, w &&& row.mask = row.pattern ∧ row.build w = i := by
  rw [decode] at h
  cases hrow : opcodeMap.find? (fun row => row.matches w) with
  | none => rw [hrow] at h; cases h
  | some row =>
    rw [hrow] at h; cases h
    have hm := List.find?_some hrow
    exact ⟨row, List.mem_of_find?_eq_some hrow, by simpa [OpcodeRow.matches] using hm, rfl⟩

/-- Every row of the opcode map but the configuration commands' is of format Z: one word, the command's own (R101). -/
theorem row_configures_or_formatZ (w : Word) :
    ∀ row ∈ opcodeMap, configures (row.build w) = true ∨
      (row.mask = BitVec.allOnes 32 ∧ row.pattern = encode (row.build w)) := by
  simp only [opcodeMap, configRows, commandRows, List.cons_append, List.nil_append, List.forall_mem_cons]
  simp [configures, encode]

/-- Only one word decodes to a command of format Z. -/
theorem word_of_decode {w : Word} {i : Instr} (h : decode w = .ok i) (hi : configures i = false) : w = encode i := by
  obtain ⟨row, hrow, hmatch, rfl⟩ := exists_row_of_decode h
  rcases row_configures_or_formatZ w row hrow with hc | ⟨hmask, hpattern⟩
  · simp [hi] at hc
  · rw [← hpattern, ← hmatch, hmask, BitVec.and_allOnes]

end Sys2Proof.Machine
end

section
/-! PROOFS. Who writes what: the registers, stores and streams each command owns, said once over the commands' effects
(10_state.md R36, R40 to R56). -/

namespace Sys2Proof.Machine

/-- From `s` to `t` nothing changed that the command `i`, which is not RESET, does not own; the fault registers and PHASE's
way into HALT belong to its fault (60_exceptions.md R232). -/
structure OwnWrites (i : Instr) (s t : State) : Prop where
  port : t.port = s.port
  src : t.src = s.src ∨ i = .beginFrame
  cur : t.cur = s.cur ∨ i = .beginFrame ∨ i = .install
  out : t.out = s.out ∨ ((i = .beginFrame ∨ i = .emit) ∧ s.out <+: t.out)
  config : s.phase = .config ∨ (t.picw = s.picw ∧ t.pich = s.pich ∧ t.winx = s.winx ∧ t.winy = s.winy ∧ t.qp = s.qp ∧
    t.iint = s.iint ∧ t.feat = s.feat ∧ t.ovh = s.ovh)
  phase : t.phase = s.phase ∨ (i = .start ∧ s.phase = .config ∧ t.phase = .run) ∨
    (s.phase ≠ .halt ∧ t.phase = .halt ∧ t.errCode ≠ .ok ∧ t.errCmd = encode i)
  fault : (t.errCode = s.errCode ∧ t.errCmd = s.errCmd) ∨ (s.phase ≠ .halt ∧ t.phase = .halt)
  fopen : t.fopen = s.fopen ∨ i = .beginFrame ∨ i = .install
  ftype : t.ftype = s.ftype ∨ i = .beginFrame
  stage : t.stage = s.stage ∨ (t.stage.code = s.stage.code + 1 ∧ s.stage ≠ .empty ∧ s.stage ≠ .recon) ∨
    (i = .loadMb ∧ (s.stage = .empty ∨ s.stage = .recon) ∧ t.stage = .raw) ∨
    ((i = .beginFrame ∨ i = .install) ∧ t.stage = .empty)
  mbidx : t.mbidx = s.mbidx ∨ i ∈ [.beginFrame, .intraRecon, .mcRecon]
  ipos : t.ipos = s.ipos ∨ i = .start ∨ i = .install
  eos : t.eos = s.eos ∨ i = .beginFrame
  eosSticky : s.eos = true → t.eos = true
  mode : t.mode = s.mode ∨ i = .loadMb ∨ i = .intraPred
  part : t.part = s.part ∨ i = .loadMb ∨ i = .mcPred
  mv : t.mv = s.mv ∨ i = .loadMb ∨ i = .mcPred
  mbqp : t.mbqp = s.mbqp ∨ i = .loadMb ∨ i = .quant
  costs : (t.cost0 = s.cost0 ∧ t.cost1 = s.cost1) ∨ i = .loadMb ∨ i = .mcPred
  refValid : t.refValid = s.refValid ∨ i = .start ∨ i = .install
  sbValid : t.sbValid = s.sbValid ∨ i ∈ [.mcPred, .beginFrame, .install, .loadMb]
  sat : t.sat = s.sat ∨ i ∈ [.fdct, .idct, .dequant]
  satSticky : s.sat = true → t.sat = true
  mbuf : t.mbuf = s.mbuf ∨
    i ∈ [.loadMb, .intraPred, .mcPred, .fdct, .quant, .dequant, .idct, .intraRecon, .mcRecon]
  edge : t.edge = s.edge ∨ (i = .intraPred ∧ enIntra s = true)
  sb : t.sb = s.sb ∨ (i = .mcPred ∧ enMc s = true)
  refStore : t.refStore = s.refStore ∨ i = .install ∨ i = .start
  recStore : t.recStore = s.recStore ∨ i ∈ [.intraRecon, .mcRecon, .install, .start]

theorem OwnWrites.refl (i : Instr) (s : State) : OwnWrites i s s := by
  constructor <;> simp

theorem OwnWrites.raiseFault (i : Instr) {code : ErrCode} {s : State} (hs : s.phase ≠ .halt) (hcode : code ≠ .ok) :
    OwnWrites i s (raiseFault code (encode i) s) := by
  constructor <;> simp [hs, hcode]

/-- A command's effect writes only what the command owns, one case per row of 45_sequencer.md R200. -/
theorem ownWrites_of_effect {i : Instr} {s t : State} (h : Effect i s t) (hi : i ≠ .reset) : OwnWrites i s t := by
  cases i with
  | reset => exact absurd rfl hi
  | nop => cases h; exact .refl _ _
  | setDim | setWin | setQp | setIint | setFeat | setOvh =>
    obtain ⟨hphase, rfl⟩ := h; constructor <;> simp [hphase]
  | start => obtain ⟨hphase, -, rfl⟩ := h; constructor <;> simp [hphase]
  | beginFrame => obtain ⟨-, ⟨-, rfl⟩ | ⟨pic, rest, -, -, rfl⟩⟩ := h <;> constructor <;> simp
  | loadMb => obtain ⟨-, hstage, -, pic, -, -, rfl⟩ := h; constructor <;> simp [hstage]
  | emit | install => obtain ⟨-, hcheck, rfl⟩ := h; constructor <;> simp [hcheck, Stage.code]
  | intraPred | mcPred =>
    obtain ⟨-, -, hstage, ⟨hen, -, rfl⟩ | ⟨hen, rfl⟩⟩ := h <;> constructor <;> simp [hstage, hen, Stage.code]
  | intraRecon => obtain ⟨-, -, hstage, -, rfl⟩ := h; constructor <;> simp [hstage, Stage.code]
  | mcRecon => obtain ⟨-, -, hstage, -, -, rfl⟩ := h; constructor <;> simp [hstage, Stage.code]
  | fdct | idct =>
    obtain ⟨-, hstage, rfl⟩ := h
    constructor <;> simp +contextual [hstage, Stage.code]
  | quant | dequant =>
    obtain ⟨-, hstage, rfl⟩ := h
    cases enQ s <;> constructor <;> simp +contextual [hstage, Stage.code]

/-- Every command but RESET writes only what it owns, or faults. -/
theorem ownWrites_of_exec {i : Instr} {s t : State} (h : exec i s = .next t) (hi : i ≠ .reset) : OwnWrites i s t := by
  rcases exec_next h with ⟨-, -, rfl⟩ | ⟨hs, code, hcode, rfl⟩ | ⟨-, he⟩ | ⟨hr, -⟩
  · exact .refl _ _
  · exact .raiseFault i hs hcode
  · exact ownWrites_of_effect he hi
  · exact absurd hr hi

/-- Settles O50: each store and stream is among what the command owns. -/
theorem storesChangeOnlyByTheirCommands : Obligations.StoresChangeOnlyByTheirCommands := by
  intro i s t h hi
  have w := ownWrites_of_exec h hi
  exact ⟨w.mbuf, w.edge, w.sb, w.refStore, w.recStore, w.src, w.cur, w.out.imp_right And.left, w.port⟩

/-- In HALT a command other than RESET changes nothing (R241). -/
theorem eq_of_exec_halt {i : Instr} {s t : State} (h : exec i s = .next t) (hi : i ≠ .reset) (hs : s.phase = .halt) :
    t = s := by
  rcases exec_next h with ⟨-, -, ht⟩ | ⟨hn, -⟩ | ⟨hn, -⟩ | ⟨hr, -⟩
  · exact ht
  · exact absurd hs hn
  · exact absurd hs hn
  · exact absurd hr hi

/-- Settles O51: each register and flag is among what the command owns, and HALT is left by no command but RESET. -/
theorem registersChangeOnlyByTheirCommands : Obligations.RegistersChangeOnlyByTheirCommands := by
  intro i s t h hi
  have w := ownWrites_of_exec h hi
  exact ⟨w.phase, eq_of_exec_halt h hi, w.fault, w.fopen, w.ftype, w.mbidx, w.ipos, w.eos, w.eosSticky, w.mode, w.part,
    w.mv, w.mbqp, w.costs, w.refValid, w.sbValid, w.sat, w.satSticky⟩

/-- Settles O52: STAGE's clause of what the command owns. -/
theorem stageAdvancesMonotonically : Obligations.StageAdvancesMonotonically :=
  fun _ _ _ h hi => (ownWrites_of_exec h hi).stage

/-- Settles O49: a command that decodes owns no configuration register outside CONFIG, unless its word is RESET's. -/
theorem configurationFrozenUntilReset : Obligations.ConfigurationFrozenUntilReset := by
  intro s t h hphase
  rcases step_next h with ⟨-, rfl⟩ | ⟨rest, hport, -⟩ | ⟨w, rest, i, hport, hw, he⟩ | ⟨w, rest, -, rfl | rfl⟩
  · simp
  · exact .inl ⟨rest, .inl hport⟩
  · by_cases hi : i = .reset
    · subst hi
      obtain rfl := word_of_decode hw rfl
      exact .inl ⟨rest, .inr hport⟩
    · exact .inr ((ownWrites_of_exec he hi).config.resolve_left hphase)
  · simp
  · simp

/-- Every command, RESET too, keeps OUT or is BEGIN_FRAME or EMIT and appends to it (R56). -/
theorem out_of_exec {i : Instr} {s t : State} (h : exec i s = .next t) :
    t.out = s.out ∨ ((i = .beginFrame ∨ i = .emit) ∧ s.out <+: t.out) := by
  by_cases hi : i = .reset
  · subst hi; cases h; exact .inl (resetEngine_out s)
  · exact (ownWrites_of_exec h hi).out

/-- Settles O53: only the words of BEGIN_FRAME and EMIT decode to a command that owns OUT, and these append. -/
theorem outputIsAppendOnly : Obligations.OutputIsAppendOnly := by
  intro s t h
  have hkept (hout : t.out = s.out) : s.out <+: t.out ∧
      (t.out ≠ s.out → ∃ w rest, s.port = .cmdWrite w :: rest ∧ (w = 0x10000000 ∨ w = 0x12000000)) :=
    ⟨hout ▸ ⟨[], List.append_nil _⟩, fun hne => absurd hout hne⟩
  rcases step_next h with ⟨-, rfl⟩ | ⟨rest, -, he⟩ | ⟨w, rest, i, hport, hw, he⟩ | ⟨w, rest, -, rfl | rfl⟩
  · exact hkept rfl
  · exact hkept ((out_of_exec he).resolve_right (by simp))
  · rcases out_of_exec he with hout | ⟨hi, happend⟩
    · exact hkept hout
    · refine ⟨happend, fun _ => ⟨w, rest, hport, ?_⟩⟩
      rcases hi with rfl | rfl
      · exact .inl (word_of_decode hw rfl)
      · exact .inr (word_of_decode hw rfl)
  · exact hkept rfl
  · exact hkept rfl

end Sys2Proof.Machine
end

section
/-! PROOFS. The stores' canonical form (log 4) and the invariants at reset (10_state.md R62, 45_sequencer.md R216). -/

namespace Sys2Proof.Machine

/-- The canonical form is a property of the three stores alone. -/
theorem MemoryInv.of_stores_eq {s t : State} (h : MemoryInv s) (hsb : t.sb = s.sb) (href : t.refStore = s.refStore)
    (hrec : t.recStore = s.recStore) : MemoryInv t :=
  ⟨hsb ▸ h.sb, href ▸ h.ref, hrec ▸ h.recon⟩

/-- After a reset the stores list nothing (R62). -/
theorem memoryInv_resetEngine (s : State) : MemoryInv (resetEngine s) :=
  ⟨Memory.wf_nil, Memory.wf_nil, Memory.wf_nil⟩

/-- The gathered search buffer is a table of at most 526 columns, so in canonical form (R142). -/
theorem wf_gatherSb (s : State) : Memory.wf (gatherSb s).cells :=
  Memory.wf_table _ _ (by have := s.winx.isLt; omega) _

/-- Every effect keeps the canonical form: a store is kept, emptied, replaced by another, gathered as a table, or written
sample by sample. -/
theorem memoryInv_of_effect {i : Instr} {s t : State} (h : Effect i s t) (hm : MemoryInv s) : MemoryInv t := by
  cases i with
  | reset => cases h; exact memoryInv_resetEngine s
  | start => obtain ⟨-, -, rfl⟩ := h; exact ⟨hm.sb, Memory.wf_nil, Memory.wf_nil⟩
  | install => obtain ⟨-, -, rfl⟩ := h; exact ⟨hm.sb, hm.recon, Memory.wf_nil⟩
  | intraRecon => obtain ⟨-, -, -, -, rfl⟩ := h; exact ⟨hm.sb, hm.ref, wf_storeMacroblock hm.recon⟩
  | mcRecon => obtain ⟨-, -, -, -, -, rfl⟩ := h; exact ⟨hm.sb, hm.ref, wf_storeMacroblock hm.recon⟩
  | mcPred =>
    obtain ⟨-, -, -, ⟨-, -, rfl⟩ | ⟨-, rfl⟩⟩ := h
    · exact ⟨wf_gatherSb s, hm.ref, hm.recon⟩
    · exact ⟨hm.sb, hm.ref, hm.recon⟩
  | nop | setDim | setWin | setQp | setIint | setFeat | setOvh | beginFrame | loadMb | emit | intraPred | fdct | idct
  | quant | dequant =>
    have w := ownWrites_of_effect h (by simp)
    exact hm.of_stores_eq (by simpa using w.sb) (by simpa using w.refStore) (by simpa using w.recStore)

/-- Every command keeps the canonical form, the fault writing no store. -/
theorem memoryInv_of_exec {i : Instr} {s t : State} (h : exec i s = .next t) (hm : MemoryInv s) : MemoryInv t := by
  rcases exec_next h with ⟨-, -, rfl⟩ | ⟨-, code, -, rfl⟩ | ⟨-, he⟩ | ⟨-, rfl⟩
  · exact hm
  · exact hm.of_stores_eq (raiseFault_sb _ _ _) (raiseFault_refStore _ _ _) (raiseFault_recStore _ _ _)
  · exact memoryInv_of_effect he hm
  · exact memoryInv_resetEngine s

/-- Settles O54: every command keeps the canonical form, and taking an operation off the port touches no store. -/
theorem memoryStaysCanonical : Obligations.MemoryStaysCanonical := by
  intro s t hm h
  have hport (rest : List HostOp) : MemoryInv { s with port := rest } := hm.of_stores_eq rfl rfl rfl
  rcases step_next h with ⟨-, rfl⟩ | ⟨rest, -, he⟩ | ⟨w, rest, i, -, -, he⟩ | ⟨w, rest, -, rfl | rfl⟩
  · exact hm
  · exact memoryInv_of_exec he (hport rest)
  · exact memoryInv_of_exec he (hport rest)
  · exact hport rest
  · exact hm.of_stores_eq (raiseFault_sb _ _ _) (raiseFault_refStore _ _ _) (raiseFault_recStore _ _ _)

/-- Every vector slot of four zero vectors is the zero vector. -/
theorem mvAt_of_zero {s : State} (h : s.mv = Vector.replicate 4 ⟨0, 0⟩) (q : Nat) : mvAt s q = ⟨0, 0⟩ := by
  rw [mvAt]
  split
  · simp [h]
  · rfl

/-- In CONFIG with the sequencer idle, no fault recorded, zero vectors and SAT 0, every invariant of a run holds: the other
clauses speak of RUN. -/
theorem runInv_of_config {s : State} (hphase : s.phase = .config)
    (hidle : s.fopen = false ∧ s.stage = .empty ∧ s.mbidx = 0 ∧ s.ipos = 0 ∧ s.eos = false)
    (herr : s.errCode = .ok) (hmv : s.mv = Vector.replicate 4 ⟨0, 0⟩) (hsat : s.sat = false) : RunInv s where
  sequencer := by constructor <;> simp [hphase, hidle, herr]
  coverage := by constructor <;> simp [hphase]
  datapath := by constructor <;> simp [hphase, mvAt_of_zero hmv, MotionVec.x, MotionVec.down]
  range := by constructor <;> simp [hphase, hsat]

/-- Out of RUN nothing is asked of OUT. -/
theorem outputInv_of_config {s : State} (hphase : s.phase = .config) : OutputInv s := by
  intro hrun
  rw [hphase] at hrun; cases hrun

/-- Settles O58: both reset states are in CONFIG with every register idle, and list no sample. -/
theorem resetEstablishesTheInvariants : Obligations.ResetEstablishesTheInvariants := by
  refine ⟨⟨?_, ⟨Memory.wf_nil, Memory.wf_nil, Memory.wf_nil⟩, outputInv_of_config rfl⟩,
    fun s => ⟨resetEngine s, rfl, ?_, memoryInv_resetEngine s, outputInv_of_config (resetEngine_phase s)⟩⟩
  · exact runInv_of_config rfl ⟨rfl, rfl, rfl, rfl, rfl⟩ rfl rfl rfl
  · exact runInv_of_config (by simp) (by simp) (by simp) (by simp) (by simp)

end Sys2Proof.Machine
end

section
/-! PROOFS. The register view: the values of R58, the MBUF window of R60 and the fields of STATUS (10_state.md R59). -/

namespace Sys2Proof.Machine

/-- Two registers of 8 bits side by side, as DIM, WIN and the vectors are read (R58). -/
theorem toNat_pair (hi lo : BitVec 8) : ((hi ++ lo).setWidth 32).toNat = 256 * hi.toNat + lo.toNat := by
  have hhi := hi.isLt
  have hlo := lo.isLt
  rw [BitVec.toNat_setWidth, BitVec.toNat_append, Nat.shiftLeft_eq, ← Nat.mul_comm (2 ^ 8),
    ← Nat.two_pow_add_eq_or_of_lt hlo]
  omega

theorem ErrCode.code_lt (e : ErrCode) : e.code < 11 := by cases e <;> decide
theorem Stage.code_lt (g : Stage) : g.code < 9 := by cases g <;> decide
theorem IntraMode.code_lt (m : IntraMode) : m.code < 4 := by cases m <;> decide
theorem Phase.code_lt (p : Phase) : p.code < 3 := by cases p <;> decide
theorem FrameType.code_lt (f : FrameType) : f.code < 2 := by cases f <;> decide

/-- The numbers below the MBUF window are those of the table's registers. -/
theorem csrRead_low {n : Nat} (h : n < 0x200) (s : State) : csrRead n s = csrLow n s := by
  simp [csrRead, h]

/-- The word the window shows at a plane's base plus the row-major number of row r, column c (R60). -/
theorem window_word (m : Mbuf) (p : Plane) (base : Nat) {r c : Nat} (hc : c < p.size) :
    tc32 (m.val p ((base + p.size * r + c - base) / p.size) ((base + p.size * r + c - base) % p.size)) =
      (m.word p r c).signExtend 32 := by
  have hrow : (p.size * r + c) / p.size = r := by
    rw [Nat.mul_add_div (by omega), Nat.div_eq_of_lt hc, Nat.add_zero]
  have hcol : (p.size * r + c) % p.size = c := by rw [Nat.mul_add_mod, Nat.mod_eq_of_lt hc]
  rw [Nat.add_assoc, Nat.add_sub_cancel_left, hrow, hcol]
  rfl

theorem csrRead_y (s : State) {r c : Nat} (hr : r < 16) (hc : c < 16) :
    csrRead (0x200 + 16 * r + c) s = (s.mbuf.word .y r c).signExtend 32 := by
  rw [csrRead, if_neg (by omega), if_pos (by omega)]
  exact window_word s.mbuf .y 0x200 hc

theorem csrRead_cb (s : State) {r c : Nat} (hr : r < 8) (hc : c < 8) :
    csrRead (0x300 + 8 * r + c) s = (s.mbuf.word .cb r c).signExtend 32 := by
  rw [csrRead, if_neg (by omega), if_neg (by omega), if_pos (by omega)]
  exact window_word s.mbuf .cb 0x300 hc

theorem csrRead_cr (s : State) {r c : Nat} (hr : r < 8) (hc : c < 8) :
    csrRead (0x340 + 8 * r + c) s = (s.mbuf.word .cr r c).signExtend 32 := by
  rw [csrRead, if_neg (by omega), if_neg (by omega), if_neg (by omega), if_pos (by omega)]
  exact window_word s.mbuf .cr 0x340 hc

/-- A number of no register reads 0 (U7). -/
theorem csrRead_unlisted (s : State) {n : Nat} (h : n = 0x0F ∨ (0x16 ≤ n ∧ n < 0x200) ∨ 0x380 ≤ n) :
    csrRead n s = 0 := by
  rcases h with rfl | ⟨hlo, hhi⟩ | hhi
  · rfl
  · rw [csrRead_low hhi]
    unfold csrLow
    split <;> try omega
    rfl
  · rw [csrRead, if_neg (by omega), if_neg (by omega), if_neg (by omega), if_neg (by omega)]

/-- The vector registers 0x10 to 0x13 (R58). -/
theorem csrRead_mv (s : State) {q : Nat} (hq : q < 4) :
    (csrRead (0x10 + q) s).toNat = 256 * (mvAt s q).dy.toNat + (mvAt s q).dx.toNat := by
  rw [← toNat_pair]
  interval_cases q <;> rfl

/-- Settles O47: the registers by their widths, the vectors, and the three planes of the window. -/
theorem csrReadReturnsTheRegisterTable : Obligations.CsrReadReturnsTheRegisterTable := by
  intro s
  have hcode {n b : Nat} (hn : n < b) (hb : b ≤ 2 ^ 32) : (BitVec.ofNat 32 n).toNat = n :=
    (BitVec.toNat_ofNat n 32).trans (Nat.mod_eq_of_lt (hn.trans_le hb))
  have hext {n : Nat} (hn : n ≤ 32) (x : BitVec n) : (x.setWidth 32).toNat = x.toNat :=
    BitVec.toNat_setWidth_of_le hn
  refine ⟨⟨rfl, rfl, hcode s.errCode.code_lt (by decide), rfl, toNat_pair _ _, toNat_pair _ _, hext (by decide) s.qp,
    hext (by decide) s.iint, hext (by decide) s.feat, hext (by decide) s.ovh, hext (by decide) s.ipos,
    hext (by decide) s.mbidx, hcode s.stage.code_lt (by decide), hcode s.mode.code_lt (by decide),
    hext (by decide) s.mbqp⟩, fun q hq => csrRead_mv s hq, rfl, rfl, fun r hr c hc => csrRead_y s hr hc,
    fun r hr c hc => ⟨csrRead_cb s hr hc, csrRead_cr s hr hc⟩, fun n hn => csrRead_unlisted s hn⟩

/-- STATUS as a number: PHASE's code below 4, then one flag to a bit, and nothing from bit 9 up (R59). -/
theorem statusWord_fields (s : State) :
    (statusWord s).toNat % 4 = s.phase.code ∧ (statusWord s).toNat / 2 ^ 2 % 2 = s.fopen.toNat ∧
    (statusWord s).toNat / 2 ^ 3 % 2 = s.ftype.code ∧ (statusWord s).toNat / 2 ^ 4 % 2 = s.refValid.toNat ∧
    (statusWord s).toNat / 2 ^ 5 % 2 = s.eos.toNat ∧ (statusWord s).toNat / 2 ^ 6 % 2 = s.sat.toNat ∧
    (statusWord s).toNat / 2 ^ 7 % 2 = s.part.toNat ∧ (statusWord s).toNat / 2 ^ 8 % 2 = s.sbValid.toNat ∧
    (statusWord s).toNat < 2 ^ 9 := by
  have hphase := s.phase.code_lt
  have hftype := s.ftype.code_lt
  have hfopen := s.fopen.toNat_le
  have href := s.refValid.toNat_le
  have heos := s.eos.toNat_le
  have hsat := s.sat.toNat_le
  have hpart := s.part.toNat_le
  have hsb := s.sbValid.toNat_le
  rw [statusWord, BitVec.toNat_ofNat]
  omega

/-- A word's bit is the flag whose value its number has there. -/
theorem getLsbD_eq_of_toNat {w : Word} {k : Nat} {b : Bool} (h : w.toNat / 2 ^ k % 2 = b.toNat) : w.getLsbD k = b := by
  rw [← BitVec.testBit_toNat, Nat.testBit_eq_decide_div_mod_eq, h]
  cases b <;> rfl

/-- FTYPE's code is 1 exactly in a P frame (R41). -/
theorem FrameType.toNat_decide_predicted (f : FrameType) : (decide (f = .predicted)).toNat = f.code := by
  cases f <;> rfl

/-- Settles O48: each field is a quotient and remainder of STATUS's number. -/
theorem statusFields : Obligations.StatusFields := by
  intro s
  have hread : csrRead 0x01 s = statusWord s := rfl
  obtain ⟨hphase, hfopen, hftype, href, heos, hsat, hpart, hsb, hlt⟩ := statusWord_fields s
  rw [hread]
  refine ⟨?_, getLsbD_eq_of_toNat hfopen, ?_, getLsbD_eq_of_toNat href, getLsbD_eq_of_toNat heos,
    getLsbD_eq_of_toNat hsat, getLsbD_eq_of_toNat hpart, getLsbD_eq_of_toNat hsb, ?_⟩
  · simpa using hphase
  · rw [getLsbD_eq_of_toNat (hftype.trans s.ftype.toNat_decide_predicted.symm), decide_eq_true_iff]
  · apply BitVec.eq_of_toNat_eq
    rw [BitVec.extractLsb'_toNat, Nat.shiftRight_eq_div_pow, Nat.div_eq_of_lt hlt]
    rfl

end Sys2Proof.Machine
end

section
/-! PROOFS. The transform unit's two commands (43_transform.md R172 to R178). -/

namespace Sys2Proof.Machine

/-- FDCT's word before `sat16`, as R174's double sum or R175's multiple. -/
theorem forwardWord_eq (s : State) (p : Plane) (r c : Nat) :
    forwardWord s p r c = if enT s = true then
        rndShr (∑ i ∈ Finset.range 8, ∑ j ∈ Finset.range 8,
          basis (r % 8) i * basis (c % 8) j * s.mbuf.val p (8 * (r / 8) + i) (8 * (c / 8) + j)) 29
      else 8 * s.mbuf.val p r c := by
  rw [forwardWord, forward8, forwardAcc, sumSquare_eq_sum]
  rfl

/-- IDCT's word before `sat16`, as R177's double sum or R178's rounded shift. -/
theorem inverseWord_eq (s : State) (p : Plane) (r c : Nat) :
    inverseWord s p r c = if enT s = true then
        rndShr (∑ i ∈ Finset.range 8, ∑ j ∈ Finset.range 8,
          basis i (r % 8) * basis j (c % 8) * s.mbuf.val p (8 * (r / 8) + i) (8 * (c / 8) + j)) 35
      else rndShr (s.mbuf.val p r c) 3 := by
  rw [inverseWord, inverse8, inverseAcc, sumSquare_eq_sum]
  rfl

/-- SAT after a saturating write: what it was, or some value was changed (R54). -/
theorem setMbufSat_sat_iff (f : Plane → Nat → Nat → Int) (s : State) :
    (setMbufSat f s).sat = true ↔
      s.sat = true ∨ ∃ p : Plane, ∃ r < p.size, ∃ c < p.size, sat16 (f p r c) ≠ f p r c := by
  simp [anyWord_eq_true]

/-- A command that passes its checks and writes every word through `sat16`, moving STAGE on: what R23 and R54 say of it. -/
theorem exec_setMbufSat {i : Instr} {s : State} {g : Stage} {f v : Plane → Nat → Nat → Int}
    (h : exec i s = .next { setMbufSat f s with stage := g }) (hf : ∀ p r c, f p r c = v p r c) :
    ∃ t, exec i s = .next t ∧
      (∀ p : Plane, ∀ r < p.size, ∀ c < p.size, t.mbuf.val p r c = sat16 (v p r c)) ∧
      (t.sat = true ↔ s.sat = true ∨ ∃ p : Plane, ∃ r < p.size, ∃ c < p.size, sat16 (v p r c) ≠ v p r c) ∧
      t.stage = g ∧ t = { s with mbuf := t.mbuf, sat := t.sat, stage := t.stage } := by
  obtain rfl : f = v := funext fun p => funext fun r => funext fun c => hf p r c
  refine ⟨_, h, fun p r hr c hc => setMbufSat_val f s hr hc, setMbufSat_sat_iff f s, rfl, ?_⟩
  rw [setMbufSat_frame]

/-- In an open frame at RESID, FDCT's checks hold (R173, R200). -/
theorem exec_fdct {s : State} (hopen : FrameIsOpen s) (hstage : s.stage = .resid) :
    exec .fdct s = .next { setMbufSat (forwardWord s) s with stage := .xform } := by
  have hchecks : firstFailed [frameOpen s, stageIs .resid s] = none := by
    simp [frameOpen, stageIs, hopen.1, hopen.2, hstage]
  delta exec execFdct
  rw [command_effect (by simp [hopen.1]) hchecks]

/-- In an open frame at DEQ, IDCT's checks hold (R176, R200). -/
theorem exec_idct {s : State} (hopen : FrameIsOpen s) (hstage : s.stage = .deq) :
    exec .idct s = .next { setMbufSat (inverseWord s) s with stage := .ires } := by
  have hchecks : firstFailed [frameOpen s, stageIs .deq s] = none := by
    simp [frameOpen, stageIs, hopen.1, hopen.2, hstage]
  delta exec execIdct
  rw [command_effect (by simp [hopen.1]) hchecks]

/-- Settles O39: FDCT's effect, its words in R174's closed form. -/
theorem fdctTransformsEveryBlock : Obligations.FdctTransformsEveryBlock :=
  fun s hopen hstage => exec_setMbufSat (exec_fdct hopen hstage) (forwardWord_eq s)

/-- Settles O40: IDCT's effect, its words in R177's closed form. -/
theorem idctInvertsEveryBlock : Obligations.IdctInvertsEveryBlock :=
  fun s hopen hstage => exec_setMbufSat (exec_idct hopen hstage) (inverseWord_eq s)

end Sys2Proof.Machine
end

section
/-! PROOFS. Where a step can stop: the picture at the head of SRC that has not the configured size (U5), and the indices
outside a store, which the invariants of a run exclude (20_memory.md R73). -/

namespace Sys2Proof.Machine

/-- Between two frames, with a picture of another size at the head of SRC, BEGIN_FRAME's check holds and it refuses. -/
theorem exec_beginFrame_misshaped {s : State} {pic : Picture} {rest : List Picture} (hphase : s.phase = .run)
    (hclosed : s.fopen = false) (hsrc : s.src = pic :: rest) (hshape : pic.shaped s = false) :
    exec .beginFrame s = .refused .pictureNotOfConfiguredSize := by
  have hchecks : firstFailed [frameClosed s] = none := by simp [frameClosed, hphase, hclosed]
  delta exec execBeginFrame
  rw [command_effect (by simp [hphase]) hchecks]
  simp [hsrc, hshape]

/-- Settles O21: the model's refusal (log 6), reached when BEGIN_FRAME's one check has passed. -/
theorem beginFrameRefusesMisshapedPicture : Obligations.BeginFrameRefusesMisshapedPicture :=
  fun _ _ _ => exec_beginFrame_misshaped

/-- How a command can end without a next state, with what its checks have established by then: the counterpart of
`Effect`. The faults stand for the indices outside a store (log 7). -/
inductive Stops (s : State) : Instr → Result → Prop where
  | misshapedPicture {pic : Picture} {rest : List Picture} (hsrc : s.src = pic :: rest)
      (hshape : pic.shaped s = false) : Stops s .beginFrame (.refused .pictureNotOfConfiguredSize)
  | noCurrentPicture (hopen : FrameIsOpen s) (hcur : ∀ pic, s.cur = some pic → pic.shaped s = false) :
      Stops s .loadMb (.fault .noCurrentPicture)
  | outsidePicture {i : Instr} (hi : i ∈ [.intraPred, .intraRecon, .mcPred, .mcRecon]) (hopen : FrameIsOpen s)
      (hbusy : s.stage.busy = true) (hmb : mbInPicture s = false) : Stops s i (.fault .macroblockOutsidePicture)
  | outsideSearchBuffer (hopen : FrameIsOpen s) (hftype : s.ftype = .predicted) (hstage : s.stage = .ires)
      (hen : enMc s = true) (hreach : vectorsReach s = false) : Stops s .mcRecon (.fault .vectorOutsideSearchBuffer)

/-- A command over the shared operation `command` gives a next state or stops when its effect does: in HALT and at
a failed check it gives a next state. -/
theorem exec_next_or_stops_of {i : Instr} {checks : List (Bool × ErrCode)} {effect : State → Result} {s : State}
    (hi : exec i s = command (encode i) checks effect s)
    (h : (∀ c ∈ checks, c.1 = true) → (∃ t, effect s = .next t) ∨ Stops s i (effect s)) :
    (∃ t, exec i s = .next t) ∨ Stops s i (exec i s) := by
  rw [hi]
  rcases command_cases (encode i) checks effect s with ⟨-, he⟩ | ⟨-, code, -, he⟩ | ⟨-, hc, he⟩ <;> rw [he]
  · exact .inl ⟨_, rfl⟩
  · exact .inl ⟨_, rfl⟩
  · exact h (firstFailed_eq_none.mp hc)

/-- The checks of the four predictor commands, as facts of the state. -/
theorem predictorChecks_pass {ft : FrameType} {g : Stage} {s : State}
    (h : ∀ c ∈ [frameOpen s, ftypeIs ft s, stageIs g s], c.1 = true) :
    FrameIsOpen s ∧ s.ftype = ft ∧ s.stage = g := by
  simpa [frameOpen, ftypeIs, stageIs] using h

/-- Every command gives a next state or stops in one of the ways of `Stops`. -/
theorem exec_next_or_stops (i : Instr) (s : State) : (∃ t, exec i s = .next t) ∨ Stops s i (exec i s) := by
  cases i with
  | reset => exact .inl ⟨_, rfl⟩
  | nop | setDim | setWin | setQp | setIint | setFeat | setOvh | start | emit | install | fdct | idct | quant
  | dequant =>
    refine exec_next_or_stops_of (by
      delta exec execNop execSetDim execSetWin execSetQp execSetIint execSetFeat execSetOvh execStart execEmit
        execInstall execFdct execIdct execQuant execDequant
      rfl) fun _ => ?_
    exact .inl ⟨_, rfl⟩
  | beginFrame =>
    refine exec_next_or_stops_of (by delta exec execBeginFrame; rfl) fun _ => ?_
    split
    · exact .inl ⟨_, rfl⟩
    · next pic rest hsrc =>
      split
      · exact .inl ⟨_, rfl⟩
      · next hshape => exact .inr (.misshapedPicture hsrc (by simpa using hshape))
  | loadMb =>
    refine exec_next_or_stops_of (by delta exec execLoadMb; rfl) fun hc => ?_
    have hopen : FrameIsOpen s := by simpa [frameOpen] using hc (frameOpen s) (by simp)
    rw [engineCur_open hopen.2]
    split
    · next pic hcur =>
      split
      · exact .inl ⟨_, rfl⟩
      · next hshape => exact .inr (.noCurrentPicture hopen (by simpa [hcur] using hshape))
    · next hcur => exact .inr (.noCurrentPicture hopen (by simp [hcur]))
  | intraPred | mcPred =>
    refine exec_next_or_stops_of (by delta exec execIntraPred execMcPred; rfl) fun hc => ?_
    obtain ⟨hopen, -, hstage⟩ := predictorChecks_pass hc
    split
    · split
      · exact .inl ⟨_, rfl⟩
      · next hmb => exact .inr (.outsidePicture (by simp) hopen (hstage ▸ rfl) (by simpa using hmb))
    · exact .inl ⟨_, rfl⟩
  | intraRecon =>
    refine exec_next_or_stops_of (by delta exec execIntraRecon; rfl) fun hc => ?_
    obtain ⟨hopen, -, hstage⟩ := predictorChecks_pass hc
    split
    · exact .inl ⟨_, rfl⟩
    · next hmb => exact .inr (.outsidePicture (by simp) hopen (hstage ▸ rfl) (by simpa using hmb))
  | mcRecon =>
    refine exec_next_or_stops_of (by delta exec execMcRecon; rfl) fun hc => ?_
    obtain ⟨hopen, hftype, hstage⟩ := predictorChecks_pass hc
    split
    · split
      · next hvec =>
        obtain ⟨hen, hreach⟩ : enMc s = true ∧ vectorsReach s = false := by simpa using hvec
        exact .inr (.outsideSearchBuffer hopen hftype hstage hen hreach)
      · exact .inl ⟨_, rfl⟩
    · next hmb => exact .inr (.outsidePicture (by simp) hopen (hstage ▸ rfl) (by simpa using hmb))

/-- A step gives a next state, or it is a command that stops: waiting, a reset and an illegal word never do. -/
theorem step_next_or_stops (s : State) :
    (∃ t, step s = .next t) ∨ ∃ i rest, Stops { s with port := rest } i (step s) := by
  rw [step]
  cases hport : s.port with
  | nil => exact .inl ⟨s, performNext_nil hport⟩
  | cons op rest =>
    rw [performNext_cons hport]
    cases op with
    | hardReset => exact .inl ⟨_, rfl⟩
    | cmdWrite w =>
      rw [hostOp]
      cases hw : decode w with
      | ok i => rw [cmdWrite_ok hw]; exact (exec_next_or_stops i _).imp_right fun h => ⟨i, rest, h⟩
      | error e => rw [cmdWrite_error hw]; left; split <;> exact ⟨_, rfl⟩

/-- The sequencing invariants read nothing of the port (log 1). -/
theorem SequencerInv.with_port {s : State} (h : SequencerInv s) (rest : List HostOp) :
    SequencerInv { s with port := rest } :=
  { h with }

/-- The datapath invariants read nothing of the port (log 1). -/
theorem DatapathInv.with_port {s : State} (h : DatapathInv s) (rest : List HostOp) :
    DatapathInv { s with port := rest } :=
  { h with }

/-- Under the invariants of a run only the refusal is left: an open frame has its picture (R78), a macroblock on its way
lies in the picture (R219 b), and the stored vectors were reachable (R151). -/
theorem Stops.misshaped {s : State} {i : Instr} {r : Result} (h : Stops s i r) (hs : SequencerInv s)
    (hd : DatapathInv s) : (∃ x, r = .refused x) ∧ ∃ pic rest, s.src = pic :: rest ∧ pic.shaped s = false := by
  cases h with
  | misshapedPicture hsrc hshape => exact ⟨⟨_, rfl⟩, _, _, hsrc, hshape⟩
  | noCurrentPicture hopen hcur =>
    obtain ⟨pic, hpic, hshape⟩ := hs.openPicture hopen.1 hopen.2
    simp [hcur pic hpic] at hshape
  | outsidePicture _ hopen hbusy hmb => simp [mbInPicture, hs.busyInPicture hopen.1 hbusy] at hmb
  | outsideSearchBuffer hopen hftype hstage hen hreach =>
    obtain ⟨-, -, hreached⟩ := hd.windowGathered hopen.1 hopen.2 hftype hen (hstage ▸ rfl)
    simp [hreach] at hreached

/-- Settles O59: a step that stops under the invariants is the refusal of U5. -/
theorem noRunIndexesOutsideAStore : Obligations.NoRunIndexesOutsideAStore := by
  intro s hs hd
  rcases step_next_or_stops s with ⟨t, ht⟩ | ⟨i, rest, hstop⟩
  · simp [ht]
  · obtain ⟨⟨x, hx⟩, hpic⟩ := hstop.misshaped (hs.with_port rest) (hd.with_port rest)
    exact ⟨fun f hf => by simp [hx] at hf, fun _ _ => hpic⟩

end Sys2Proof.Machine
end

section
/-! PROOFS. The opcode map's rows as formats (30_encoding.md R101, R103): a row holds of exactly the words with its opcode
whose bits between the operands and the opcode are 0, and what it builds keeps every other bit. -/

namespace Sys2Proof

/-- The opcode a row stands for (R103). -/
def OpcodeRow.opcode (row : OpcodeRow) : Nat := opField row.pattern

/-- How many low bits of a word a row leaves to the operands: those its mask does not cover (R101). -/
def OpcodeRow.operandBits (row : OpcodeRow) : Nat := Nat.log2 ((~~~row.mask).toNat + 1)

theorem OpcodeRow.matches_iff (row : OpcodeRow) (w : Word) : row.matches w = true ↔ w &&& row.mask = row.pattern :=
  beq_iff_eq

/-- A row's mask is the bits above its operands, and its pattern is its opcode with 0 in every other bit (R103). -/
theorem mask_and_pattern_of_mem_opcodeMap : ∀ row ∈ opcodeMap, row.operandBits ≤ 24 ∧
    row.mask = BitVec.allOnes 32 <<< row.operandBits ∧ row.pattern.toNat = row.opcode * 2 ^ 24 := by
  decide

/-- The operand bits of the formats are Z's, P's and H's, B's, N's and W's (R101). -/
theorem operandBits_of_mem_opcodeMap : ∀ row ∈ opcodeMap, row.operandBits ∈ [0, 16, 8, 4, 24] := by decide

theorem opcodes_nodup : (opcodeMap.map OpcodeRow.opcode).Nodup := by decide

theorem opField_eq (w : Word) : opField w = w.toNat / 2 ^ 24 := by
  have h : opField w = w.toNat / 2 ^ 24 % 2 ^ 8 := Laws.EncodesItsRow.argField_eq w 24 8
  omega

/-- A multiple of `c` by its quotient and its remainder. -/
theorem eq_mul_iff_div_mod (m a c : Nat) (hc : 0 < c) : m = a * c ↔ m / c = a ∧ m % c = 0 := by
  constructor
  · rintro rfl; simp [hc]
  · rintro ⟨rfl, hmod⟩; exact (Nat.div_mul_cancel (Nat.dvd_of_mod_eq_zero hmod)).symm

/-- A row holds of a word when the opcode is the row's and the must-be-zero bits of its format are 0 (R101, R103, R104). -/
theorem holds_iff_opcode_and_reserved {row : OpcodeRow} (hrow : row ∈ opcodeMap) (w : Word) :
    w &&& row.mask = row.pattern ↔
      opField w = row.opcode ∧ argField w row.operandBits (24 - row.operandBits) = 0 := by
  obtain ⟨hle, hmask, hpattern⟩ := mask_and_pattern_of_mem_opcodeMap row hrow
  generalize row.operandBits = k at *
  have hsplit : 2 ^ 24 = 2 ^ (24 - k) * 2 ^ k := by rw [← pow_add, Nat.sub_add_cancel hle]
  calc w &&& row.mask = row.pattern
    _ ↔ w.toNat / 2 ^ k * 2 ^ k = row.opcode * 2 ^ (24 - k) * 2 ^ k := by
        rw [← BitVec.toNat_inj, hmask, Laws.EncodesItsRow.toNat_and_high, hpattern, hsplit, mul_assoc]
    _ ↔ w.toNat / 2 ^ k = row.opcode * 2 ^ (24 - k) := Nat.mul_left_inj (by positivity)
    _ ↔ w.toNat / 2 ^ k / 2 ^ (24 - k) = row.opcode ∧ w.toNat / 2 ^ k % 2 ^ (24 - k) = 0 :=
        eq_mul_iff_div_mod _ _ _ (by positivity)
    _ ↔ _ := by
        rw [opField_eq, Laws.EncodesItsRow.argField_eq, hsplit, Nat.mul_comm, Nat.div_div_eq_div_mul]

/-- Two rows with one opcode are one row (R105). -/
theorem row_eq_of_opcode_eq {row row' : OpcodeRow} (hrow : row ∈ opcodeMap) (hrow' : row' ∈ opcodeMap)
    (h : row.opcode = row'.opcode) : row = row' :=
  List.inj_on_of_nodup_map opcodes_nodup hrow hrow' h

/-- The row that holds of a word is the one decoded (R105). -/
theorem decode_of_row {row : OpcodeRow} {w : Word} (hrow : row ∈ opcodeMap) (h : w &&& row.mask = row.pattern) :
    decode w = .ok (row.build w) := by
  rw [decode]
  cases hfind : opcodeMap.find? (fun row => row.matches w) with
  | none => exact absurd ((row.matches_iff w).2 h) (List.find?_eq_none.1 hfind row hrow)
  | some row' =>
    have hrow' := List.mem_of_find?_eq_some hfind
    have hm := List.find?_some hfind
    obtain ⟨hop, -⟩ := (holds_iff_opcode_and_reserved hrow w).1 h
    obtain ⟨hop', -⟩ := (holds_iff_opcode_and_reserved hrow' w).1 ((row'.matches_iff w).1 hm)
    rw [row_eq_of_opcode_eq hrow hrow' (hop.symm.trans hop')]

/-- A word is illegal when no row holds of it (R104, R105). -/
theorem decode_eq_error_iff (w : Word) (e : Illegal) :
    decode w = .error e ↔ (∀ row ∈ opcodeMap, w &&& row.mask ≠ row.pattern) ∧ illegalReason w = e := by
  constructor
  · intro h
    refine ⟨fun row hrow hm => by simp [decode_of_row hrow hm] at h, ?_⟩
    rw [decode] at h
    split at h
    · cases h
    · exact Except.error.inj h
  · rintro ⟨hnone, rfl⟩
    have hfind : opcodeMap.find? (fun row => row.matches w) = none :=
      List.find?_eq_none.2 fun row hrow => (row.matches_iff w).not.2 (hnone row hrow)
    rw [decode, hfind]

/-- What a row builds is well formed: it takes each operand from a field of the operand's width (R101, R102). -/
theorem wellFormed_build (w : Word) : ∀ row ∈ opcodeMap, (row.build w).wellFormed = true := by
  have hfits (lo width : Nat) : argField w lo width < 2 ^ width := BitVec.isLt _
  simp only [opcodeMap, configRows, commandRows, List.cons_append, List.nil_append, List.forall_mem_cons]
  simp only [Instr.wellFormed, hfits, decide_true, Bool.and_self, List.not_mem_nil, false_implies, implies_true,
    and_self]

/-- The word of what a row builds is the row's pattern with the operand bits of the word it was built from (R101, R102). -/
theorem toNat_encode_build (w : Word) : ∀ row ∈ opcodeMap,
    (encode (row.build w)).toNat = row.pattern.toNat + w.toNat % 2 ^ row.operandBits := by
  have hbits : Nat.log2 1 = 0 ∧ Nat.log2 16 = 4 ∧ Nat.log2 256 = 8 ∧ Nat.log2 65536 = 16 ∧ Nat.log2 16777216 = 24 := by
    decide
  simp only [opcodeMap, configRows, commandRows, List.cons_append, List.nil_append, List.forall_mem_cons]
  simp only [encode, Laws.EncodesItsRow.argField_eq, OpcodeRow.operandBits, BitVec.ofNat_eq_ofNat, BitVec.toNat_ofNat,
    BitVec.reduceNot, hbits, List.not_mem_nil, false_implies, implies_true, and_true]
  omega

/-- A row gives back the word it holds of: the pattern is the bits above the operands, and the operands are the rest. -/
theorem encode_build_of_row {row : OpcodeRow} {w : Word} (hrow : row ∈ opcodeMap) (h : w &&& row.mask = row.pattern) :
    encode (row.build w) = w := by
  obtain ⟨-, hmask, -⟩ := mask_and_pattern_of_mem_opcodeMap row hrow
  apply BitVec.eq_of_toNat_eq
  calc (encode (row.build w)).toNat
    _ = row.pattern.toNat + w.toNat % 2 ^ row.operandBits := toNat_encode_build w row hrow
    _ = w.toNat / 2 ^ row.operandBits * 2 ^ row.operandBits + w.toNat % 2 ^ row.operandBits := by
        rw [← h, ← Laws.EncodesItsRow.toNat_and_high, ← hmask]
    _ = w.toNat := Nat.div_add_mod' _ _

end Sys2Proof
end

section
/-! PROOFS. The round trip of encoding and decoding, and which words are illegal (30_encoding.md R103 to R107). -/

namespace Sys2Proof

/-- A well-formed command's word holds of a row that builds the command back, whatever the command (R103). -/
theorem encodesItsRow (i : Instr) : Laws.EncodesItsRow.Statement i := by
  cases i with
  | nop => exact Laws.EncodesItsRow.nop
  | setDim picw pich => exact Laws.EncodesItsRow.setDim picw pich
  | setWin winx winy => exact Laws.EncodesItsRow.setWin winx winy
  | setQp qp => exact Laws.EncodesItsRow.setQp qp
  | setIint iint => exact Laws.EncodesItsRow.setIint iint
  | setFeat feat => exact Laws.EncodesItsRow.setFeat feat
  | setOvh ovh => exact Laws.EncodesItsRow.setOvh ovh
  | start => exact Laws.EncodesItsRow.start
  | beginFrame => exact Laws.EncodesItsRow.beginFrame
  | loadMb => exact Laws.EncodesItsRow.loadMb
  | emit => exact Laws.EncodesItsRow.emit
  | install => exact Laws.EncodesItsRow.install
  | intraPred => exact Laws.EncodesItsRow.intraPred
  | intraRecon => exact Laws.EncodesItsRow.intraRecon
  | mcPred => exact Laws.EncodesItsRow.mcPred
  | mcRecon => exact Laws.EncodesItsRow.mcRecon
  | fdct => exact Laws.EncodesItsRow.fdct
  | idct => exact Laws.EncodesItsRow.idct
  | quant => exact Laws.EncodesItsRow.quant
  | dequant => exact Laws.EncodesItsRow.dequant
  | reset => exact Laws.EncodesItsRow.reset

/-- Settles O1: the command's word satisfies the row that builds the command, and that row is the one decoded. -/
theorem decodeOfEncodeIsTheCommand : Obligations.DecodeOfEncodeIsTheCommand := by
  intro i hi
  obtain ⟨row, hrow, hmatches, hbuild⟩ := encodesItsRow i hi
  rw [decode_of_row hrow ((row.matches_iff _).1 hmatches), hbuild]

/-- Settles O2: the row that decoded the word builds a well-formed command that keeps the word's every bit. -/
theorem encodeOfDecodeIsTheWord : Obligations.EncodeOfDecodeIsTheWord := by
  intro w i h
  obtain ⟨row, hrow, hholds, rfl⟩ := Machine.exists_row_of_decode h
  exact ⟨wellFormed_build w row hrow, encode_build_of_row hrow hholds⟩

/-- Settles O3: rows that hold of one word have its opcode, and no two rows share an opcode. -/
theorem decodingIsTotalAndUnambiguous : Obligations.DecodingIsTotalAndUnambiguous := by
  intro w
  refine ⟨?_, fun row hrow h => decode_of_row hrow h, fun h => ⟨_, (decode_eq_error_iff w _).2 ⟨h, rfl⟩⟩⟩
  refine (List.pairwise_map.1 opcodes_nodup).imp_of_mem fun {a b} ha hb hne => ?_
  rintro ⟨hholdsA, hholdsB⟩
  obtain ⟨hopA, -⟩ := (holds_iff_opcode_and_reserved ha w).1 hholdsA
  obtain ⟨hopB, -⟩ := (holds_iff_opcode_and_reserved hb w).1 hholdsB
  exact hne (hopA.symm.trans hopB)

/-- An illegal word is blamed on its opcode when no row has it (R104). -/
theorem illegalReason_eq (w : Word) :
    illegalReason w = if opField w ∈ opcodeMap.map OpcodeRow.opcode then .reservedBitSet else .unknownOpcode := by
  simp only [illegalReason, List.any_eq_true, beq_iff_eq, List.mem_map, OpcodeRow.opcode]

/-- A word of an unknown opcode satisfies no row (R104). -/
theorem decode_unknownOpcode_iff (w : Word) :
    decode w = .error .unknownOpcode ↔ opField w ∉ opcodeMap.map OpcodeRow.opcode := by
  rw [decode_eq_error_iff, illegalReason_eq]
  constructor
  · rintro ⟨-, h⟩ hmem
    rw [if_pos hmem] at h; cases h
  · intro h
    refine ⟨fun row hrow hholds => h ?_, if_neg h⟩
    exact List.mem_map.2 ⟨row, hrow, ((holds_iff_opcode_and_reserved hrow w).1 hholds).1.symm⟩

/-- A word with a must-be-zero bit set satisfies no row: its opcode's row asks for that bit, and no other row has the opcode
(R104). -/
theorem decode_reservedBitSet_iff (w : Word) :
    decode w = .error .reservedBitSet ↔
      ∃ row ∈ opcodeMap, opField w = row.opcode ∧ argField w row.operandBits (24 - row.operandBits) ≠ 0 := by
  rw [decode_eq_error_iff, illegalReason_eq]
  constructor
  · rintro ⟨hnone, h⟩
    have hmem : opField w ∈ opcodeMap.map OpcodeRow.opcode := by
      by_contra hmem
      rw [if_neg hmem] at h; cases h
    obtain ⟨row, hrow, hop⟩ := List.mem_map.1 hmem
    refine ⟨row, hrow, hop.symm, fun hzero => hnone row hrow ?_⟩
    exact (holds_iff_opcode_and_reserved hrow w).2 ⟨hop.symm, hzero⟩
  · rintro ⟨row, hrow, hop, hset⟩
    refine ⟨fun row' hrow' hholds => hset ?_, if_pos (List.mem_map.2 ⟨row, hrow, hop.symm⟩)⟩
    obtain ⟨hop', hzero⟩ := (holds_iff_opcode_and_reserved hrow' w).1 hholds
    rwa [row_eq_of_opcode_eq hrow hrow' (hop.symm.trans hop')]

/-- The opcodes of the rows whose operands are the low `k` bits. -/
def opcodesWith (k : Nat) : List Nat :=
  (opcodeMap.filter fun row => row.operandBits == k).map OpcodeRow.opcode

theorem mem_opcodesWith {op k : Nat} : op ∈ opcodesWith k ↔ ∃ row ∈ opcodeMap, row.operandBits = k ∧ row.opcode = op := by
  simp [opcodesWith, and_assoc]

/-- The opcodes by format: Z; P and H; B; N; W (R101, R103). -/
theorem opcodesWith_eq :
    opcodesWith 0 = [0x00, 0x07, 0x10, 0x11, 0x12, 0x13, 0x20, 0x21, 0x30, 0x31, 0x40, 0x41, 0x50, 0x51, 0xFF] ∧
    opcodesWith 16 = [0x01, 0x02, 0x04] ∧ opcodesWith 8 = [0x03] ∧ opcodesWith 4 = [0x05] ∧ opcodesWith 24 = [0x06] := by
  decide

/-- The rows that a set must-be-zero bit breaks, gathered by format (R101). -/
theorem exists_reserved_iff_format (w : Word) :
    (∃ row ∈ opcodeMap, opField w = row.opcode ∧ argField w row.operandBits (24 - row.operandBits) ≠ 0) ↔
      ∃ k ∈ [0, 16, 8, 4, 24], opField w ∈ opcodesWith k ∧ argField w k (24 - k) ≠ 0 := by
  constructor
  · rintro ⟨row, hrow, hop, hset⟩
    exact ⟨row.operandBits, operandBits_of_mem_opcodeMap row hrow, mem_opcodesWith.2 ⟨row, hrow, rfl, hop.symm⟩, hset⟩
  · rintro ⟨k, -, hop, hset⟩
    obtain ⟨row, hrow, rfl, hrowOp⟩ := mem_opcodesWith.1 hop
    exact ⟨row, hrow, hrowOp.symm, hset⟩

/-- Settles O4: the rows' opcodes are the 21, and the bits above a row's operands are its format's must-be-zero bits. -/
theorem illegalWordsByOpcodeOrReservedBit : Obligations.IllegalWordsByOpcodeOrReservedBit := by
  intro w
  obtain ⟨hz, hph, hb, hn, -⟩ := opcodesWith_eq
  have hw : argField w 24 0 = 0 := by simp [Laws.EncodesItsRow.argField_eq, Nat.mod_one]
  constructor
  · exact decode_unknownOpcode_iff w
  · rw [decode_reservedBitSet_iff, exists_reserved_iff_format]
    simp only [List.exists_mem_cons_iff, List.mem_singleton, exists_eq_left, hz, hph, hb, hn, hw, Nat.sub_zero,
      Nat.reduceSub, ne_eq, not_true_eq_false, and_false, or_false]

/-- Settles O5: the decoder evaluated on each word. -/
theorem sampleWordsDecode : Obligations.SampleWordsDecode := by
  unfold Obligations.SampleWordsDecode
  decide

end Sys2Proof
end

section
/-! PROOFS. The intra candidates as functions of the edge registers (41_intra.md R122 to R125, R127, R130). -/

namespace Sys2Proof.Machine

/-- The sum's shift of R122 divides by all 2N edge samples it adds. -/
theorem two_pow_dcShift (p : Plane) : (2 : Int) ^ dcShift p = 2 * p.size := by
  cases p <;> rfl

theorem candidate_dc (e : Edge) (p : Plane) (r c : Nat) :
    candidate e p .dc r c =
      ((∑ j ∈ Finset.range p.size, e.top p j) + (∑ i ∈ Finset.range p.size, e.left p i) + p.size) / (2 * p.size) := by
  rw [candidate, sumTo_eq_sum, sumTo_eq_sum, two_pow_dcShift]

theorem candidate_vertical (e : Edge) (p : Plane) (r c : Nat) : candidate e p .vertical r c = e.top p c := rfl

theorem candidate_horizontal (e : Edge) (p : Plane) (r c : Nat) : candidate e p .horizontal r c = e.left p r := rfl

/-- The diagonal candidate on the one line of edge samples of R125: it depends on the position's diagonal alone. -/
theorem candidate_diagonal (e : Edge) (p : Plane) {r c : Nat} {d : Int} (hd : d = c - r) :
    candidate e p .diagonal r c = (edgeLine e p (d - 1) + 2 * edgeLine e p d + edgeLine e p (d + 1) + 2) / 4 := by
  rw [hd]; rfl

/-! The three parts of the line of edge samples (R125) -/

theorem edgeLine_zero (e : Edge) (p : Plane) : edgeLine e p 0 = e.corner p := rfl

theorem edgeLine_top (e : Edge) (p : Plane) {d : Int} {j : Nat} (hd : d = j + 1) : edgeLine e p d = e.top p j := by
  rw [edgeLine, if_neg (by omega), if_pos (by omega), show (d - 1).toNat = j by omega]

theorem edgeLine_left (e : Edge) (p : Plane) {d : Int} {i : Nat} (hd : d = -(i + 1)) :
    edgeLine e p d = e.left p i := by
  rw [edgeLine, if_neg (by omega), if_neg (by omega), show (-d - 1).toNat = i by omega]

/-- Settles O30: each seed's three positions on the line of edge samples; a step down and right keeps the diagonal. -/
theorem diagonalSeedsAndPropagation : Obligations.DiagonalSeedsAndPropagation := by
  intro e p
  refine ⟨?_, ?_, ?_, fun c hc _ => ?_, fun r hr _ => ?_, fun r c => ?_⟩
  · rw [candidate_diagonal e p (d := 0) rfl, edgeLine_left e p (i := 0) (by omega), edgeLine_zero,
      edgeLine_top e p (j := 0) (by omega)]
  · rw [candidate_diagonal e p (d := 1) rfl, sub_self, edgeLine_zero, edgeLine_top e p (j := 0) (by omega),
      edgeLine_top e p (j := 1) (by omega)]
  · rw [candidate_diagonal e p (d := -1) rfl, neg_add_cancel, edgeLine_zero, edgeLine_left e p (i := 1) (by omega),
      edgeLine_left e p (i := 0) (by omega)]
    omega
  · rw [candidate_diagonal e p (d := c) (by omega), edgeLine_top e p (j := c - 2) (by omega),
      edgeLine_top e p (j := c - 1) (by omega), edgeLine_top e p (j := c) rfl]
  · rw [candidate_diagonal e p (d := -r) (by omega), edgeLine_left e p (i := r) (by omega),
      edgeLine_left e p (i := r - 1) (by omega), edgeLine_left e p (i := r - 2) (by omega)]
    omega
  · rw [candidate_diagonal e p (r := r + 1) (c := c + 1) (d := c - r) (by omega), ← candidate_diagonal e p rfl]

/-- The 2N + 1 edge samples of a channel are all between `lo` and `hi`. -/
structure EdgesWithin (e : Edge) (p : Plane) (lo hi : Int) : Prop where
  top : ∀ j < p.size, lo ≤ e.top p j ∧ e.top p j ≤ hi
  left : ∀ i < p.size, lo ≤ e.left p i ∧ e.left p i ≤ hi
  corner : lo ≤ e.corner p ∧ e.corner p ≤ hi

/-- The edge registers hold unsigned bytes (R24). -/
theorem edgesWithin_sample (e : Edge) (p : Plane) : EdgesWithin e p 0 255 := by
  have hsample (x : Sample) : 0 ≤ (x.toNat : Int) ∧ (x.toNat : Int) ≤ 255 := by
    have := x.isLt; omega
  constructor
  · intro j _; cases p <;> exact hsample _
  · intro i _; cases p <;> exact hsample _
  · cases p <;> exact hsample _

/-- A position of the line that some diagonal of the channel reaches holds an edge sample. -/
theorem EdgesWithin.edgeLine_bounds {e : Edge} {p : Plane} {lo hi d : Int} (h : EdgesWithin e p lo hi)
    (hd : -p.size ≤ d ∧ d ≤ p.size) : lo ≤ edgeLine e p d ∧ edgeLine e p d ≤ hi := by
  rcases lt_trichotomy d 0 with hneg | rfl | hpos
  · rw [edgeLine_left e p (i := (-d - 1).toNat) (by omega)]; exact h.left _ (by omega)
  · rw [edgeLine_zero]; exact h.corner
  · rw [edgeLine_top e p (j := (d - 1).toNat) (by omega)]; exact h.top _ (by omega)

/-- A sum of `n` terms between `lo` and `hi`. -/
theorem sum_range_bounds {f : Nat → Int} {n : Nat} {lo hi : Int} (h : ∀ i < n, lo ≤ f i ∧ f i ≤ hi) :
    n * lo ≤ ∑ i ∈ Finset.range n, f i ∧ ∑ i ∈ Finset.range n, f i ≤ n * hi := by
  have hlo := Finset.card_nsmul_le_sum (Finset.range n) f lo fun i hi => (h i (Finset.mem_range.1 hi)).1
  have hhi := Finset.sum_le_card_nsmul (Finset.range n) f hi fun i hi => (h i (Finset.mem_range.1 hi)).2
  simp only [Finset.card_range, nsmul_eq_mul] at hlo hhi
  exact ⟨hlo, hhi⟩

/-- Every candidate is a rounded mean of edge samples, so it stays between their bounds. -/
theorem EdgesWithin.candidate_bounds {e : Edge} {p : Plane} {lo hi : Int} (h : EdgesWithin e p lo hi) (m : IntraMode)
    {r c : Nat} (hr : r < p.size) (hc : c < p.size) : lo ≤ candidate e p m r c ∧ candidate e p m r c ≤ hi := by
  cases m with
  | dc =>
    obtain ⟨htlo, hthi⟩ := sum_range_bounds h.top
    obtain ⟨hllo, hlhi⟩ := sum_range_bounds h.left
    have hpos : (0 : Int) < 2 * p.size := by omega
    rw [candidate_dc]
    constructor
    · rw [Int.le_ediv_iff_mul_le hpos]; linarith
    · rw [Int.ediv_le_iff_le_mul hpos]; linarith
  | vertical => exact h.top c hc
  | horizontal => exact h.left r hr
  | diagonal =>
    have h1 := h.edgeLine_bounds (d := c - r - 1) (by omega)
    have h2 := h.edgeLine_bounds (d := c - r) (by omega)
    have h3 := h.edgeLine_bounds (d := c - r + 1) (by omega)
    rw [candidate_diagonal e p rfl]
    omega

/-- Every candidate sample is an unsigned byte (R127). -/
theorem candidate_bounds (e : Edge) (p : Plane) (m : IntraMode) {r c : Nat} (hr : r < p.size) (hc : c < p.size) :
    0 ≤ candidate e p m r c ∧ candidate e p m r c ≤ 255 :=
  (edgesWithin_sample e p).candidate_bounds m hr hc

/-- Settles O31: the edge registers hold bytes, and a candidate stays between its edge samples. -/
theorem candidatesAreSamples : Obligations.CandidatesAreSamples :=
  fun e p m _ _ => candidate_bounds e p m

/-- Settles O29: the candidates' closed forms, and uniform edges as edges between V and V. -/
theorem candidatesFromTheEdges : Obligations.CandidatesFromTheEdges := by
  intro e p
  refine ⟨fun r _ c _ => ⟨candidate_dc e p r c, candidate_vertical e p r c, candidate_horizontal e p r c⟩, ?_⟩
  intro v htop hleft hcorner m r hr c hc
  have huniform : EdgesWithin e p v v :=
    ⟨fun j hj => by simp [htop j hj], fun i hi => by simp [hleft i hi], by simp [hcorner]⟩
  obtain ⟨hlo, hhi⟩ := huniform.candidate_bounds m hr hc
  exact le_antisymm hhi hlo

end Sys2Proof.Machine
end

section
/-! PROOFS. Where a macroblock of the picture lies, and its store into REC (10_state.md R37, 20_memory.md R71, R83). -/

namespace Sys2Proof.Machine

/-- A picture that holds a macroblock has columns (R37). -/
theorem picw_pos {s : State} (h : s.mbidx.toNat < nmb s) : 0 < s.picw.toNat := by
  rw [nmb] at h
  exact Nat.pos_of_mul_pos_right (Nat.zero_lt_of_lt h)

theorem mbx_eq {s : State} (h : s.mbidx.toNat < nmb s) : mbx s = s.mbidx.toNat % s.picw.toNat :=
  floorMod_of_pos (picw_pos h)

theorem mby_eq {s : State} (h : s.mbidx.toNat < nmb s) : mby s = s.mbidx.toNat / s.picw.toNat :=
  floorDiv_of_pos (picw_pos h)

theorem mbCol_eq {s : State} (h : s.mbidx.toNat < nmb s) (p : Plane) :
    mbCol s p = p.size * (s.mbidx.toNat % s.picw.toNat) := by
  rw [mbCol, mbx_eq h]

theorem mbRow_eq {s : State} (h : s.mbidx.toNat < nmb s) (p : Plane) :
    mbRow s p = p.size * (s.mbidx.toNat / s.picw.toNat) := by
  rw [mbRow, mby_eq h]

/-- At most 255 * 255 macroblocks: the count past the last one fits MBIDX's 16 bits (R43). -/
theorem nmb_le (s : State) : nmb s ≤ 255 * 255 :=
  Nat.mul_le_mul (Nat.le_of_lt_succ s.picw.isLt) (Nat.le_of_lt_succ s.pich.isLt)

/-- A reconstruct command's count does not wrap (R43, R129, R158). -/
theorem finishMacroblock_mbidx_toNat {s : State} (h : s.mbidx.toNat < nmb s) :
    (finishMacroblock s).mbidx.toNat = s.mbidx.toNat + 1 := by
  have hfits : s.mbidx.toNat + 1 < 2 ^ 16 := by have := nmb_le s; omega
  rw [finishMacroblock_mbidx, BitVec.toNat_add_of_lt hfits]
  rfl

/-- REC's samples in the macroblock's area, where MBUF holds a sample, read as MBUF (R83). -/
theorem finishMacroblock_read_same {s : State} (h : s.mbidx.toNat < nmb s) {p : Plane} {r c : Nat} (hr : r < p.size)
    (hc : c < p.size) (hv : 0 ≤ s.mbuf.val p r c ∧ s.mbuf.val p r c ≤ 255) :
    (((finishMacroblock s).recStore.read p (p.size * (s.mbidx.toNat / s.picw.toNat) + r)
      (p.size * (s.mbidx.toNat % s.picw.toNat) + c)).toNat : Int) = s.mbuf.val p r c := by
  rw [← mbRow_eq h, ← mbCol_eq h, finishMacroblock_recStore, Store.read, storeMacroblock_read_same h hr hc,
    Option.getD_some, toNat_ofInt8 hv.1 hv.2]

/-- REC's samples outside the macroblock's area read as before (R83). -/
theorem finishMacroblock_read_other {s : State} (h : s.mbidx.toNat < nmb s) {p : Plane} {y x : Nat} (hy : y < 2 ^ 20)
    (hx : x < 2 ^ 20)
    (ho : ¬ ((p.size * (s.mbidx.toNat / s.picw.toNat) ≤ y ∧ y < p.size * (s.mbidx.toNat / s.picw.toNat) + p.size) ∧
      (p.size * (s.mbidx.toNat % s.picw.toNat) ≤ x ∧ x < p.size * (s.mbidx.toNat % s.picw.toNat) + p.size))) :
    (finishMacroblock s).recStore.read p y x = s.recStore.read p y x := by
  rw [← mbRow_eq h, ← mbCol_eq h] at ho
  rw [finishMacroblock_recStore, Store.read, Store.read, storeMacroblock_read_other h hy hx ho, storeMacroblock_fill]

/-- The checks of the four predictor commands hold in an open frame of their type at their stage (R200, R237). -/
theorem predictorChecks_hold {ft : FrameType} {g : Stage} {s : State} (hopen : FrameIsOpen s) (hftype : s.ftype = ft)
    (hstage : s.stage = g) : firstFailed [frameOpen s, ftypeIs ft s, stageIs g s] = none := by
  simp [frameOpen, ftypeIs, stageIs, hopen.1, hopen.2, hftype, hstage]

theorem mbInPicture_eq_true {s : State} : mbInPicture s = true ↔ s.mbidx.toNat < nmb s := decide_eq_true_iff

end Sys2Proof.Machine
end

section
/-! PROOFS. The choice of the intra mode (41_intra.md R126). -/

namespace Sys2Proof.Machine

/-- One comparison of R126: the later mode is taken only when it is strictly better. -/
def betterMode (sse : IntraMode → Int) (best m : IntraMode) : IntraMode := if sse m < sse best then m else best

/-- `best` has the least SSE of the modes `seen`, and is the first of them that has it. -/
def IsFirstLeast (sse : IntraMode → Int) (seen : List IntraMode) (best : IntraMode) : Prop :=
  ∀ m ∈ seen, sse best ≤ sse m ∧ (m.code < best.code → sse best < sse m)

/-- The SSE that the fold of R126 carries is that of the mode it carries. -/
theorem foldl_sse_fst (sse : IntraMode → Int) (l : List IntraMode) (best : IntraMode) :
    (l.foldl (fun b m => if sse m < b.2 then (m, sse m) else b) (best, sse best)).1
      = l.foldl (betterMode sse) best := by
  induction l generalizing best with
  | nil => rfl
  | cons m l ih =>
    rw [List.foldl_cons, List.foldl_cons, betterMode]
    split
    · exact ih m
    · exact ih best

/-- Comparing with a mode of a higher code than all seen so far keeps the first least one. -/
theorem IsFirstLeast.compare {sse : IntraMode → Int} {seen : List IntraMode} {best m : IntraMode}
    (h : IsFirstLeast sse seen best) (hm : best.code < m.code) :
    IsFirstLeast sse (seen ++ [m]) (betterMode sse best m) := by
  intro k hk
  rw [betterMode]
  rcases List.mem_append.1 hk with hseen | hlast
  · obtain ⟨hle, hlt⟩ := h k hseen
    split
    · exact ⟨by omega, fun _ => by omega⟩
    · exact ⟨hle, hlt⟩
  · obtain rfl := List.mem_singleton.1 hlast
    split
    · exact ⟨le_rfl, fun hlt => absurd hlt (lt_irrefl _)⟩
    · exact ⟨by omega, fun hlt => by omega⟩

/-- Comparing in turn with modes of rising codes leaves the first least of all seen. -/
theorem IsFirstLeast.compareAll {sse : IntraMode → Int} {l : List IntraMode} {seen : List IntraMode} {best : IntraMode}
    (h : IsFirstLeast sse seen best) (hl : (best :: l).Pairwise (·.code < ·.code)) :
    IsFirstLeast sse (seen ++ l) (l.foldl (betterMode sse) best) := by
  induction l generalizing seen best with
  | nil => simpa using h
  | cons m l ih =>
    obtain ⟨hbest, hrest⟩ := List.pairwise_cons.1 hl
    have hnext : (betterMode sse best m :: l).Pairwise (·.code < ·.code) := by
      rw [betterMode]
      split
      · exact hrest
      · exact hl.sublist ((List.sublist_cons_self m l).cons_cons best)
    rw [List.append_cons, List.foldl_cons]
    exact ih (h.compare (hbest m List.mem_cons_self)) hnext

/-- R126's choice has the least SSE of the four modes, and is the first that has it. -/
theorem selectMode_least (sse : IntraMode → Int) (m : IntraMode) :
    sse (selectMode sse) ≤ sse m ∧ (m.code < (selectMode sse).code → sse (selectMode sse) < sse m) := by
  have hdc : IsFirstLeast sse [.dc] .dc := by simp [IsFirstLeast]
  have hall := hdc.compareAll (l := [.vertical, .horizontal, .diagonal]) (by decide)
  rw [selectMode, foldl_sse_fst]
  exact hall m (by cases m <;> decide)

/-- R126's sums of squares, spelled out. -/
theorem intraSse_eq (m : Mbuf) (e : Edge) (mode : IntraMode) :
    intraSse m e mode = ∑ r ∈ Finset.range 16, ∑ c ∈ Finset.range 16, (m.val .y r c - candidate e .y mode r c) ^ 2 := by
  rw [intraSse, sumSquare_eq_sum]

end Sys2Proof.Machine
end

section
/-! PROOFS. The intra predictor's two commands (41_intra.md R120, R121, R127 to R129). -/

namespace Sys2Proof.Machine

/-! The gathered edge registers (R121) -/

theorem edgeAt_ofFn {n : Nat} (f : Nat → Sample) {i : Nat} (hi : i < n) :
    edgeAt (Vector.ofFn fun k : Fin n => f k) i = f i := by
  simp [edgeAt, hi]

theorem gatherEdge_top {s : State} (h : s.mbidx.toNat < nmb s) {p : Plane} {j : Nat} (hj : j < p.size) :
    (gatherEdge s).top p j =
      (if 0 < s.mbidx.toNat / s.picw.toNat then
        (s.recStore.read p (p.size * (s.mbidx.toNat / s.picw.toNat) - 1)
          (p.size * (s.mbidx.toNat % s.picw.toNat) + j)).toNat else 128) := by
  have hreg : (gatherEdge s).top p j = (gatherTop s p j).toNat := by
    cases p <;> exact congrArg (fun x : Sample => (x.toNat : Int)) (edgeAt_ofFn (gatherTop s _) hj)
  rw [hreg, gatherTop, mbRow_eq h, mbCol_eq h, mby_eq h]
  split <;> rfl

theorem gatherEdge_left {s : State} (h : s.mbidx.toNat < nmb s) {p : Plane} {i : Nat} (hi : i < p.size) :
    (gatherEdge s).left p i =
      (if 0 < s.mbidx.toNat % s.picw.toNat then
        (s.recStore.read p (p.size * (s.mbidx.toNat / s.picw.toNat) + i)
          (p.size * (s.mbidx.toNat % s.picw.toNat) - 1)).toNat else 128) := by
  have hreg : (gatherEdge s).left p i = (gatherLeft s p i).toNat := by
    cases p <;> exact congrArg (fun x : Sample => (x.toNat : Int)) (edgeAt_ofFn (gatherLeft s _) hi)
  rw [hreg, gatherLeft, mbRow_eq h, mbCol_eq h, mbx_eq h]
  split <;> rfl

theorem gatherEdge_corner {s : State} (h : s.mbidx.toNat < nmb s) (p : Plane) :
    (gatherEdge s).corner p =
      (if 0 < s.mbidx.toNat % s.picw.toNat ∧ 0 < s.mbidx.toNat / s.picw.toNat then
        (s.recStore.read p (p.size * (s.mbidx.toNat / s.picw.toNat) - 1)
          (p.size * (s.mbidx.toNat % s.picw.toNat) - 1)).toNat else 128) := by
  have hreg : (gatherEdge s).corner p = (gatherCorner s p).toNat := by cases p <;> rfl
  rw [hreg, gatherCorner, mbRow_eq h, mbCol_eq h, mbx_eq h, mby_eq h]
  split <;> rfl

/-! INTRA_PRED -/

/-- In an open I frame at RAW, INTRA_PRED's checks hold (R120, R128, R200). -/
theorem exec_intraPred {s : State} (hopen : FrameIsOpen s) (hftype : s.ftype = .intra) (hstage : s.stage = .raw) :
    exec .intraPred s =
      if enIntra s then
        if mbInPicture s then .next (intraPredict s) else .fault .macroblockOutsidePicture
      else .next { s with mode := .dc, stage := .resid } := by
  delta exec execIntraPred
  exact command_effect (by simp [hopen.1]) (predictorChecks_hold hopen hftype hstage) _

/-- Settles O27: EN_INTRA = 0 takes INTRA_PRED's other branch (R128). -/
theorem intraPredPassThrough : Obligations.IntraPredPassThrough := by
  intro s hopen hftype hstage hen
  simp [exec_intraPred hopen hftype hstage, hen]

/-- The residuals of samples fit MBUF's words, the candidate being of samples too (R127). -/
theorem intraPredict_val {s : State} {p : Plane} {r c : Nat} (hr : r < p.size) (hc : c < p.size)
    (hv : 0 ≤ s.mbuf.val p r c ∧ s.mbuf.val p r c ≤ 255) :
    (intraPredict s).mbuf.val p r c =
      s.mbuf.val p r c - candidate (intraPredict s).edge p (intraPredict s).mode r c := by
  obtain ⟨hlo, hhi⟩ := candidate_bounds (gatherEdge s) p (selectMode (intraSse s.mbuf (gatherEdge s))) hr hc
  rw [intraPredict_edge, intraPredict_mode, intraPredict_mbuf, Mbuf.val_ofFn _ hr hc,
    toInt_tc16 (by omega) (by omega)]

/-- Settles O26: the gathered edges (R121), the first least mode (R126) and its residuals (R127). -/
theorem intraPredSubtractsTheBestCandidate : Obligations.IntraPredSubtractsTheBestCandidate := by
  intro s hopen hftype hstage hen hmb hsamples
  have hexec : exec .intraPred s = .next (intraPredict s) := by
    rw [exec_intraPred hopen hftype hstage, if_pos hen, if_pos (mbInPicture_eq_true.2 hmb)]
  refine ⟨intraPredict s, hexec, fun p j hj => ?_, fun p i hi => ?_, fun p => ?_, fun m => ?_,
    fun p r hr c hc => intraPredict_val hr hc (hsamples p r hr c hc), intraPredict_stage s, ?_⟩
  · rw [intraPredict_edge, gatherEdge_top hmb hj]
  · rw [intraPredict_edge, gatherEdge_left hmb hi]
  · rw [intraPredict_edge, gatherEdge_corner hmb]
  · simp only [← intraSse_eq]
    rw [intraPredict_edge, intraPredict_mode]
    exact selectMode_least _ m
  · rw [intraPredict_stage, ← intraPredict_frame]

/-! INTRA_RECON -/

/-- In an open I frame at IRES with a macroblock of the picture, INTRA_RECON's checks hold (R129, R200). -/
theorem exec_intraRecon {s : State} (hopen : FrameIsOpen s) (hftype : s.ftype = .intra) (hstage : s.stage = .ires)
    (hmb : s.mbidx.toNat < nmb s) : exec .intraRecon s = .next (finishMacroblock (intraReconstruct s)) := by
  delta exec execIntraRecon
  rw [command_effect (by simp [hopen.1]) (predictorChecks_hold hopen hftype hstage),
    if_pos (mbInPicture_eq_true.2 hmb)]

/-- INTRA_RECON's words: the candidate added back, and clipped (R129). -/
theorem intraReconstruct_val (s : State) {p : Plane} {r c : Nat} (hr : r < p.size) (hc : c < p.size) :
    (intraReconstruct s).mbuf.val p r c =
      clip255 (s.mbuf.val p r c + if enIntra s = true then candidate s.edge p s.mode r c else 0) := by
  obtain ⟨hlo, hhi⟩ :=
    clip255_bounds (s.mbuf.val p r c + if enIntra s = true then candidate s.edge p s.mode r c else 0)
  rw [intraReconstruct_mbuf, Mbuf.val_ofFn _ hr hc, toInt_tc16 (by omega) (by omega)]

/-- Settles O28: the clipped words are samples, stored into the macroblock's area of REC and no further. -/
theorem intraReconStoresTheMacroblock : Obligations.IntraReconStoresTheMacroblock := by
  intro s hopen hftype hstage hmb
  have hmb' : (intraReconstruct s).mbidx.toNat < nmb (intraReconstruct s) := by simpa [nmb] using hmb
  refine ⟨_, exec_intraRecon hopen hftype hstage hmb, fun p r hr c hc => ?_, fun p r hr c hc => ?_,
    fun p y hy x hx ho => ?_, finishMacroblock_stage _, ?_, ?_⟩
  · rw [finishMacroblock_mbuf, intraReconstruct_val s hr hc]
  · have hsample := clip255_bounds (s.mbuf.val p r c + if enIntra s = true then candidate s.edge p s.mode r c else 0)
    rw [← intraReconstruct_val s hr hc] at hsample
    have hread := finishMacroblock_read_same hmb' hr hc hsample
    rwa [intraReconstruct_mbidx, intraReconstruct_picw, ← finishMacroblock_mbuf] at hread
  · rw [← intraReconstruct_mbidx, ← intraReconstruct_picw] at ho
    rw [finishMacroblock_read_other hmb' hy hx ho, intraReconstruct_recStore]
  · rw [finishMacroblock_mbidx_toNat hmb', intraReconstruct_mbidx]
  · rw [finishMacroblock_frame, intraReconstruct_frame]

end Sys2Proof.Machine
end

section
/-! PROOFS. The motion search (42_motion.md R144 to R147, R156, R159): what visiting candidates in turn adopts, and what
the three iterations keep. -/

namespace Sys2Proof.Machine

/-! One iteration (R146, R147) -/

/-- `found` is what visiting the candidates at `x n`, `y n` of the neighbours `seen`, in their order, makes of `centre`:
no worse than any of them that is reachable, and `centre` itself or the first reachable one of the best. -/
structure FirstImprovement (s : State) (t : Footprint) (x y : Int × Int → Int) (centre : Found) (seen : List (Int × Int))
    (found : Found) : Prop where
  cost_le : found.cost ≤ centre.cost
  least : ∀ n ∈ seen, reach s t (x n) (y n) = true → found.cost ≤ motionSse s t (x n) (y n)
  origin : found = centre ∨ ∃ before n after, seen = before ++ n :: after ∧ reach s t (x n) (y n) = true ∧
    found = ⟨x n, y n, motionSse s t (x n) (y n)⟩ ∧ found.cost < centre.cost ∧
    ∀ m ∈ before, reach s t (x m) (y m) = true → found.cost < motionSse s t (x m) (y m)

/-- One more candidate visited. -/
theorem FirstImprovement.visit_next {s : State} {t : Footprint} {x y : Int × Int → Int} {centre found : Found}
    {seen : List (Int × Int)} (h : FirstImprovement s t x y centre seen found) (n : Int × Int) :
    FirstImprovement s t x y centre (seen ++ [n]) (visit s t found (x n) (y n)) := by
  rcases visit_cases s t found (x n) (y n) with ⟨hkeep, hle⟩ | ⟨hadopt, hreach, hlt⟩
  · rw [hkeep]
    refine ⟨h.cost_le, fun m hm hr => ?_, h.origin.imp_right ?_⟩
    · rcases List.mem_append.1 hm with hseen | hlast
      · exact h.least m hseen hr
      · obtain rfl := List.mem_singleton.1 hlast
        exact hle hr
    · rintro ⟨before, k, after, rfl, hk⟩
      exact ⟨before, k, after ++ [n], by simp, hk⟩
  · have hbetter : ∀ m ∈ seen, reach s t (x m) (y m) = true →
        motionSse s t (x n) (y n) < motionSse s t (x m) (y m) :=
      fun m hm hr => hlt.trans_le (h.least m hm hr)
    have hcentre := hlt.trans_le h.cost_le
    rw [hadopt]
    refine ⟨hcentre.le, fun m hm hr => ?_, .inr ⟨seen, n, [], rfl, hreach, rfl, hcentre, hbetter⟩⟩
    rcases List.mem_append.1 hm with hseen | hlast
    · exact (hbetter m hseen hr).le
    · obtain rfl := List.mem_singleton.1 hlast
      exact le_rfl

/-- All candidates of a list visited, in order. -/
theorem foldl_visit_firstImprovement (s : State) (t : Footprint) (x y : Int × Int → Int) (centre : Found)
    (l : List (Int × Int)) :
    FirstImprovement s t x y centre l (l.foldl (fun b n => visit s t b (x n) (y n)) centre) := by
  induction l using List.reverseRecOn with
  | nil => exact ⟨le_rfl, by simp, .inl rfl⟩
  | append_singleton l n ih =>
    rw [List.foldl_append]
    exact ih.visit_next n

/-- An iteration visits the eight neighbours of the centre it started with (R146). -/
theorem searchIteration_firstImprovement (s : State) (t : Footprint) (best : Found) (step : Int) :
    FirstImprovement s t (fun n => best.dx + n.1 * step) (fun n => best.dy + n.2 * step) best neighbours
      (searchIteration s t best step) :=
  foldl_visit_firstImprovement s t _ _ best neighbours

/-- Settles O37: the place of the adopted neighbour in R147's order is the number of those before it. -/
theorem iterationAdoptsOnlyStrictImprovement : Obligations.IterationAdoptsOnlyStrictImprovement := by
  intro s t best step order x y r
  have h : FirstImprovement s t x y best order r := searchIteration_firstImprovement s t best step
  refine ⟨h.least, h.origin.imp_right ?_⟩
  rintro ⟨before, n, after, horder, hreach, hr, hlt, hfirst⟩
  refine ⟨before.length, n, by simp [horder], hreach, hr, hlt, fun j m hj hm => hfirst m ?_⟩
  rw [horder, List.getElem?_append_left hj] at hm
  exact List.mem_of_getElem? hm

/-! The three iterations (R146, R156) -/

/-- The five search targets (R143). -/
def searchTargets : List Footprint := [wholeBlock, quadrant 0, quadrant 1, quadrant 2, quadrant 3]

theorem wholeBlock_mem_searchTargets : wholeBlock ∈ searchTargets := by decide

theorem quadrant_mem_searchTargets {q : Nat} (hq : q < 4) : quadrant q ∈ searchTargets := by
  interval_cases q <;> decide

/-- A search target lies in the macroblock's 16 by 16 luma positions (R143). -/
theorem searchTarget_bounds {t : Footprint} (ht : t ∈ searchTargets) : t.oy + t.n ≤ 16 ∧ t.ox + t.n ≤ 16 := by
  revert t; decide

/-- A search starts at (0, 0) and iterates with the steps 4, 2 and 1 (R8, R146). -/
theorem search_eq (s : State) (t : Footprint) : search s t =
    searchIteration s t (searchIteration s t (searchIteration s t ⟨0, 0, motionSse s t 0 0⟩ 4) 2) 1 := by
  simp only [search, searchSteps, List.foldl_cons, List.foldl_nil]

/-- (0, 0) is reachable in every window (R144). -/
theorem reach_zero (s : State) {t : Footprint} (ht : t ∈ searchTargets) : reach s t 0 0 = true := by
  have := searchTarget_bounds ht
  simp only [reach, Bool.and_eq_true, decide_eq_true_iff]
  omega

/-- What the iterations keep of the best vector: it is reachable, within `b` samples, and has its own SSE for a cost,
no more than that of (0, 0) (R156). -/
structure SearchInv (s : State) (t : Footprint) (b : Int) (f : Found) : Prop where
  reachable : reach s t f.dx f.dy = true
  dx_bounds : -b ≤ f.dx ∧ f.dx ≤ b
  dy_bounds : -b ≤ f.dy ∧ f.dy ≤ b
  cost_eq : f.cost = motionSse s t f.dx f.dy
  cost_le : f.cost ≤ motionSse s t 0 0

/-- A neighbour is at most one step away in each direction (R147). -/
theorem neighbour_offset_bounds {n : Int × Int} (hn : n ∈ neighbours) {step : Int} (hs : 0 ≤ step) :
    (-step ≤ n.1 * step ∧ n.1 * step ≤ step) ∧ (-step ≤ n.2 * step ∧ n.2 * step ≤ step) := by
  have hunit : ∀ n ∈ neighbours, (-1 ≤ n.1 ∧ n.1 ≤ 1) ∧ (-1 ≤ n.2 ∧ n.2 ≤ 1) := by decide
  obtain ⟨⟨hx, hx'⟩, hy, hy'⟩ := hunit n hn
  refine ⟨⟨?_, ?_⟩, ?_, ?_⟩ <;> nlinarith

/-- An iteration moves the best vector by at most its step. -/
theorem SearchInv.iteration {s : State} {t : Footprint} {b step : Int} {f : Found} (h : SearchInv s t b f)
    (hs : 0 ≤ step) : SearchInv s t (b + step) (searchIteration s t f step) := by
  have hx := h.dx_bounds
  have hy := h.dy_bounds
  obtain ⟨-, -, horigin⟩ := searchIteration_firstImprovement s t f step
  rcases horigin with heq | ⟨before, n, after, hsplit, hreach, heq, hlt, -⟩
  · rw [heq]
    exact ⟨h.reachable, by omega, by omega, h.cost_eq, h.cost_le⟩
  · have hn : n ∈ neighbours := by simp [hsplit]
    have hoff := neighbour_offset_bounds hn hs
    have hle := hlt.le.trans h.cost_le
    rw [heq] at hle ⊢
    exact ⟨hreach, by dsimp only; omega, by dsimp only; omega, rfl, hle⟩

/-- A search ends within 4 + 2 + 1 samples of (0, 0). -/
theorem search_inv (s : State) {t : Footprint} (ht : t ∈ searchTargets) : SearchInv s t 7 (search s t) := by
  have hstart : SearchInv s t 0 ⟨0, 0, motionSse s t 0 0⟩ := ⟨reach_zero s ht, by simp, by simp, rfl, le_rfl⟩
  exact ((hstart.iteration (step := 4) (by decide)).iteration (step := 2) (by decide)).iteration (step := 1) (by decide)

/-- Settles O36: the search's definition, and what its iterations keep. -/
theorem searchEndsAtAReachableCandidate : Obligations.SearchEndsAtAReachableCandidate := by
  refine ⟨search_eq, fun s t ht => ?_⟩
  obtain ⟨hreach, hdx, hdy, hcost, hle⟩ := search_inv s ht
  exact ⟨hreach, hdx, hdy, hcost, hle⟩

/-! The costs (R145, R150, R159) -/

theorem search_cost_nonneg (s : State) {t : Footprint} (ht : t ∈ searchTargets) : 0 ≤ (search s t).cost := by
  rw [(search_inv s ht).cost_eq]
  exact motionSse_nonneg s t _ _

theorem quadrantCost_eq (s : State) : quadrantCost s = (search s (quadrant 0)).cost + (search s (quadrant 1)).cost
    + (search s (quadrant 2)).cost + (search s (quadrant 3)).cost := by
  simp [quadrantCost, List.range_succ, add_assoc]

theorem partitioned_eq_true {s : State} :
    partitioned s = true ↔ quadrantCost s + s.ovh.toNat < (search s wholeBlock).cost := decide_eq_true_iff

theorem quadrantCost_nonneg (s : State) : 0 ≤ quadrantCost s := by
  have hq {q : Nat} (hq : q < 4) := search_cost_nonneg s (quadrant_mem_searchTargets hq)
  have h0 := hq (q := 0) (by decide)
  have h1 := hq (q := 1) (by decide)
  have h2 := hq (q := 2) (by decide)
  have h3 := hq (q := 3) (by decide)
  rw [quadrantCost_eq]
  omega

/-- Nothing is strictly better than cost 0: the centre stays. -/
theorem searchIteration_of_cost_zero {s : State} {t : Footprint} {f : Found} (h : f.cost = 0) (step : Int) :
    searchIteration s t f step = f := by
  obtain ⟨-, -, heq | ⟨-, n, -, -, -, heq, hlt, -⟩⟩ := searchIteration_firstImprovement s t f step
  · exact heq
  · rw [heq, h] at hlt
    exact absurd hlt (motionSse_nonneg s t _ _).not_gt

theorem search_of_perfect_match {s : State} {t : Footprint} (h : motionSse s t 0 0 = 0) : search s t = ⟨0, 0, 0⟩ := by
  simp only [search_eq, h, searchIteration_of_cost_zero]

/-- Settles O38: cost 0 is never improved, and the four quadrant costs are not negative. -/
theorem perfectMatchStaysUnsplit : Obligations.PerfectMatchStaysUnsplit := by
  refine fun s => ⟨fun t => search_of_perfect_match, fun h => ?_⟩
  have hcost := quadrantCost_nonneg s
  rw [← Bool.not_eq_true, partitioned_eq_true, search_of_perfect_match h]
  dsimp only
  omega

end Sys2Proof.Machine
end

section
/-! PROOFS. The motion datapath's two commands (42_motion.md R140 to R142, R150 to R154, R158). -/

namespace Sys2Proof.Machine

/-! The prediction (R151, R152) -/

theorem clamp_eq_max_min {v lo hi : Int} (h : lo ≤ hi) : clamp v lo hi = max lo (min v hi) := by
  unfold clamp; split_ifs <;> omega

/-- A luma prediction reads SB at the quadrant's vector (R151). -/
theorem motionPrediction_luma (s : State) (r c : Nat) : motionPrediction s .y r c =
    (s.sb.read .y (s.winy.toNat + (mvAt s (2 * (r / 8) + c / 8)).down + r).toNat
      (s.winx.toNat + (mvAt s (2 * (r / 8) + c / 8)).x + c).toNat).toNat := rfl

/-- A chroma prediction reads REF at the luma position the quadrant's vector points to, clamped and halved (R77, R152). -/
theorem motionPrediction_chroma (s : State) {p : Plane} (hp : p ≠ .y) (r c : Nat) : motionPrediction s p r c =
    (refC s p ((16 * mby s + 2 * r : Nat) + (mvAt s (2 * (r / 4) + c / 4)).down)
      ((16 * mbx s + 2 * c : Nat) + (mvAt s (2 * (r / 4) + c / 4)).x)).toNat := by
  cases p with
  | y => exact absurd rfl hp
  | cb | cr => rfl

/-- Settles O35: the predictions' own equations, and that halving a clamped luma position stays in the chroma plane. -/
theorem predictionReadsTheStores : Obligations.PredictionReadsTheStores := by
  refine fun s hmb => ⟨fun r _ c _ => motionPrediction_luma s r c, fun p hp r _ c _ => ?_⟩
  have hcols := picw_pos hmb
  have hrows : 0 < s.pich.toNat := Nat.pos_of_mul_pos_left (Nat.zero_lt_of_lt hmb)
  refine ⟨_, _, ⟨?_, ?_⟩, rfl, rfl, ?_⟩
  · omega
  · omega
  · rw [motionPrediction_chroma s hp, refC, clamp_eq_max_min (by rw [lh]; omega), clamp_eq_max_min (by rw [lw]; omega),
      mbx_eq hmb, mby_eq hmb, lh, lw]
    push_cast
    rfl

/-- A prediction is a sample (R4). -/
theorem motionPrediction_bounds (s : State) (p : Plane) (r c : Nat) :
    0 ≤ motionPrediction s p r c ∧ motionPrediction s p r c ≤ 255 := by
  have hsample (x : Sample) : 0 ≤ (x.toNat : Int) ∧ (x.toNat : Int) ≤ 255 := by
    have := x.isLt; omega
  cases p <;> exact hsample _

/-- A prediction reads the stores, the vectors and the position, none of which the subtraction writes. -/
theorem motionPrediction_motionSubtract (s : State) (p : Plane) (r c : Nat) :
    motionPrediction (motionSubtract s) p r c = motionPrediction s p r c := by
  by_cases hp : p = .y
  · simp [hp, motionPrediction_luma, mvAt]
  · simp [motionPrediction_chroma _ hp, mvAt, refC, lh, lw, mbx, mby]

/-- The residuals of samples fit MBUF's words (R154). -/
theorem motionSubtract_val {s : State} {p : Plane} {r c : Nat} (hr : r < p.size) (hc : c < p.size)
    (hv : 0 ≤ s.mbuf.val p r c ∧ s.mbuf.val p r c ≤ 255) :
    (motionSubtract s).mbuf.val p r c = s.mbuf.val p r c - motionPrediction (motionSubtract s) p r c := by
  obtain ⟨hlo, hhi⟩ := motionPrediction_bounds s p r c
  rw [motionPrediction_motionSubtract, motionSubtract_mbuf, Mbuf.val_ofFn _ hr hc, toInt_tc16 (by omega) (by omega)]

/-! The search's registers (R140, R145, R150) -/

theorem toNat_tc32 {v : Int} (h1 : 0 ≤ v) (h2 : v < 2 ^ 32) : ((tc32 v).toNat : Int) = v := by
  rw [tc32, BitVec.toNat_ofInt]; omega

/-- MBUF holds samples, as it does at RAW (R22). -/
def MbufSamples (m : Mbuf) : Prop := ∀ p : Plane, ∀ r < p.size, ∀ c < p.size, 0 ≤ m.val p r c ∧ m.val p r c ≤ 255

/-- The squared difference of two samples is at most 255 squared (R145). -/
theorem squaredError_bounds {v : Int} (hv : 0 ≤ v ∧ v ≤ 255) (x : Sample) :
    0 ≤ (v - x.toNat) ^ 2 ∧ (v - x.toNat) ^ 2 ≤ 65025 := by
  have hx := x.isLt
  exact ⟨sq_nonneg _, (sq_le_sq' (b := (255 : Int)) (by omega) (by omega)).trans (by norm_num)⟩

/-- On samples an SSE is a sum over the target's positions, each at most 255 squared (R145). -/
theorem motionSse_le {s : State} (hsamples : MbufSamples s.mbuf) {t : Footprint} (ht : t ∈ searchTargets)
    (dx dy : Int) : motionSse s t dx dy ≤ t.n * (t.n * 65025) := by
  obtain ⟨hrows, hcols⟩ := searchTarget_bounds ht
  rw [motionSse, sumSquare_eq_sum]
  refine (sum_range_bounds (lo := 0) fun j hj => ?_).2
  have hrow := sum_range_bounds fun i (hi : i < t.n) => squaredError_bounds
    (hsamples .y (t.oy + j) (by rw [Plane.size]; omega) (t.ox + i) (by rw [Plane.size]; omega))
    (sbSample s (s.winy.toNat + dy + t.oy + j) (s.winx.toNat + dx + t.ox + i))
  rwa [mul_zero] at hrow

/-- On samples a target's cost is at most that of its positions at (0, 0) (R145, R156). -/
theorem search_cost_le {s : State} (hsamples : MbufSamples s.mbuf) {t : Footprint} (ht : t ∈ searchTargets) :
    (search s t).cost ≤ t.n * (t.n * 65025) :=
  (search_inv s ht).cost_le.trans (motionSse_le hsamples ht 0 0)

/-- COST0 holds the whole-block cost unwrapped (R51, R145). -/
theorem motionSearch_cost0_toNat {s : State} (hsamples : MbufSamples s.mbuf) :
    ((motionSearch s).cost0.toNat : Int) = (search s wholeBlock).cost := by
  have hle := search_cost_le hsamples wholeBlock_mem_searchTargets
  rw [motionSearch_cost0, toNat_tc32 (search_cost_nonneg s wholeBlock_mem_searchTargets)
    (hle.trans_lt (by norm_num [wholeBlock]))]

/-- COST1 holds the sum of the quadrant costs unwrapped (R51, R145). -/
theorem motionSearch_cost1_toNat {s : State} (hsamples : MbufSamples s.mbuf) :
    ((motionSearch s).cost1.toNat : Int) = quadrantCost s := by
  have hle (q : Nat) (hq : q < 4) : (search s (quadrant q)).cost ≤ 8 * (8 * 65025) :=
    search_cost_le hsamples (quadrant_mem_searchTargets hq)
  have hsum : quadrantCost s < 2 ^ 32 := by
    have h0 := hle 0 (by decide)
    have h1 := hle 1 (by decide)
    have h2 := hle 2 (by decide)
    have h3 := hle 3 (by decide)
    rw [quadrantCost_eq]
    omega
  rw [motionSearch_cost1, toNat_tc32 (quadrantCost_nonneg s) hsum]

/-- PART compares the costs as the registers hold them (R150). -/
theorem motionSearch_part_iff {s : State} (hsamples : MbufSamples s.mbuf) : (motionSearch s).part = true ↔
    (motionSearch s).cost1.toNat + s.ovh.toNat < (motionSearch s).cost0.toNat := by
  rw [motionSearch_part, partitioned_eq_true, ← motionSearch_cost0_toNat hsamples, ← motionSearch_cost1_toNat hsamples]
  omega

/-- A found vector of a target fits the register's signed bytes (R49, R156). -/
theorem search_vec (s : State) {t : Footprint} (ht : t ∈ searchTargets) :
    (search s t).vec.x = (search s t).dx ∧ (search s t).vec.down = (search s t).dy := by
  obtain ⟨-, hdx, hdy, -, -⟩ := search_inv s ht
  exact ⟨toInt_tc8 (by omega) (by omega), toInt_tc8 (by omega) (by omega)⟩

/-- The vector slots after the partition decision (R150). -/
theorem mvAt_motionSearch (s : State) {q : Nat} (hq : q < 4) : mvAt (motionSearch s) q =
    if (motionSearch s).part = true then (search s (quadrant q)).vec else (search s wholeBlock).vec := by
  simp [mvAt, hq, decidedVectors]

/-- Partitioned, each slot holds its quadrant's vector (R150). -/
theorem mvAt_motionSearch_split {s : State} {q : Nat} (hq : q < 4) (hpart : (motionSearch s).part = true) :
    (mvAt (motionSearch s) q).x = (search s (quadrant q)).dx ∧
      (mvAt (motionSearch s) q).down = (search s (quadrant q)).dy := by
  rw [mvAt_motionSearch s hq, if_pos hpart]
  exact search_vec s (quadrant_mem_searchTargets hq)

/-- Unpartitioned, every slot holds the whole block's vector (R150). -/
theorem mvAt_motionSearch_unsplit {s : State} {q : Nat} (hq : q < 4) (hpart : (motionSearch s).part = false) :
    (mvAt (motionSearch s) q).x = (search s wholeBlock).dx ∧
      (mvAt (motionSearch s) q).down = (search s wholeBlock).dy := by
  rw [mvAt_motionSearch s hq, if_neg (Bool.eq_false_iff.1 hpart)]
  exact search_vec s wholeBlock_mem_searchTargets

/-! MC_PRED (R140 to R142) -/

/-- In an open P frame at RAW, MC_PRED's checks hold (R140, R141, R200). -/
theorem exec_mcPred {s : State} (hopen : FrameIsOpen s) (hftype : s.ftype = .predicted) (hstage : s.stage = .raw) :
    exec .mcPred s =
      if enMc s then
        if mbInPicture s then .next (motionSubtract (motionSearch { s with sb := gatherSb s, sbValid := true }))
        else .fault .macroblockOutsidePicture
      else .next { s with
        mv := Vector.replicate 4 ⟨0, 0⟩, part := false, cost0 := 0, cost1 := 0, stage := .resid } := by
  delta exec execMcPred
  exact command_effect (by simp [hopen.1]) (predictorChecks_hold hopen hftype hstage) _

/-- Settles O33: EN_MC = 0 takes MC_PRED's other branch (R141). -/
theorem mcPredPassThrough : Obligations.McPredPassThrough := by
  intro s hopen hftype hstage hen
  simp [exec_mcPred hopen hftype hstage, hen]

/-- The gathered search buffer is the clamped window of REF around the macroblock (R76, R142). -/
theorem gatherSb_read {s : State} (hmb : s.mbidx.toNat < nmb s) {y x : Nat} (hy : y < 2 * s.winy.toNat + 16)
    (hx : x < 2 * s.winx.toNat + 16) : (gatherSb s).read .y y x = s.refStore.read .y
      (clamp (16 * (s.mbidx.toNat / s.picw.toNat : Nat) - s.winy.toNat + y) 0 (16 * s.pich.toNat - 1)).toNat
      (clamp (16 * (s.mbidx.toNat % s.picw.toNat : Nat) - s.winx.toNat + x) 0 (16 * s.picw.toNat - 1)).toNat := by
  have hwidth : 2 * s.winx.toNat + 16 ≤ 2 ^ 20 := by have := s.winx.isLt; omega
  rw [Store.read, gatherSb, Memory.read_table hwidth _ hy hx, Option.getD_some, refY, mby_eq hmb, mbx_eq hmb, lh, lw]
  push_cast
  rfl

/-- Settles O32: the gathered window (R142), the search's registers (R150) and the residuals (R154). -/
theorem mcPredSearchesAndSubtracts : Obligations.McPredSearchesAndSubtracts := by
  intro s hopen hftype hstage hen hmb hsamples
  have hexec := exec_mcPred hopen hftype hstage
  rw [if_pos hen, if_pos (mbInPicture_eq_true.2 hmb)] at hexec
  refine ⟨_, hexec, fun y hy x hx => ?_, ?_, ?_, fun p r hr c hc => ?_, motionSubtract_stage _, ?_⟩
  · rw [motionSubtract_sb, motionSearch_sb, gatherSb_read hmb hy hx]
  · rw [motionSubtract_sbValid, motionSearch_sbValid]
  · rw [motionSubtract_sb, motionSearch_sb]
    intro g
    have hg : MbufSamples g.mbuf := hsamples
    refine ⟨motionSearch_cost0_toNat hg, ?_, motionSearch_part_iff hg, fun q hq => mvAt_motionSearch_split hq,
      fun q hq => mvAt_motionSearch_unsplit hq⟩
    rw [← quadrantCost_eq]
    exact motionSearch_cost1_toNat hg
  · exact motionSubtract_val hr hc (hsamples p r hr c hc)
  · rw [motionSubtract_stage, motionSubtract_frame, motionSearch_frame]

/-! MC_RECON (R158) -/

/-- A reconstruct command that clips every word and finishes the macroblock: what it stores in MBUF and REC and what it
leaves unchanged (R83, R129, R158). -/
theorem exec_finish_clipped {i : Instr} {s : State} {v : Plane → Nat → Nat → Int} (hmb : s.mbidx.toNat < nmb s)
    (h : exec i s = .next (finishMacroblock (setMbuf (fun p r c => clip255 (v p r c)) s))) :
    ∃ t, exec i s = .next t ∧
      (∀ p : Plane, ∀ r < p.size, ∀ c < p.size, t.mbuf.val p r c = clip255 (v p r c)) ∧
      (∀ p : Plane, ∀ r < p.size, ∀ c < p.size,
        ((t.recStore.read p (p.size * (s.mbidx.toNat / s.picw.toNat) + r)
          (p.size * (s.mbidx.toNat % s.picw.toNat) + c)).toNat : Int) = t.mbuf.val p r c) ∧
      (∀ p : Plane, ∀ y < 2 ^ 20, ∀ x < 2 ^ 20,
        ¬ ((p.size * (s.mbidx.toNat / s.picw.toNat) ≤ y ∧ y < p.size * (s.mbidx.toNat / s.picw.toNat) + p.size) ∧
           (p.size * (s.mbidx.toNat % s.picw.toNat) ≤ x ∧ x < p.size * (s.mbidx.toNat % s.picw.toNat) + p.size)) →
        t.recStore.read p y x = s.recStore.read p y x) ∧
      t.stage = .recon ∧ t.mbidx.toNat = s.mbidx.toNat + 1 ∧
      t = { s with mbuf := t.mbuf, recStore := t.recStore, stage := t.stage, mbidx := t.mbidx } := by
  obtain ⟨u, hu⟩ : ∃ u, u = setMbuf (fun p r c => clip255 (v p r c)) s := ⟨_, rfl⟩
  have hidx : u.mbidx = s.mbidx := by rw [hu, setMbuf_mbidx]
  have hpicw : u.picw = s.picw := by rw [hu, setMbuf_picw]
  have hrec : u.recStore = s.recStore := by rw [hu, setMbuf_recStore]
  have hmbu : u.mbidx.toNat < nmb u := by simpa [hu, nmb] using hmb
  have hval {p : Plane} {r c : Nat} (hr : r < p.size) (hc : c < p.size) : u.mbuf.val p r c = clip255 (v p r c) := by
    obtain ⟨hlo, hhi⟩ := clip255_bounds (v p r c)
    rw [hu, setMbuf_val _ s hr hc (by omega) (by omega)]
  rw [← hu] at h
  rw [← hidx, ← hpicw, ← hrec]
  refine ⟨_, h, fun p r hr c hc => ?_, fun p r hr c hc => ?_, fun p y hy x hx => finishMacroblock_read_other hmbu hy hx,
    finishMacroblock_stage u, finishMacroblock_mbidx_toNat hmbu, ?_⟩
  · rw [finishMacroblock_mbuf, hval hr hc]
  · rw [finishMacroblock_read_same hmbu hr hc (hval hr hc ▸ clip255_bounds _), finishMacroblock_mbuf]
  · rw [finishMacroblock_frame, hu, setMbuf_frame]

/-- In an open P frame at IRES with a macroblock of the picture and vectors inside SB, MC_RECON's checks hold
(R151, R158, R200). -/
theorem exec_mcRecon {s : State} (hopen : FrameIsOpen s) (hftype : s.ftype = .predicted) (hstage : s.stage = .ires)
    (hmb : s.mbidx.toNat < nmb s) (hvec : enMc s = true → vectorsReach s = true) :
    exec .mcRecon s = .next (finishMacroblock (motionReconstruct s)) := by
  have hinside : ¬ (enMc s && !vectorsReach s) = true := by simpa using hvec
  delta exec execMcRecon
  rw [command_effect (by simp [hopen.1]) (predictorChecks_hold hopen hftype hstage),
    if_pos (mbInPicture_eq_true.2 hmb), if_neg hinside]

/-- Settles O34: MC_RECON clips the old word plus the prediction, and finishes the macroblock (R158). -/
theorem mcReconStoresTheMacroblock : Obligations.McReconStoresTheMacroblock :=
  fun _ hopen hftype hstage hmb hvec => exec_finish_clipped hmb (exec_mcRecon hopen hftype hstage hmb hvec)

end Sys2Proof.Machine
end

section
/-! PROOFS. The transform's arithmetic (43_transform.md R174, R177, R179, R180): each accumulator is a row sum of column sums,
so a bound on one weighted sum bounds it, and the inverse of the forward accumulator is two products with the Gram matrix of
the ROM. -/

namespace Sys2Proof.Machine

/-! Weighted sums of eight values -/

/-- The sum of eight values with the given weights. -/
def dot8 (w y : Nat → Int) : Int := ∑ i ∈ Finset.range 8, w i * y i

theorem dot8_congr (w : Nat → Int) {y z : Nat → Int} (h : ∀ i < 8, y i = z i) : dot8 w y = dot8 w z :=
  Finset.sum_congr rfl fun i hi => by rw [h i (Finset.mem_range.1 hi)]

theorem dot8_mul (w y : Nat → Int) (k : Int) : dot8 w (fun i => k * y i) = k * dot8 w y := by
  simp only [dot8, Finset.mul_sum, mul_left_comm]

theorem dot8_sub (w y z : Nat → Int) : dot8 w (fun i => y i - z i) = dot8 w y - dot8 w z := by
  simp only [dot8, mul_sub, Finset.sum_sub_distrib]

/-- Sums along rows and along columns exchange. -/
theorem dot8_comm (v w : Nat → Int) (x : Block) :
    dot8 v (fun i => dot8 w (x i)) = dot8 w fun j => dot8 v fun i => x i j := by
  simp only [dot8, Finset.mul_sum]
  rw [Finset.sum_comm]
  simp only [mul_left_comm]

/-- A weighted sum is at most the weights' total magnitude times the values' bound. -/
theorem abs_dot8_le {w y : Nat → Int} {W M : Int} (hw : ∑ i ∈ Finset.range 8, |w i| ≤ W) (hy : ∀ i < 8, |y i| ≤ M) :
    |dot8 w y| ≤ W * M := by
  have hM : 0 ≤ M := (abs_nonneg _).trans (hy 0 (by decide))
  calc |dot8 w y| ≤ ∑ i ∈ Finset.range 8, |w i * y i| := Finset.abs_sum_le_sum_abs _ _
    _ ≤ ∑ i ∈ Finset.range 8, |w i| * M := Finset.sum_le_sum fun i hi => by
        rw [abs_mul]
        exact mul_le_mul_of_nonneg_left (hy i (Finset.mem_range.1 hi)) (abs_nonneg _)
    _ = (∑ i ∈ Finset.range 8, |w i|) * M := (Finset.sum_mul _ _ _).symm
    _ ≤ W * M := mul_le_mul_of_nonneg_right hw hM

/-! The accumulators and their bounds (R174, R177, R179) -/

/-- Column `n` of the ROM, the weights of the inverse transform. -/
def basisColumn (n : Nat) : Nat → Int := fun k => basis k n

theorem sumSquare_eq_dot8 (v w : Nat → Int) (x : Block) :
    (sumSquare 8 fun i j => v i * w j * x i j) = dot8 v fun i => dot8 w (x i) := by
  simp only [sumSquare_eq_sum, dot8, Finset.mul_sum, mul_assoc]

theorem forwardAcc_eq (x : Block) (u v : Nat) : forwardAcc x u v = dot8 (basis u) fun r => dot8 (basis v) (x r) :=
  sumSquare_eq_dot8 _ _ x

theorem inverseAcc_eq (x : Block) (r c : Nat) :
    inverseAcc x r c = dot8 (basisColumn r) fun u => dot8 (basisColumn c) (x u) :=
  sumSquare_eq_dot8 (basisColumn r) (basisColumn c) x

theorem sum_abs_basis_le : ∀ k < 8, ∑ n ∈ Finset.range 8, |basis k n| ≤ 185360 := by decide

theorem sum_abs_basisColumn_le : ∀ n < 8, ∑ k ∈ Finset.range 8, |basisColumn n k| ≤ 173136 := by decide

theorem abs_forwardAcc_le {x : Block} {M : Int} (hx : ∀ r < 8, ∀ c < 8, |x r c| ≤ M) {u v : Nat} (hu : u < 8)
    (hv : v < 8) : |forwardAcc x u v| ≤ 185360 * (185360 * M) := by
  rw [forwardAcc_eq]
  exact abs_dot8_le (sum_abs_basis_le u hu) fun r hr => abs_dot8_le (sum_abs_basis_le v hv) (hx r hr)

theorem abs_inverseAcc_le {x : Block} {M : Int} (hx : ∀ u < 8, ∀ v < 8, |x u v| ≤ M) {r c : Nat} (hr : r < 8)
    (hc : c < 8) : |inverseAcc x r c| ≤ 173136 * (173136 * M) := by
  rw [inverseAcc_eq]
  exact abs_dot8_le (sum_abs_basisColumn_le r hr) fun u hu => abs_dot8_le (sum_abs_basisColumn_le c hc) (hx u hu)

/-- FDCT's word is within half a unit of the accumulator over 2^29 (R174). -/
theorem forward8_near (x : Block) (u v : Nat) : |forward8 x u v * 2 ^ 29 - forwardAcc x u v| ≤ 2 ^ 28 :=
  rndShr_near _ (by decide)

/-- IDCT's word is within half a unit of the accumulator over 2^35 (R177). -/
theorem inverse8_near (x : Block) (r c : Nat) : |inverse8 x r c * 2 ^ 35 - inverseAcc x r c| ≤ 2 ^ 34 :=
  rndShr_near _ (by decide)

theorem abs_forward8_le {x : Block} (hx : ∀ r < 8, ∀ c < 8, |x r c| ≤ 255) {u v : Nat} (hu : u < 8) (hv : v < 8) :
    |forward8 x u v| ≤ 16320 := by
  have hacc := abs_forwardAcc_le hx hu hv
  have hnear := forward8_near x u v
  rw [abs_le] at *
  omega

theorem abs_inverse8_le {x : Block} (hx : ∀ u < 8, ∀ v < 8, |x u v| ≤ 16528) {r c : Nat} (hr : r < 8) (hc : c < 8) :
    |inverse8 x r c| ≤ 14419 := by
  have hacc := abs_inverseAcc_le hx hr hc
  have hnear := inverse8_near x r c
  rw [abs_le] at *
  omega

/-- Settles O45: the magnitudes of the ROM's rows and columns bound the accumulators, and the rounding adds half a unit
(R179). -/
theorem transformBounds : Obligations.TransformBounds := by
  refine ⟨fun x hx u hu v hv => ⟨?_, abs_forward8_le hx hu hv⟩, fun x hx r hr c hc => ⟨?_, abs_inverse8_le hx hr hc⟩⟩
  · have := abs_forwardAcc_le hx hu hv
    omega
  · have := abs_inverseAcc_le hx hr hc
    omega

/-! The round trip of a block (R180) -/

/-- Row `r` of the ROM's Gram matrix: the products of column `r` with every column. -/
def gram (r : Nat) : Nat → Int := fun i => dot8 (basisColumn r) (basisColumn i)

/-- What the Gram matrix has beyond 2^32 times the identity: the matrix E of R180. -/
def gramError (r : Nat) : Nat → Int := fun i => gram r i - if r = i then 2 ^ 32 else 0

theorem sum_abs_gram_le : ∀ r < 8, ∑ i ∈ Finset.range 8, |gram r i| ≤ 4295148160 := by decide

theorem sum_abs_gramError_le : ∀ r < 8, ∑ i ∈ Finset.range 8, |gramError r i| ≤ 210436 := by decide

/-- Weighting the ROM's row sums by a column weights the values by that column's Gram row. -/
theorem dot8_basisColumn_dot8_basis (r : Nat) (y : Nat → Int) :
    dot8 (basisColumn r) (fun u => dot8 (basis u) y) = dot8 (gram r) y := by
  simp only [dot8, gram, Finset.mul_sum, Finset.sum_mul]
  rw [Finset.sum_comm]
  simp only [basisColumn, mul_assoc]

/-- The inverse accumulator of the unrounded forward transform is the block between two Gram rows. -/
theorem inverseAcc_forwardAcc (x : Block) (r c : Nat) :
    inverseAcc (forwardAcc x) r c = dot8 (gram r) fun i => dot8 (gram c) (x i) := by
  have hrow (u : Nat) : dot8 (basisColumn c) (forwardAcc x u) = dot8 (basis u) fun i => dot8 (gram c) (x i) := by
    calc dot8 (basisColumn c) (forwardAcc x u)
        = dot8 (basisColumn c) fun v => dot8 (basis u) fun i => dot8 (basis v) (x i) := by
          simp only [funext (forwardAcc_eq x u)]
      _ = dot8 (basis u) fun i => dot8 (basisColumn c) fun v => dot8 (basis v) (x i) := dot8_comm _ _ _
      _ = dot8 (basis u) fun i => dot8 (gram c) (x i) := by simp only [dot8_basisColumn_dot8_basis]
  rw [inverseAcc_eq]
  simp only [hrow, dot8_basisColumn_dot8_basis]

/-- A Gram row weights nearly as 2^32 times the identity does. -/
theorem abs_dot8_gram_sub_le {y : Nat → Int} {M : Int} (hy : ∀ i < 8, |y i| ≤ M) {r : Nat} (hr : r < 8) :
    |dot8 (gram r) y - 2 ^ 32 * y r| ≤ 210436 * M := by
  have hsplit : dot8 (gramError r) y = dot8 (gram r) y - 2 ^ 32 * y r := by
    simp [dot8, gramError, sub_mul, ite_mul, hr]
  rw [← hsplit]
  exact abs_dot8_le (sum_abs_gramError_le r hr) hy

/-- Without rounding, the inverse of the forward transform is 2^64 times the block, up to 1/40 of a sample. -/
theorem inverseAcc_forwardAcc_near {x : Block} (hx : ∀ r < 8, ∀ c < 8, |x r c| ≤ 255) {r c : Nat} (hr : r < 8)
    (hc : c < 8) :
    |inverseAcc (forwardAcc x) r c - 2 ^ 64 * x r c| ≤ 210436 * (4295148160 * 255) + 2 ^ 32 * (210436 * 255) := by
  have hcolumn (i : Nat) (hi : i < 8) : |dot8 (gram c) (x i)| ≤ 4295148160 * 255 :=
    abs_dot8_le (sum_abs_gram_le c hc) (hx i hi)
  have hrow := abs_dot8_gram_sub_le hcolumn hr
  have hsample := abs_dot8_gram_sub_le (hx r hr) hc
  rw [inverseAcc_forwardAcc]
  rw [abs_le] at *
  omega

/-- The inverse transform spreads the forward rounding with the gain of the ROM's columns, to at most 0.437 of a sample. -/
theorem inverseAcc_forward8_near (x : Block) {r c : Nat} (hr : r < 8) (hc : c < 8) :
    |2 ^ 29 * inverseAcc (forward8 x) r c - inverseAcc (forwardAcc x) r c| ≤ 173136 * (173136 * 2 ^ 28) := by
  have hlinear : 2 ^ 29 * inverseAcc (forward8 x) r c - inverseAcc (forwardAcc x) r c =
      inverseAcc (fun u v => 2 ^ 29 * forward8 x u v - forwardAcc x u v) r c := by
    simp only [inverseAcc_eq, dot8_sub, dot8_mul]
  rw [hlinear]
  exact abs_inverseAcc_le (fun u _ v _ => by rw [mul_comm]; exact forward8_near x u v) hr hc

/-- R180 before `sat16`: the two errors add to less than half a sample, so the last rounding returns the block. -/
theorem inverse8_forward8 {x : Block} (hx : ∀ r < 8, ∀ c < 8, |x r c| ≤ 255) {r c : Nat} (hr : r < 8) (hc : c < 8) :
    inverse8 (forward8 x) r c = x r c := by
  have hexact := inverseAcc_forwardAcc_near hx hr hc
  have hspread := inverseAcc_forward8_near x hr hc
  have hround := inverse8_near (forward8 x) r c
  rw [abs_le] at *
  omega

theorem sat16_of_abs_le {v : Int} (h : |v| ≤ 32767) : sat16 v = v := by
  rw [abs_le] at h
  exact sat16_of_mem (by omega) (by omega)

theorem inverse8_congr {x y : Block} (h : ∀ u < 8, ∀ v < 8, x u v = y u v) (r c : Nat) :
    inverse8 x r c = inverse8 y r c := by
  have hacc : inverseAcc x r c = inverseAcc y r c := sumSquare_congr fun u hu v hv => by rw [h u hu v hv]
  rw [inverse8, hacc, inverse8]

/-- R180 as the commands compute it: neither saturation acts on a block of residuals. -/
theorem sat16_inverse8_sat16_forward8 {x : Block} (hx : ∀ r < 8, ∀ c < 8, |x r c| ≤ 255) {r c : Nat} (hr : r < 8)
    (hc : c < 8) : sat16 (inverse8 (fun u v => sat16 (forward8 x u v)) r c) = x r c := by
  have hcoef (u : Nat) (hu : u < 8) (v : Nat) (hv : v < 8) : sat16 (forward8 x u v) = forward8 x u v :=
    sat16_of_abs_le ((abs_forward8_le hx hu hv).trans (by decide))
  rw [inverse8_congr hcoef, inverse8_forward8 hx hr hc, sat16_of_abs_le ((hx r hr c hc).trans (by decide))]

end Sys2Proof.Machine
end

section
/-! PROOFS. A macroblock's way through the transform unit with the quantizer off (43_transform.md R180, 44_quantizer.md R187). -/

namespace Sys2Proof.Machine

/-! The commands between FDCT and IDCT -/

theorem execAll_cons {i : Instr} {s t : State} (h : exec i s = .next t) (rest : List Instr) :
    execAll (i :: rest) s = execAll rest t := by
  rw [execAll, h]

/-- The checks of a command that requires an open frame and one stage hold there (R200). -/
theorem stageChecks_hold {s : State} {g : Stage} (hopen : FrameIsOpen s) (hstage : s.stage = g) :
    firstFailed [frameOpen s, stageIs g s] = none := by
  simp [frameOpen, stageIs, hopen.1, hopen.2, hstage]

/-- In an open frame at XFORM, QUANT's checks hold (R186, R200). -/
theorem exec_quant {s : State} (hopen : FrameIsOpen s) (hstage : s.stage = .xform) :
    exec .quant s = .next
      { (if enQ s then setMbuf (fun p r c => quantLevel (s.mbuf.val p r c) s.qp.toNat) s else s) with
        mbqp := s.qp, stage := .quant } := by
  delta exec execQuant
  rw [command_effect (by simp [hopen.1]) (stageChecks_hold hopen hstage)]

/-- In an open frame at QUANT, EMIT's checks hold (R212, R200). -/
theorem exec_emit {s : State} (hopen : FrameIsOpen s) (hstage : s.stage = .quant) :
    exec .emit s = .next
      { s with out := s.out ++ (metadataWords s ++ coefficientWords s.mbuf), stage := .sent } := by
  delta exec execEmit
  rw [command_effect (by simp [hopen.1]) (stageChecks_hold hopen hstage)]

/-- In an open frame at SENT, DEQUANT's checks hold (R189, R200). -/
theorem exec_dequant {s : State} (hopen : FrameIsOpen s) (hstage : s.stage = .sent) :
    exec .dequant s = .next
      { (if enQ s then setMbufSat (fun p r c => dequantWord (s.mbuf.val p r c) s.mbqp.toNat) s else s) with
        stage := .deq } := by
  delta exec execDequant
  rw [command_effect (by simp [hopen.1]) (stageChecks_hold hopen hstage)]

/-- With EN_Q = 0 the commands from QUANT to DEQUANT move STAGE on and leave the macroblock's words as FDCT wrote them
(R187, R189, R212). -/
theorem execAll_quant_emit_dequant_off {s : State} (hopen : FrameIsOpen s) (hstage : s.stage = .xform)
    (hoff : enQ s = false) (rest : List Instr) :
    execAll (.quant :: .emit :: .dequant :: rest) s =
      execAll rest { s with
        out := s.out ++ (metadataWords s ++ coefficientWords s.mbuf), mbqp := s.qp, stage := .deq } := by
  have hquant : exec .quant s = .next { s with mbqp := s.qp, stage := .quant } := by
    rw [exec_quant hopen hstage, hoff]; rfl
  obtain ⟨u, hu⟩ : ∃ u : State, u = { s with mbqp := s.qp, stage := .quant } := ⟨_, rfl⟩
  have hopenU : FrameIsOpen u := by rw [hu]; exact hopen
  obtain ⟨w, hw⟩ : ∃ w : State, w = { u with
    out := u.out ++ (metadataWords u ++ coefficientWords u.mbuf), stage := .sent } := ⟨_, rfl⟩
  have hopenW : FrameIsOpen w := by rw [hw]; exact hopenU
  have hdequant : exec .dequant w = .next { w with stage := .deq } := by
    rw [exec_dequant hopenW (by rw [hw]), show enQ w = false by rw [hw, hu]; exact hoff]; rfl
  rw [execAll_cons hquant, ← hu, execAll_cons (exec_emit hopenU (by rw [hu])), ← hw, execAll_cons hdequant, hw, hu]
  rfl

/-! The words FDCT and IDCT leave (R172, R175, R178, R180) -/

/-- The 8x8 block that holds a word of a channel lies in the channel (R172). -/
theorem block_index_lt {p : Plane} {r i : Nat} (hr : r < p.size) (hi : i < 8) : 8 * (r / 8) + i < p.size := by
  cases p <;> simp only [Plane.size] at hr ⊢ <;> omega

/-- A word's neighbours in its 8x8 block have the same block. -/
theorem blockAt_block_index (m : Mbuf) (p : Plane) {r c i j : Nat} (hi : i < 8) (hj : j < 8) :
    blockAt m p (8 * (r / 8) + i) (8 * (c / 8) + j) = blockAt m p r c := by
  funext a b
  simp only [blockAt, show (8 * (r / 8) + i) / 8 = r / 8 by omega, show (8 * (c / 8) + j) / 8 = c / 8 by omega]

theorem blockAt_mod (m : Mbuf) (p : Plane) (r c : Nat) : blockAt m p r c (r % 8) (c % 8) = m.val p r c := by
  simp only [blockAt, Nat.div_add_mod]

/-- Every word of the macroblock is a residual (10_state.md R22). -/
def MbufResiduals (m : Mbuf) : Prop := ∀ p : Plane, ∀ r < p.size, ∀ c < p.size, |m.val p r c| ≤ 255

theorem MbufResiduals.blockAt_le {m : Mbuf} (h : MbufResiduals m) {p : Plane} {r c : Nat} (hr : r < p.size)
    (hc : c < p.size) : ∀ i < 8, ∀ j < 8, |blockAt m p r c i j| ≤ 255 :=
  fun _ hi _ hj => h p _ (block_index_lt hr hi) _ (block_index_lt hc hj)

/-- FDCT's words of residuals stay within 16320, transformed (R179) or passed through (R175). -/
theorem abs_forwardWord_le {s : State} (h : MbufResiduals s.mbuf) {p : Plane} {r c : Nat} (hr : r < p.size)
    (hc : c < p.size) : |forwardWord s p r c| ≤ 16320 := by
  rw [forwardWord]
  split
  · exact abs_forward8_le (h.blockAt_le hr hc) (Nat.mod_lt _ (by decide)) (Nat.mod_lt _ (by decide))
  · have hword := h p r hr c hc
    rw [abs_le] at *
    simp only [coefFrac]
    omega

/-- Shifting a multiple of 8 by three bits undoes the multiplication (R178). -/
theorem rndShr_eight_mul (v : Int) : rndShr (8 * v) 3 = v := by
  have hnear := rndShr_near (8 * v) (s := 3) (by decide)
  rw [abs_le] at hnear
  omega

/-- IDCT's words, on the words FDCT makes of residuals, are the residuals (R178, R180). -/
theorem inverseWord_of_forwardWord {s t : State} (h : MbufResiduals s.mbuf) (hfeat : enT t = enT s)
    (hval : ∀ p : Plane, ∀ r < p.size, ∀ c < p.size, t.mbuf.val p r c = forwardWord s p r c) {p : Plane} {r c : Nat}
    (hr : r < p.size) (hc : c < p.size) : inverseWord t p r c = s.mbuf.val p r c := by
  cases hT : enT s with
  | false =>
    rw [inverseWord, hfeat, hT, hval p r hr c hc, forwardWord, hT]
    exact rndShr_eight_mul _
  | true =>
    have hblock (u : Nat) (hu : u < 8) (v : Nat) (hv : v < 8) :
        blockAt t.mbuf p r c u v = forward8 (blockAt s.mbuf p r c) u v := by
      rw [blockAt, hval p _ (block_index_lt hr hu) _ (block_index_lt hc hv), forwardWord, if_pos hT,
        blockAt_block_index _ _ hu hv]
      congr 1 <;> omega
    rw [inverseWord, hfeat, if_pos hT, inverse8_congr hblock,
      inverse8_forward8 (h.blockAt_le hr hc) (Nat.mod_lt _ (by decide)) (Nat.mod_lt _ (by decide)), blockAt_mod]

/-- A saturating write of values that fit 16 bits stores them and leaves SAT as it was (R23, R54). -/
theorem setMbufSat_of_fits {f : Plane → Nat → Nat → Int} (s : State)
    (h : ∀ p : Plane, ∀ r < p.size, ∀ c < p.size, |f p r c| ≤ 32767) :
    (setMbufSat f s).sat = s.sat ∧
      ∀ p : Plane, ∀ r < p.size, ∀ c < p.size, (setMbufSat f s).mbuf.val p r c = f p r c := by
  have hfits (p : Plane) (r : Nat) (hr : r < p.size) (c : Nat) (hc : c < p.size) : sat16 (f p r c) = f p r c :=
    sat16_of_abs_le (h p r hr c hc)
  refine ⟨Bool.eq_iff_iff.2 ⟨fun hsat => ?_, fun hsat => (setMbufSat_sat_iff f s).2 (.inl hsat)⟩,
    fun p r hr c hc => by rw [setMbufSat_val f s hr hc, hfits p r hr c hc]⟩
  rcases (setMbufSat_sat_iff f s).1 hsat with hsat | ⟨p, r, hr, c, hc, hne⟩
  · exact hsat
  · exact absurd (hfits p r hr c hc) hne

/-- Through the five commands with EN_Q = 0 every residual comes back, and no saturation acts (R180). -/
theorem execAll_transform_roundTrip {s : State} (hopen : FrameIsOpen s) (hstage : s.stage = .resid)
    (hoff : enQ s = false) (hres : MbufResiduals s.mbuf) :
    ∃ t, execAll [.fdct, .quant, .emit, .dequant, .idct] s = .next t ∧ t.stage = .ires ∧ t.sat = s.sat ∧
      ∀ p : Plane, ∀ r < p.size, ∀ c < p.size, t.mbuf.val p r c = s.mbuf.val p r c := by
  obtain ⟨hsatF, hvalF⟩ := setMbufSat_of_fits s fun p r hr c hc =>
    (abs_forwardWord_le hres hr hc).trans (by decide : (16320 : Int) ≤ 32767)
  obtain ⟨f, hf⟩ : ∃ f : State, f = { setMbufSat (forwardWord s) s with stage := .xform } := ⟨_, rfl⟩
  have hopenF : FrameIsOpen f := by simpa [hf] using hopen
  have hoffF : enQ f = false := by simpa [hf, enQ] using hoff
  obtain ⟨d, hd⟩ : ∃ d : State, d = { f with
    out := f.out ++ (metadataWords f ++ coefficientWords f.mbuf), mbqp := f.qp, stage := .deq } := ⟨_, rfl⟩
  have hopenD : FrameIsOpen d := by rw [hd]; exact hopenF
  have henT : enT d = enT s := by simp [hd, hf, enT]
  have hinverse {p : Plane} {r c : Nat} (hr : r < p.size) (hc : c < p.size) :
      inverseWord d p r c = s.mbuf.val p r c :=
    inverseWord_of_forwardWord hres henT (by rw [hd, hf]; exact hvalF) hr hc
  obtain ⟨hsatI, hvalI⟩ := setMbufSat_of_fits d (f := inverseWord d) fun p r hr c hc => by
    rw [hinverse hr hc]; exact (hres p r hr c hc).trans (by decide)
  refine ⟨{ setMbufSat (inverseWord d) d with stage := .ires }, ?_, rfl, ?_, fun p r hr c hc => ?_⟩
  · rw [execAll_cons (exec_fdct hopen hstage), ← hf, execAll_quant_emit_dequant_off hopenF (by rw [hf]) hoffF, ← hd,
      execAll_cons (exec_idct hopenD (by rw [hd])), execAll]
  · calc (setMbufSat (inverseWord d) d).sat = d.sat := hsatI
      _ = (setMbufSat (forwardWord s) s).sat := by rw [hd, hf]
      _ = s.sat := hsatF
  · exact (hvalI p r hr c hc).trans (hinverse hr hc)

/-- Settles O43: the errors of the integer ROM and of the forward rounding stay below half a sample, and the quantizer, off,
is the identity (R180). -/
theorem transformRoundTripIsExact : Obligations.TransformRoundTripIsExact :=
  ⟨fun _ hx _ hr _ hc => sat16_inverse8_sat16_forward8 hx hr hc,
    fun _ hopen hstage hoff hres => execAll_transform_roundTrip hopen hstage hoff hres⟩

end Sys2Proof.Machine
end

section
/-! PROOFS. The quantizer's arithmetic and its two commands (44_quantizer.md R185 to R187, R189, R190). -/

namespace Sys2Proof.Machine

/-! The quantizer pair (R185, R190) -/

/-- For a positive step a level is R185's formula on integers. -/
theorem quantLevel_eq (w : Int) {q : Nat} (hq : 1 ≤ q) : quantLevel w q = w.sign * ((|w| + 4 * q) / (8 * q)) := by
  rw [quantLevel, floorDiv_of_pos (by omega)]
  push_cast [Int.natCast_natAbs]
  rfl

theorem dequantWord_eq (l : Int) (q : Nat) : dequantWord l q = l * (8 * q) := by
  rw [dequantWord]; ring

/-- R190 (a): a word and its level's reconstruction differ by half a step at most. -/
theorem dequantWord_quantLevel_near (w : Int) {q : Nat} (hq : 1 ≤ q) :
    |dequantWord (quantLevel w q) q - w| ≤ 4 * q := by
  have hnear := sign_mul_div_near w (d := 8 * q) (h := 4 * q) (by omega) (by ring)
  rw [dequantWord_eq, quantLevel, floorDiv_of_pos (by omega)]
  exact_mod_cast hnear

/-- Multiples of a step that are half a step apart at most are the same multiple. -/
theorem eq_of_abs_mul_step_le {a b : Int} {q : Nat} (hq : 1 ≤ q) (h : |a * (8 * q) - b * (8 * q)| ≤ 4 * q) : a = b := by
  have hstep : (0 : Int) < 8 * q := by omega
  rw [← sub_mul, abs_mul, abs_of_pos hstep] at h
  have hlt : |a - b| < 1 := lt_of_mul_lt_mul_right (a := 8 * (q : Int)) (by omega) hstep.le
  exact sub_eq_zero.1 (Int.abs_lt_one_iff.1 hlt)

/-- R190 (b): the level of a level's reconstruction is that level. -/
theorem quantLevel_dequantWord (l : Int) {q : Nat} (hq : 1 ≤ q) : quantLevel (dequantWord l q) q = l := by
  have hnear := dequantWord_quantLevel_near (dequantWord l q) hq
  rw [dequantWord_eq (quantLevel _ _), dequantWord_eq l] at hnear
  rw [dequantWord_eq]
  exact eq_of_abs_mul_step_le hq hnear

/-- R190 (c): a level changes sign with its word. -/
theorem quantLevel_neg (w : Int) (q : Nat) : quantLevel (-w) q = -quantLevel w q := by
  rw [quantLevel, quantLevel, Int.sign_neg, Int.natAbs_neg, neg_mul]

theorem dequantWord_neg (l : Int) (q : Nat) : dequantWord (-l) q = -dequantWord l q := by
  rw [dequantWord_eq, dequantWord_eq, neg_mul]

/-- On words that are not negative a level is a quotient. -/
theorem quantLevel_of_nonneg {w : Int} {q : Nat} (hw : 0 ≤ w) (hq : 1 ≤ q) :
    quantLevel w q = (w + 4 * q) / (8 * q) := by
  rw [quantLevel_eq w hq, abs_of_nonneg hw]
  rcases hw.eq_or_lt with rfl | hpos
  · rw [Int.sign_zero, zero_mul, Int.ediv_eq_zero_of_lt] <;> omega
  · rw [Int.sign_eq_one_of_pos hpos, one_mul]

theorem quantLevel_nonneg {w : Int} {q : Nat} (hw : 0 ≤ w) (hq : 1 ≤ q) : 0 ≤ quantLevel w q := by
  rw [quantLevel_of_nonneg hw hq]
  exact Int.ediv_nonneg (by omega) (by omega)

theorem quantLevel_mono_of_nonneg {w w' : Int} {q : Nat} (hq : 1 ≤ q) (hw : 0 ≤ w) (h : w ≤ w') :
    quantLevel w q ≤ quantLevel w' q := by
  rw [quantLevel_of_nonneg hw hq, quantLevel_of_nonneg (hw.trans h) hq]
  exact Int.ediv_le_ediv (by omega) (by omega)

/-- R190 (c): the words of one sign by the quotient and by oddness, 0 between the signs. -/
theorem quantLevel_mono {w w' : Int} {q : Nat} (hq : 1 ≤ q) (h : w ≤ w') : quantLevel w q ≤ quantLevel w' q := by
  rcases le_total 0 w with hw | hw
  · exact quantLevel_mono_of_nonneg hq hw h
  · rcases le_total 0 w' with hw' | hw'
    · have hneg := quantLevel_nonneg (w := -w) (by omega) hq
      have hpos := quantLevel_nonneg hw' hq
      rw [quantLevel_neg] at hneg
      omega
    · have hmirror := quantLevel_mono_of_nonneg (w := -w') (w' := -w) hq (by omega) (by omega)
      rw [quantLevel_neg, quantLevel_neg] at hmirror
      omega

theorem dequantWord_mono {l l' : Int} (q : Nat) (h : l ≤ l') : dequantWord l q ≤ dequantWord l' q := by
  rw [dequantWord_eq, dequantWord_eq]
  exact mul_le_mul_of_nonneg_right h (by omega)

/-- R190 (d): a multiple of the step is a reconstruction, and comes back. -/
theorem dequantWord_quantLevel_of_multiple (k : Int) {q : Nat} (hq : 1 ≤ q) :
    dequantWord (quantLevel (k * (8 * q)) q) q = k * (8 * q) := by
  rw [← dequantWord_eq, quantLevel_dequantWord k hq]

/-- Settles O46: the level is the nearest multiple of the step, and the clauses follow from that and from R185's formula. -/
theorem quantizerPairProperties : Obligations.QuantizerPairProperties := fun q hq =>
  ⟨fun w => dequantWord_quantLevel_near w hq, fun l => quantLevel_dequantWord l hq,
    fun w => ⟨quantLevel_neg w q, dequantWord_neg w q⟩,
    fun _ _ h => ⟨quantLevel_mono hq h, dequantWord_mono q h⟩,
    fun k => dequantWord_quantLevel_of_multiple k hq⟩

/-! QUANT (R186, R187) -/

/-- A level is at most a quarter of its word: a level other than 0 is half a step within its reconstruction. -/
theorem four_mul_abs_quantLevel_le (w : Int) {q : Nat} (hq : 1 ≤ q) : 4 * |quantLevel w q| ≤ |w| := by
  rcases eq_or_ne (quantLevel w q) 0 with h0 | h0
  · rw [h0, abs_zero, mul_zero]; exact abs_nonneg w
  · have hlevel : 1 ≤ |quantLevel w q| := Int.one_le_abs h0
    have hnear := (abs_sub_abs_le_abs_sub _ _).trans (dequantWord_quantLevel_near w hq)
    have hstep : (1 : Int) ≤ q := by exact_mod_cast hq
    rw [dequantWord_eq, abs_mul, abs_of_pos (by omega : (0 : Int) < 8 * q)] at hnear
    nlinarith only [hlevel, hnear, hstep]

/-- A level of a 16-bit word fits the word. -/
theorem quantLevel_val_bounds (m : Mbuf) (p : Plane) (r c : Nat) {q : Nat} (hq : 1 ≤ q) :
    -32768 ≤ quantLevel (m.val p r c) q ∧ quantLevel (m.val p r c) q ≤ 32767 := by
  have hlevel := four_mul_abs_quantLevel_le (m.val p r c) hq
  obtain ⟨hlo, hhi⟩ := m.val_bounds p r c
  have hword : |m.val p r c| ≤ 32768 := abs_le.2 ⟨by omega, by omega⟩
  have habs := abs_le.1 (by omega : |quantLevel (m.val p r c) q| ≤ 32767)
  omega

/-- QUANT's words: every word replaced by its level, or none. -/
theorem exec_quant_val {s : State} (hopen : FrameIsOpen s) (hstage : s.stage = .xform) (hqp : 1 ≤ s.qp.toNat) :
    ∃ t, exec .quant s = .next t ∧
      (∀ p : Plane, ∀ r < p.size, ∀ c < p.size, t.mbuf.val p r c =
        if enQ s = true then quantLevel (s.mbuf.val p r c) s.qp.toNat else s.mbuf.val p r c) ∧
      t.mbqp = s.qp ∧ t.stage = .quant ∧ (enQ s = false → t.mbuf = s.mbuf) ∧
      t = { s with mbuf := t.mbuf, mbqp := t.mbqp, stage := t.stage } := by
  have hexec := exec_quant hopen hstage
  cases hQ : enQ s with
  | false =>
    rw [hQ, if_neg (by decide)] at hexec
    exact ⟨_, hexec, fun _ _ _ _ _ => rfl, rfl, rfl, fun _ => rfl, rfl⟩
  | true =>
    rw [if_pos hQ] at hexec
    refine ⟨_, hexec, fun p r hr c hc => ?_, rfl, rfl, fun h => absurd h (by decide), ?_⟩
    · obtain ⟨hlo, hhi⟩ := quantLevel_val_bounds s.mbuf p r c hqp
      rw [if_pos rfl, setMbuf_val _ s hr hc hlo hhi]
    · rw [setMbuf_frame]

/-- Settles O41: QUANT's effect, its levels in R185's closed form. -/
theorem quantDividesEveryWord : Obligations.QuantDividesEveryWord := by
  intro s hopen hstage hqp
  obtain ⟨t, hexec, hval, hrest⟩ := exec_quant_val hopen hstage hqp
  refine ⟨t, hexec, fun p r hr c hc => ?_, hrest⟩
  rw [hval p r hr c hc, quantLevel_eq _ hqp]

/-! DEQUANT (R189) -/

/-- Settles O42: with EN_Q = 1 a saturating write of every word (R23, R54), with EN_Q = 0 none. -/
theorem dequantMultipliesEveryLevel : Obligations.DequantMultipliesEveryLevel := by
  intro s hopen hstage
  have hexec := exec_dequant hopen hstage
  cases hQ : enQ s with
  | false =>
    rw [hQ, if_neg (by decide)] at hexec
    exact ⟨_, hexec, fun _ _ _ _ _ => rfl, by simp, rfl, fun _ => rfl, rfl⟩
  | true =>
    rw [if_pos hQ] at hexec
    obtain ⟨t, ht, hval, hsat, hnext, hframe⟩ := exec_setMbufSat hexec fun _ _ _ => rfl
    exact ⟨t, ht, hval, by simpa [dequantWord] using hsat, hnext, fun h => absurd h (by decide), hframe⟩

end Sys2Proof.Machine
end

section
/-! PROOFS. The arithmetic of the closed loop (44_quantizer.md R192): a residual's way through the transform and the quantizer
and back, as a function of the residuals of its own 8x8 block. -/

namespace Sys2Proof.Machine

/-- FDCT's effect on one plane of words: `FT` of R192. -/
def forwardPlane (enT : Bool) (x : Block) : Block := fun r c =>
  if enT then forward8 (fun i j => x (8 * (r / 8) + i) (8 * (c / 8) + j)) (r % 8) (c % 8) else 8 * x r c

/-- QUANT's and DEQUANT's effect on one word: `DQ(Q(w))` of R192. -/
def requantize (enQ : Bool) (q : Nat) (w : Int) : Int := if enQ then dequantWord (quantLevel w q) q else w

/-- IDCT's effect on one plane of words: `IT` of R192. -/
def inversePlane (enT : Bool) (x : Block) : Block := fun r c =>
  if enT then inverse8 (fun i j => x (8 * (r / 8) + i) (8 * (c / 8) + j)) (r % 8) (c % 8) else rndShr (x r c) 3

theorem forwardWord_eq_forwardPlane (s : State) (p : Plane) (r c : Nat) :
    forwardWord s p r c = forwardPlane (enT s) (s.mbuf.val p) r c := rfl

theorem inverseWord_eq_inversePlane (s : State) (p : Plane) (r c : Nat) :
    inverseWord s p r c = inversePlane (enT s) (s.mbuf.val p) r c := rfl

theorem residualLoop_eq (enT enQ : Bool) (q : Nat) (x : Block) :
    residualLoop enT enQ q x = inversePlane enT fun i j => requantize enQ q (forwardPlane enT x i j) := rfl

/-! Only the words of the plane matter -/

theorem forward8_congr {x y : Block} (h : ∀ r < 8, ∀ c < 8, x r c = y r c) (u v : Nat) :
    forward8 x u v = forward8 y u v := by
  have hacc : forwardAcc x u v = forwardAcc y u v := sumSquare_congr fun r hr c hc => by rw [h r hr c hc]
  rw [forward8, hacc, forward8]

theorem forwardPlane_congr (enT : Bool) {p : Plane} {x y : Block} (h : ∀ r < p.size, ∀ c < p.size, x r c = y r c)
    {r c : Nat} (hr : r < p.size) (hc : c < p.size) : forwardPlane enT x r c = forwardPlane enT y r c := by
  rw [forwardPlane, forwardPlane, h r hr c hc,
    forward8_congr fun i hi j hj => h _ (block_index_lt hr hi) _ (block_index_lt hc hj)]

theorem inversePlane_congr (enT : Bool) {p : Plane} {x y : Block} (h : ∀ r < p.size, ∀ c < p.size, x r c = y r c)
    {r c : Nat} (hr : r < p.size) (hc : c < p.size) : inversePlane enT x r c = inversePlane enT y r c := by
  rw [inversePlane, inversePlane, h r hr c hc,
    inverse8_congr fun i hi j hj => h _ (block_index_lt hr hi) _ (block_index_lt hc hj)]

theorem residualLoop_congr (enT enQ : Bool) (q : Nat) {p : Plane} {x y : Block}
    (h : ∀ r < p.size, ∀ c < p.size, x r c = y r c) {r c : Nat} (hr : r < p.size) (hc : c < p.size) :
    residualLoop enT enQ q x r c = residualLoop enT enQ q y r c := by
  rw [residualLoop_eq, residualLoop_eq]
  exact inversePlane_congr enT (fun i hi j hj => by rw [forwardPlane_congr enT h hi hj]) hr hc

/-! The ranges of the words on the way (10_state.md R22) -/

/-- A word leaves the quantizer pair at most half a step away (R190 (a)). -/
theorem abs_requantize_le (enQ : Bool) {q : Nat} (hq : 1 ≤ q) (w : Int) : |requantize enQ q w| ≤ |w| + 4 * q := by
  cases enQ with
  | false => exact le_add_of_nonneg_right (by omega)
  | true =>
    have hnear := (abs_sub_abs_le_abs_sub _ _).trans (dequantWord_quantLevel_near w hq)
    rw [requantize, if_pos rfl]
    omega

/-- IDCT's words of reconstructed coefficients stay within 14419, transformed (R179) or passed through (R178). -/
theorem abs_inverseWord_le {s : State} (h : ∀ p : Plane, ∀ r < p.size, ∀ c < p.size, |s.mbuf.val p r c| ≤ 16528)
    {p : Plane} {r c : Nat} (hr : r < p.size) (hc : c < p.size) : |inverseWord s p r c| ≤ 14419 := by
  rw [inverseWord]
  split
  · exact abs_inverse8_le (fun i hi j hj => h p _ (block_index_lt hr hi) _ (block_index_lt hc hj))
      (Nat.mod_lt _ (by decide)) (Nat.mod_lt _ (by decide))
  · have hword := h p r hr c hc
    have hnear := rndShr_near (s.mbuf.val p r c) (s := coefFrac) (by decide)
    rw [abs_le] at *
    simp only [coefFrac] at *
    omega

end Sys2Proof.Machine
end

section
/-! PROOFS. The closed loop (44_quantizer.md R192): the commands from FDCT to IDCT compute `residualLoop`, and the reconstruct
command adds back what the predictor subtracted. -/

namespace Sys2Proof.Machine

/-! What the commands from FDCT to IDCT leave unchanged -/

/-- The two states differ in MBUF, SAT, STAGE, MBQP and OUT only. -/
def LoopFrame (s t : State) : Prop :=
  t = { s with mbuf := t.mbuf, sat := t.sat, stage := t.stage, mbqp := t.mbqp, out := t.out }

theorem LoopFrame.trans {s t u : State} (h : LoopFrame s t) (h' : LoopFrame t u) : LoopFrame s u := by
  rw [LoopFrame] at *
  calc u = { t with mbuf := u.mbuf, sat := u.sat, stage := u.stage, mbqp := u.mbqp, out := u.out } := h'
    _ = { s with mbuf := u.mbuf, sat := u.sat, stage := u.stage, mbqp := u.mbqp, out := u.out } := by rw [h]

section
variable {s t : State} (h : LoopFrame s t)
include h

theorem LoopFrame.frameIsOpen (hopen : FrameIsOpen s) : FrameIsOpen t :=
  ⟨(congrArg State.phase h).trans hopen.1, (congrArg State.fopen h).trans hopen.2⟩

theorem LoopFrame.feat : t.feat = s.feat := by rw [h]

theorem LoopFrame.qp : t.qp = s.qp := by rw [h]

theorem LoopFrame.ftype : t.ftype = s.ftype := by rw [h]

theorem LoopFrame.edge : t.edge = s.edge := by rw [h]

theorem LoopFrame.mode : t.mode = s.mode := by rw [h]

/-- The macroblock is still one of the picture's. -/
theorem LoopFrame.mbidx_lt (hmb : s.mbidx.toNat < nmb s) : t.mbidx.toNat < nmb t := by
  rw [h]; exact hmb

/-- The stores and the vectors a prediction reads are kept. -/
theorem LoopFrame.motionPrediction (p : Plane) (r c : Nat) : motionPrediction t p r c = motionPrediction s p r c := by
  rw [h]; cases p <;> rfl

theorem LoopFrame.vectorsReach : vectorsReach t = vectorsReach s := by
  rw [h]; rfl

end

/-! The commands from FDCT to IDCT -/

/-- A saturating write of values that fit 16 bits stores them and keeps the loop's frame (R23). -/
theorem exec_setMbufSat_of_fits {i : Instr} {s : State} {g : Stage} {f : Plane → Nat → Nat → Int}
    (h : exec i s = .next { setMbufSat f s with stage := g })
    (hfits : ∀ p : Plane, ∀ r < p.size, ∀ c < p.size, |f p r c| ≤ 32767) :
    ∃ t, exec i s = .next t ∧ LoopFrame s t ∧ t.stage = g ∧
      ∀ p : Plane, ∀ r < p.size, ∀ c < p.size, t.mbuf.val p r c = f p r c :=
  ⟨_, h, by rw [LoopFrame, setMbufSat_frame], rfl, (setMbufSat_of_fits s hfits).2⟩

/-- QUANT, EMIT and DEQUANT take every coefficient through the quantizer pair, or leave it (R186, R187, R189). -/
theorem execAll_quant_emit_dequant {s : State} (hopen : FrameIsOpen s) (hstage : s.stage = .xform)
    (hqp : 1 ≤ s.qp.toNat ∧ s.qp.toNat ≤ 52)
    (hcoef : ∀ p : Plane, ∀ r < p.size, ∀ c < p.size, |s.mbuf.val p r c| ≤ 16320) (rest : List Instr) :
    ∃ t, execAll (.quant :: .emit :: .dequant :: rest) s = execAll rest t ∧ LoopFrame s t ∧ t.stage = .deq ∧
      ∀ p : Plane, ∀ r < p.size, ∀ c < p.size,
        t.mbuf.val p r c = requantize (enQ s) s.qp.toNat (s.mbuf.val p r c) := by
  obtain ⟨a, hquant, hvalA, hmbqp, hstageA, -, hframeA⟩ := exec_quant_val hopen hstage hqp.1
  have hloopA : LoopFrame s a := by rw [LoopFrame, hframeA]
  have hemit := exec_emit (hloopA.frameIsOpen hopen) hstageA
  obtain ⟨e, he⟩ : ∃ e : State, e = { a with
    out := a.out ++ (metadataWords a ++ coefficientWords a.mbuf), stage := .sent } := ⟨_, rfl⟩
  rw [← he] at hemit
  have hloopE : LoopFrame s e := hloopA.trans (by rw [LoopFrame, he])
  have henE : enQ e = enQ s := by rw [enQ, hloopE.feat, enQ]
  obtain ⟨d, hdequant, hvalD, -, hstageD, -, hframeD⟩ :=
    dequantMultipliesEveryLevel e (hloopE.frameIsOpen hopen) (by rw [he])
  refine ⟨d, ?_, hloopE.trans (by rw [LoopFrame, hframeD]), hstageD, fun p r hr c hc => ?_⟩
  · rw [execAll_cons hquant, execAll_cons hemit, execAll_cons hdequant]
  · have hlevel : e.mbuf.val p r c = a.mbuf.val p r c := by rw [he]
    have hstep : e.mbqp = s.qp := by rw [he]; exact hmbqp
    have hpair := abs_requantize_le (enQ s) hqp.1 (s.mbuf.val p r c)
    have hword := hcoef p r hr c hc
    rw [hvalD p r hr c hc, henE, hlevel, hstep, hvalA p r hr c hc]
    cases hQ : enQ s with
    | false => rfl
    | true =>
      rw [hQ] at hpair
      exact sat16_of_abs_le (v := requantize true s.qp.toNat (s.mbuf.val p r c)) (by omega)

/-- The commands from FDCT to IDCT compute R192's inner term, and no saturation acts. -/
theorem execAll_residualLoop {s : State} (hopen : FrameIsOpen s) (hstage : s.stage = .resid)
    (hqp : 1 ≤ s.qp.toNat ∧ s.qp.toNat ≤ 52) (hres : MbufResiduals s.mbuf) (rest : List Instr) :
    ∃ t, execAll (.fdct :: .quant :: .emit :: .dequant :: .idct :: rest) s = execAll rest t ∧ LoopFrame s t ∧
      t.stage = .ires ∧ ∀ p : Plane, ∀ r < p.size, ∀ c < p.size,
        t.mbuf.val p r c = residualLoop (enT s) (enQ s) s.qp.toNat (s.mbuf.val p) r c := by
  obtain ⟨f, hfdct, hloopF, hstageF, hvalF⟩ := exec_setMbufSat_of_fits (exec_fdct hopen hstage) fun p r hr c hc =>
    (abs_forwardWord_le hres hr hc).trans (by decide)
  have hcoef (p : Plane) (r : Nat) (hr : r < p.size) (c : Nat) (hc : c < p.size) : |f.mbuf.val p r c| ≤ 16320 := by
    rw [hvalF p r hr c hc]; exact abs_forwardWord_le hres hr hc
  obtain ⟨d, hpair, hloopFD, hstageD, hvalD⟩ := execAll_quant_emit_dequant (hloopF.frameIsOpen hopen) hstageF
    (by rwa [hloopF.qp]) hcoef (.idct :: rest)
  have hloopD := hloopF.trans hloopFD
  have hdeq (p : Plane) (r : Nat) (hr : r < p.size) (c : Nat) (hc : c < p.size) : |d.mbuf.val p r c| ≤ 16528 := by
    have hnear := abs_requantize_le (enQ f) hqp.1 (f.mbuf.val p r c)
    have hword := hcoef p r hr c hc
    rw [hvalD p r hr c hc, hloopF.qp]
    omega
  obtain ⟨t, hidct, hloopT, hstageT, hvalT⟩ := exec_setMbufSat_of_fits
    (exec_idct (hloopD.frameIsOpen hopen) hstageD) fun p r hr c hc =>
      (abs_inverseWord_le hdeq hr hc).trans (by decide)
  refine ⟨t, by rw [execAll_cons hfdct, hpair, execAll_cons hidct], hloopD.trans hloopT, hstageT,
    fun p r hr c hc => ?_⟩
  rw [hvalT p r hr c hc, inverseWord_eq_inversePlane, residualLoop_eq, enT, hloopD.feat, ← enT]
  refine inversePlane_congr (enT s) (fun i hi j hj => ?_) hr hc
  rw [hvalD p i hi j hj, hvalF p i hi j hj, enQ, hloopF.feat, ← enQ, hloopF.qp, forwardWord_eq_forwardPlane]

/-! The predictor's state before the loop -/

/-- At RAW the macroblock buffer holds samples (R22). -/
theorem RunInv.raw_samples {s : State} (h : RunInv s) (hopen : FrameIsOpen s) (hstage : s.stage = .raw) :
    MbufSamples s.mbuf :=
  h.range.inRange hopen.1 0 255 (by rw [hstage]; rfl)

/-- At RAW the macroblock is one of the picture's (R219 b). -/
theorem RunInv.raw_mbidx_lt {s : State} (h : RunInv s) (hopen : FrameIsOpen s) (hstage : s.stage = .raw) :
    s.mbidx.toNat < nmb s :=
  h.sequencer.busyInPicture hopen.1 (by rw [hstage]; rfl)

/-- The loop for either predictor: `u` holds the residuals of the samples of `s` against the prediction `pred`, and the
reconstruct command adds `pred` back and clips (R192). -/
theorem execAll_closed_loop {s u : State} {recon : Instr} {pred : Plane → Nat → Nat → Int} (h : RunInv s)
    (hopen : FrameIsOpen s) (hstage : s.stage = .raw) (hopenU : FrameIsOpen u) (hresid : u.stage = .resid)
    (hqpU : u.qp = s.qp) (hfeatU : u.feat = s.feat)
    (hval : ∀ p : Plane, ∀ r < p.size, ∀ c < p.size, u.mbuf.val p r c = s.mbuf.val p r c - pred p r c)
    (hpred : ∀ p : Plane, ∀ r < p.size, ∀ c < p.size, 0 ≤ pred p r c ∧ pred p r c ≤ 255)
    (hrecon : ∀ d, LoopFrame u d → d.stage = .ires → ∃ t, exec recon d = .next t ∧
      ∀ p : Plane, ∀ r < p.size, ∀ c < p.size, t.mbuf.val p r c = clip255 (d.mbuf.val p r c + pred p r c)) :
    ∃ t, execAll [.fdct, .quant, .emit, .dequant, .idct, recon] u = .next t ∧
      ∀ p : Plane, ∀ r < p.size, ∀ c < p.size, t.mbuf.val p r c = clip255 (pred p r c +
        residualLoop (enT s) (enQ s) s.qp.toNat (fun i j => s.mbuf.val p i j - pred p i j) r c) := by
  have hres : MbufResiduals u.mbuf := fun p r hr c hc => by
    have hsample := h.raw_samples hopen hstage p r hr c hc
    have hprediction := hpred p r hr c hc
    rw [hval p r hr c hc, abs_le]
    omega
  have hqp : 1 ≤ u.qp.toNat ∧ u.qp.toNat ≤ 52 := by
    obtain ⟨⟨hlo, hhi⟩, -⟩ := h.sequencer.runLegal hopen.1
    rw [hqpU]; omega
  obtain ⟨d, hloop, hframe, hires, hvalD⟩ := execAll_residualLoop hopenU hresid hqp hres [recon]
  obtain ⟨t, ht, hvalT⟩ := hrecon d hframe hires
  refine ⟨t, by rw [hloop, execAll_cons ht, execAll], fun p r hr c hc => ?_⟩
  rw [hvalT p r hr c hc, hvalD p r hr c hc, residualLoop_congr _ _ _ (hval p) hr hc, add_comm, hqpU, enT, enQ, hfeatU,
    ← enT, ← enQ]

/-! I frames -/

/-- The prediction INTRA_PRED applied: the stored mode's candidate, nothing with EN_INTRA = 0 (R127, R128). -/
def intraApplied (en : Bool) (u : State) (p : Plane) (r c : Nat) : Int :=
  if en = true then candidate u.edge p u.mode r c else 0

theorem intraApplied_bounds (en : Bool) (u : State) (p : Plane) (r : Nat) (hr : r < p.size) (c : Nat) (hc : c < p.size) :
    0 ≤ intraApplied en u p r c ∧ intraApplied en u p r c ≤ 255 := by
  rw [intraApplied]
  split
  · exact candidate_bounds u.edge p u.mode hr hc
  · decide

/-- INTRA_PRED leaves the residuals against the prediction it applied (R120, R127, R128). -/
theorem exec_intraPred_residuals {s : State} (hopen : FrameIsOpen s) (hftype : s.ftype = .intra)
    (hstage : s.stage = .raw) (hmb : s.mbidx.toNat < nmb s) (hsamples : MbufSamples s.mbuf) :
    ∃ u, exec .intraPred s = .next u ∧ u.stage = .resid ∧
      u = { s with mbuf := u.mbuf, edge := u.edge, mode := u.mode, stage := u.stage } ∧
      ∀ p : Plane, ∀ r < p.size, ∀ c < p.size,
        u.mbuf.val p r c = s.mbuf.val p r c - intraApplied (enIntra s) u p r c := by
  cases hen : enIntra s with
  | false => exact ⟨_, intraPredPassThrough s hopen hftype hstage hen, rfl, rfl, fun _ _ _ _ _ => (sub_zero _).symm⟩
  | true =>
    obtain ⟨u, hexec, -, -, -, -, hval, hresid, hframe⟩ :=
      intraPredSubtractsTheBestCandidate s hopen hftype hstage hen hmb hsamples
    exact ⟨u, hexec, hresid, hframe, hval⟩

/-- R192 in an I frame. -/
theorem intra_closed_loop {s : State} (h : RunInv s) (hopen : FrameIsOpen s) (hstage : s.stage = .raw)
    (hftype : s.ftype = .intra) : ∃ u t, exec .intraPred s = .next u ∧
      execAll [.fdct, .quant, .emit, .dequant, .idct, .intraRecon] u = .next t ∧
      ∀ p : Plane, ∀ r < p.size, ∀ c < p.size, t.mbuf.val p r c = clip255 (intraApplied (enIntra s) u p r c +
        residualLoop (enT s) (enQ s) s.qp.toNat
          (fun i j => s.mbuf.val p i j - intraApplied (enIntra s) u p i j) r c) := by
  have hmb := h.raw_mbidx_lt hopen hstage
  obtain ⟨u, hpred, hresid, hframe, hval⟩ :=
    exec_intraPred_residuals hopen hftype hstage hmb (h.raw_samples hopen hstage)
  have hopenU : FrameIsOpen u := by rw [hframe]; exact hopen
  have hftypeU : u.ftype = .intra := by rw [hframe]; exact hftype
  have hmbU : u.mbidx.toNat < nmb u := by rw [hframe]; exact hmb
  have hfeatU : u.feat = s.feat := by rw [hframe]
  obtain ⟨t, hloop, hvalT⟩ := execAll_closed_loop (recon := .intraRecon) h hopen hstage hopenU hresid (by rw [hframe])
    hfeatU hval (intraApplied_bounds (enIntra s) u) fun d hd hires => by
      obtain ⟨t, ht, hrecon, -⟩ := intraReconStoresTheMacroblock d (hd.frameIsOpen hopenU)
        (hd.ftype.trans hftypeU) hires (hd.mbidx_lt hmbU)
      refine ⟨t, ht, fun p r hr c hc => ?_⟩
      rw [hrecon p r hr c hc, hd.edge, hd.mode, enIntra, hd.feat, hfeatU, ← enIntra, intraApplied]
  exact ⟨u, t, hpred, hloop, hvalT⟩

/-! P frames -/

/-- The prediction MC_PRED applied: the stored vectors', nothing with EN_MC = 0 (R141, R154). -/
def motionApplied (en : Bool) (u : State) (p : Plane) (r c : Nat) : Int :=
  if en = true then motionPrediction u p r c else 0

theorem motionApplied_bounds (en : Bool) (u : State) (p : Plane) (r c : Nat) :
    0 ≤ motionApplied en u p r c ∧ motionApplied en u p r c ≤ 255 := by
  rw [motionApplied]
  split
  · exact motionPrediction_bounds u p r c
  · decide

/-- A vector reachable for the whole block is reachable for each quadrant (R143, R144). -/
theorem reach_quadrant_of_wholeBlock {s : State} {dx dy : Int} (h : reach s wholeBlock dx dy = true) {q : Nat}
    (hq : q < 4) : reach s (quadrant q) dx dy = true := by
  simp only [reach, Bool.and_eq_true, decide_eq_true_iff] at h ⊢
  simp only [wholeBlock, quadrant] at h ⊢
  omega

/-- Every vector the search leaves is reachable for its quadrant (R144, R150). -/
theorem vectorsReach_motionSearch (s : State) : vectorsReach (motionSearch s) = true := by
  have hreach (t : Footprint) (dx dy : Int) : reach (motionSearch s) t dx dy = reach s t dx dy := by simp [reach]
  rw [vectorsReach, List.all_eq_true]
  intro q hmem
  have hq : q < 4 := List.mem_range.1 hmem
  cases hpart : (motionSearch s).part with
  | true =>
    obtain ⟨hx, hy⟩ := mvAt_motionSearch_split hq hpart
    rw [hreach, hx, hy]
    exact (search_inv s (quadrant_mem_searchTargets hq)).reachable
  | false =>
    obtain ⟨hx, hy⟩ := mvAt_motionSearch_unsplit hq hpart
    rw [hreach, hx, hy]
    exact reach_quadrant_of_wholeBlock (search_inv s wholeBlock_mem_searchTargets).reachable hq

theorem vectorsReach_motionSubtract (s : State) : vectorsReach (motionSubtract s) = vectorsReach s := by
  simp [vectorsReach, reach, mvAt]

/-- MC_PRED leaves the residuals against the prediction it applied, and vectors inside SB (R140, R141, R154). -/
theorem exec_mcPred_residuals {s : State} (hopen : FrameIsOpen s) (hftype : s.ftype = .predicted)
    (hstage : s.stage = .raw) (hmb : s.mbidx.toNat < nmb s) (hsamples : MbufSamples s.mbuf) :
    ∃ u, exec .mcPred s = .next u ∧ u.stage = .resid ∧ (enMc s = true → vectorsReach u = true) ∧
      u = { s with sb := u.sb, sbValid := u.sbValid, mv := u.mv, part := u.part, cost0 := u.cost0, cost1 := u.cost1,
                   mbuf := u.mbuf, stage := u.stage } ∧
      ∀ p : Plane, ∀ r < p.size, ∀ c < p.size,
        u.mbuf.val p r c = s.mbuf.val p r c - motionApplied (enMc s) u p r c := by
  cases hen : enMc s with
  | false =>
    exact ⟨_, mcPredPassThrough s hopen hftype hstage hen, rfl, fun h => absurd h (by decide), rfl,
      fun _ _ _ _ _ => (sub_zero _).symm⟩
  | true =>
    obtain ⟨u, hexec, -, -, -, hval, hresid, hframe⟩ :=
      mcPredSearchesAndSubtracts s hopen hftype hstage hen hmb hsamples
    have hsearch := exec_mcPred hopen hftype hstage
    rw [if_pos hen, if_pos (mbInPicture_eq_true.2 hmb), hexec] at hsearch
    refine ⟨u, hexec, hresid, fun _ => ?_, hframe, hval⟩
    rw [Host.Outcome.next.inj hsearch, vectorsReach_motionSubtract, vectorsReach_motionSearch]

/-- R192 in a P frame. -/
theorem motion_closed_loop {s : State} (h : RunInv s) (hopen : FrameIsOpen s) (hstage : s.stage = .raw)
    (hftype : s.ftype = .predicted) : ∃ u t, exec .mcPred s = .next u ∧
      execAll [.fdct, .quant, .emit, .dequant, .idct, .mcRecon] u = .next t ∧
      ∀ p : Plane, ∀ r < p.size, ∀ c < p.size, t.mbuf.val p r c = clip255 (motionApplied (enMc s) u p r c +
        residualLoop (enT s) (enQ s) s.qp.toNat
          (fun i j => s.mbuf.val p i j - motionApplied (enMc s) u p i j) r c) := by
  have hmb := h.raw_mbidx_lt hopen hstage
  obtain ⟨u, hpred, hresid, hvec, hframe, hval⟩ :=
    exec_mcPred_residuals hopen hftype hstage hmb (h.raw_samples hopen hstage)
  have hopenU : FrameIsOpen u := by rw [hframe]; exact hopen
  have hftypeU : u.ftype = .predicted := by rw [hframe]; exact hftype
  have hmbU : u.mbidx.toNat < nmb u := by rw [hframe]; exact hmb
  have hfeatU : u.feat = s.feat := by rw [hframe]
  obtain ⟨t, hloop, hvalT⟩ := execAll_closed_loop (recon := .mcRecon) h hopen hstage hopenU hresid (by rw [hframe])
    hfeatU hval (fun p r _ c _ => motionApplied_bounds (enMc s) u p r c) fun d hd hires => by
      have hen : enMc d = enMc s := by rw [enMc, hd.feat, hfeatU, enMc]
      obtain ⟨t, ht, hrecon, -⟩ := mcReconStoresTheMacroblock d (hd.frameIsOpen hopenU) (hd.ftype.trans hftypeU) hires
        (hd.mbidx_lt hmbU) (by rw [hen, hd.vectorsReach]; exact hvec)
      refine ⟨t, ht, fun p r hr c hc => ?_⟩
      rw [hrecon p r hr c hc, hen, hd.motionPrediction, motionApplied]
  exact ⟨u, t, hpred, hloop, hvalT⟩

/-- Settles O44: the residuals go through the loop, and the reconstruct command reads the prediction the predictor applied. -/
theorem reconstructionClosesTheLoop : Obligations.ReconstructionClosesTheLoop :=
  fun _ h hopen hstage => ⟨intra_closed_loop h hopen hstage, motion_closed_loop h hopen hstage⟩

end Sys2Proof.Machine
end

section
/-! PROOFS. What the sequencer's commands do when their checks hold, and what they leave unchanged (45_sequencer.md R201 to
R216, 20_memory.md R81, R82). -/

namespace Sys2Proof.Machine

/-! NOP and RESET (R201, R216) -/

/-- A command without checks that does nothing does nothing in HALT either (R201, R241). -/
theorem exec_nop (s : State) : exec .nop s = .next s := by
  delta exec execNop
  by_cases hhalt : s.phase = .halt
  · exact command_halt hhalt _ _ _
  · exact command_effect hhalt firstFailed_nil _

/-- Settles O16: the decoder evaluated on the word 0, and NOP's missing effect. -/
theorem nopChangesNothing : Obligations.NopChangesNothing := by
  obtain ⟨hdecode, -⟩ := sampleWordsDecode
  exact ⟨hdecode, exec_nop⟩

/-- Settles O25: RESET checks nothing, and its state's registers are those of R62. -/
theorem resetInEveryPhase : Obligations.ResetInEveryPhase := fun s =>
  ⟨resetEngine s, rfl, resetEngine_phase s, by simp, by simp,
    ⟨resetEngine_mode s, resetEngine_part s, fun q _ => mvAt_of_zero (resetEngine_mv s) q, by simp⟩, by simp, by simp,
    ⟨resetEngine_cur s, engineCur_resetEngine s⟩, resetEngine_src s, resetEngine_out s, resetEngine_port s⟩

/-! The configuration commands (R202 to R208) -/

/-- In CONFIG the check of a SET_* command holds. -/
theorem command_in_config {s : State} (hphase : s.phase = .config) (w : Word) (effect : State → Result) :
    command w [inConfig s] effect s = effect s :=
  command_effect (by simp [hphase]) (by simp [inConfig, hphase]) effect

/-- In RUN a command of the CONFIG phase raises E_PHASE, whatever its other checks say (R237). -/
theorem command_config_in_run {s : State} (hphase : s.phase = .run) (w : Word) (checks : List (Bool × ErrCode))
    (effect : State → Result) :
    command w (inConfig s :: checks) effect s = .next { s with errCode := .phase, errCmd := w, phase := .halt } := by
  rw [command_fault (by simp [hphase]) (by simp [inConfig, hphase]; rfl), raiseFault_frame]

theorem exec_configures_in_run {i : Instr} {s : State} (hi : configures i = true) (hphase : s.phase = .run) :
    exec i s = .next { s with errCode := .phase, errCmd := encode i, phase := .halt } := by
  cases i with
  | setDim | setWin | setQp | setIint | setFeat | setOvh | start =>
    delta exec execSetDim execSetWin execSetQp execSetIint execSetFeat execSetOvh execStart
    exact command_config_in_run hphase _ _ _
  | nop | beginFrame | loadMb | emit | install | intraPred | intraRecon | mcPred | mcRecon | fdct | idct | quant | dequant
  | reset => cases hi

/-! Each SET_* command's equation in CONFIG -/

section
variable {s : State} (hphase : s.phase = .config)
include hphase

theorem exec_setDim (picw pich : Nat) :
    exec (.setDim picw pich) s = .next { s with picw := BitVec.ofNat 8 picw, pich := BitVec.ofNat 8 pich } := by
  delta exec execSetDim
  exact command_in_config hphase _ _

theorem exec_setWin (winx winy : Nat) :
    exec (.setWin winx winy) s = .next { s with winx := BitVec.ofNat 8 winx, winy := BitVec.ofNat 8 winy } := by
  delta exec execSetWin
  exact command_in_config hphase _ _

theorem exec_setQp (qp : Nat) : exec (.setQp qp) s = .next { s with qp := BitVec.ofNat 8 qp } := by
  delta exec execSetQp
  exact command_in_config hphase _ _

theorem exec_setIint (iint : Nat) : exec (.setIint iint) s = .next { s with iint := BitVec.ofNat 16 iint } := by
  delta exec execSetIint
  exact command_in_config hphase _ _

theorem exec_setFeat (feat : Nat) : exec (.setFeat feat) s = .next { s with feat := BitVec.ofNat 4 feat } := by
  delta exec execSetFeat
  exact command_in_config hphase _ _

theorem exec_setOvh (ovh : Nat) : exec (.setOvh ovh) s = .next { s with ovh := BitVec.ofNat 24 ovh } := by
  delta exec execSetOvh
  exact command_in_config hphase _ _

end

/-- A bit of FEAT is its operand's (R34, R206). -/
theorem getLsbD_feat (a : Nat) {k : Nat} (hk : k < 4) : (BitVec.ofNat 4 a).getLsbD k = a.testBit k := by
  rw [BitVec.getLsbD_ofNat, decide_eq_true hk, Bool.true_and]

/-- An operand that fits its register is stored unchanged. -/
theorem toNat_ofNat_of_lt {n a : Nat} (h : a < 2 ^ n) : (BitVec.ofNat n a).toNat = a :=
  (BitVec.toNat_ofNat a n).trans (Nat.mod_eq_of_lt h)

/-- Settles O17: the equations in CONFIG, on operands that fit, and the one check that fails in RUN. -/
theorem configurationWrites : Obligations.ConfigurationWrites := by
  refine ⟨fun s hphase => ⟨fun a b ha hb => ?_, fun a b ha hb => ?_, fun a ha => ?_, fun h hh => ?_, fun a ha => ?_,
    fun o ho => ?_⟩, fun i s hi hphase => exec_configures_in_run hi hphase⟩
  · exact ⟨_, exec_setDim hphase a b, toNat_ofNat_of_lt ha, toNat_ofNat_of_lt hb, rfl⟩
  · exact ⟨_, exec_setWin hphase a b, toNat_ofNat_of_lt ha, toNat_ofNat_of_lt hb, rfl⟩
  · exact ⟨_, exec_setQp hphase a, toNat_ofNat_of_lt ha, rfl⟩
  · exact ⟨_, exec_setIint hphase h, toNat_ofNat_of_lt hh, rfl⟩
  · have hbit {k : Nat} (hk : k < 4) := getLsbD_feat a hk
    exact ⟨_, exec_setFeat hphase a, toNat_ofNat_of_lt ha,
      ⟨hbit (by decide), hbit (by decide), hbit (by decide), hbit (by decide)⟩, rfl⟩
  · exact ⟨_, exec_setOvh hphase o, toNat_ofNat_of_lt ho, rfl⟩

/-- In CONFIG START raises the code of the first check that fails (R208, R237, R238). -/
theorem exec_start_fault {s : State} {code : ErrCode} (hphase : s.phase = .config)
    (hcode : firstFailed (configChecks s) = some code) :
    exec .start s = .next { s with errCode := code, errCmd := 0x07000000, phase := .halt } := by
  have hchecks : firstFailed (inConfig s :: configChecks s) = some code := by simp [inConfig, hphase, hcode]
  delta exec execStart
  rw [command_fault (by simp [hphase]) hchecks, raiseFault_frame]
  rfl

/-- In CONFIG with a legal configuration START enters RUN (R208). -/
theorem exec_start {s : State} (hphase : s.phase = .config) (hlegal : ConfigLegal s) :
    exec .start s = .next { s with
      phase := .run, ipos := 0, refValid := false, refStore := Store.unspecified s.fillNext,
      recStore := Store.unspecified (s.fillNext + 1), fillNext := s.fillNext + 2 } := by
  obtain ⟨hqp, hdim, hwin, hiint⟩ := hlegal
  have hchecks : firstFailed (inConfig s :: configChecks s) = none := by
    simp [inConfig, hphase, configChecks, qpMin, qpMax, winMax, hqp, hdim, hwin, hiint]
  delta exec execStart
  exact command_effect (by simp [hphase]) hchecks _

/-- Settles O18: the checks in the order of START's list, each with those before it known to hold. -/
theorem startChecksThenRuns : Obligations.StartChecksThenRuns := by
  refine fun s => ⟨fun hrun => exec_configures_in_run rfl hrun, fun hphase => ⟨fun hqp => ?_, fun hqp hdim => ?_,
    fun hqp hdim hwin => ?_, fun hqp hdim hwin hiint => ?_, fun hlegal => ?_⟩⟩
  · exact exec_start_fault hphase (by simp [configChecks, qpMin, qpMax, hqp])
  · exact exec_start_fault hphase (by simp [configChecks, qpMin, qpMax, hqp, hdim])
  · exact exec_start_fault hphase (by simp [configChecks, qpMin, qpMax, winMax, hqp, hdim, hwin])
  · exact exec_start_fault hphase (by simp [configChecks, qpMin, qpMax, winMax, hqp, hdim, hwin, hiint])
  · exact ⟨_, exec_start hphase hlegal, rfl, rfl, rfl, rfl⟩

/-! The frame commands (R210, R211, R214) -/

/-- Between two frames BEGIN_FRAME opens one on a picture of the configured size (R210). -/
theorem exec_beginFrame {s : State} {pic : Picture} {rest : List Picture} (hphase : s.phase = .run)
    (hclosed : s.fopen = false) (hsrc : s.src = pic :: rest) (hshape : pic.shaped s = true) :
    exec .beginFrame s = .next (openFrame pic rest s) := by
  have hchecks : firstFailed [frameClosed s] = none := by simp [frameClosed, hphase, hclosed]
  delta exec execBeginFrame
  rw [command_effect (by simp [hphase]) hchecks]
  simp [hsrc, hshape]

/-- The frame header's five words are the configuration's registers (R81). -/
theorem frameHeader_toNat (s : State) : (frameHeader s).map BitVec.toNat =
    [s.picw.toNat, s.pich.toNat, s.qp.toNat, s.iint.toNat, s.feat.toNat] := by
  have hext {n : Nat} (hn : n ≤ 16) (x : BitVec n) : (x.setWidth 16).toNat = x.toNat := BitVec.toNat_setWidth_of_le hn
  simp only [frameHeader, List.map_cons, List.map_nil, hext (by decide : 8 ≤ 16), hext (by decide : 4 ≤ 16)]

theorem openFrame_ftype_eq_intra (pic : Picture) (rest : List Picture) (s : State) :
    (openFrame pic rest s).ftype = .intra ↔ s.ipos = 0 := by
  rw [openFrame_ftype]
  split <;> simp_all

/-- Settles O19: BEGIN_FRAME's effect, field by field. -/
theorem beginFrameOpensTheFrame : Obligations.BeginFrameOpensTheFrame := by
  intro s pic rest hphase hclosed hsrc hshape
  refine ⟨_, exec_beginFrame hphase hclosed hsrc hshape, openFrame_cur _ _ _, openFrame_src _ _ _, openFrame_fopen _ _ _,
    ?_, by simp, openFrame_stage _ _ _, openFrame_sbValid _ _ _, ⟨_, openFrame_out _ _ _, frameHeader_toNat s⟩, rfl⟩
  rw [openFrame_ftype_eq_intra, BitVec.toNat_eq]
  rfl

/-- In an open frame at EMPTY or RECON, with a macroblock left and the frame's picture in CUR, LOAD_MB brings the macroblock
(R211). -/
theorem exec_loadMb {s : State} {pic : Picture} (hopen : FrameIsOpen s) (hstage : s.stage = .empty ∨ s.stage = .recon)
    (hmb : s.mbidx.toNat < nmb s) (hcur : s.cur = some pic) (hshape : pic.shaped s = true) :
    exec .loadMb s = .next (loadMacroblock pic s) := by
  have hchecks : firstFailed [frameOpen s, (s.stage == .empty || s.stage == .recon, .stage), (mbInPicture s, .mbRange)] =
      none := by
    simp [frameOpen, hopen.1, hopen.2, hstage, mbInPicture, hmb]
  delta exec execLoadMb
  rw [command_effect (by simp [hopen.1]) hchecks]
  simp [engineCur_open hopen.2, hcur, hshape]

/-- MBUF holds the macroblock's samples, zero-extended (R71, R211). -/
theorem loadMacroblock_val (pic : Picture) (s : State) {p : Plane} {r c : Nat} (hr : r < p.size) (hc : c < p.size) :
    (loadMacroblock pic s).mbuf.val p r c = (pic.sample p (mbRow s p + r) (mbCol s p + c)).toNat := by
  have hsample := (pic.sample p (mbRow s p + r) (mbCol s p + c)).isLt
  rw [loadMacroblock_mbuf, Mbuf.val_ofFn _ hr hc, toInt_tc16 (by omega) (by omega)]

/-- Settles O22: the macroblock's area by MBIDX and PICW (R37), and the cleared metadata. -/
theorem loadMbBringsTheMacroblock : Obligations.LoadMbBringsTheMacroblock := by
  intro s pic hopen hstage hmb hcur hshape
  refine ⟨_, exec_loadMb hopen hstage hmb hcur hshape, fun p r hr c hc => ?_, loadMacroblock_mode _ _,
    loadMacroblock_part _ _, fun q _ => ?_, loadMacroblock_mbqp _ _, loadMacroblock_cost0 _ _, loadMacroblock_cost1 _ _,
    loadMacroblock_sbValid _ _, loadMacroblock_stage _ _, ?_⟩
  · rw [loadMacroblock_val pic s hr hc, mbRow_eq hmb, mbCol_eq hmb]
  · rw [mvAt_of_zero (loadMacroblock_mv pic s)]
    exact ⟨rfl, rfl⟩
  · rw [loadMacroblock_frame]

/-- In an open frame with every macroblock reconstructed, INSTALL's checks hold (R214). -/
theorem exec_install {s : State} (hopen : FrameIsOpen s) (hall : s.mbidx.toNat = nmb s) :
    exec .install s = .next { s with
      refStore := s.recStore, recStore := Store.unspecified s.fillNext, fillNext := s.fillNext + 1, refValid := true,
      fopen := false, cur := none, ipos := BitVec.ofNat 16 (floorMod (s.ipos.toNat + 1) s.iint.toNat),
      stage := .empty, sbValid := false } := by
  have hchecks : firstFailed [frameOpen s, (s.mbidx.toNat == nmb s, .incomplete)] = none := by
    simp [frameOpen, hopen.1, hopen.2, hall]
  delta exec execInstall
  exact command_effect (by simp [hopen.1]) hchecks _

/-- The next frame's number in the interval fits IPOS (R44, R214). -/
theorem toNat_next_ipos {s : State} (hiint : 1 ≤ s.iint.toNat) :
    (BitVec.ofNat 16 (floorMod (s.ipos.toNat + 1) s.iint.toNat)).toNat = (s.ipos.toNat + 1) % s.iint.toNat := by
  have hlt := Nat.mod_lt (s.ipos.toNat + 1) hiint
  rw [floorMod_of_pos hiint, toNat_ofNat_of_lt (hlt.trans s.iint.isLt)]

/-- Settles O24: REF takes the store REC was, and IPOS goes on modulo IINT. -/
theorem installReplacesTheReference : Obligations.InstallReplacesTheReference := fun _ hopen hall hiint =>
  ⟨_, exec_install hopen hall, fun _ _ _ => rfl, rfl, rfl, rfl, toNat_next_ipos hiint, rfl, rfl, rfl⟩

end Sys2Proof.Machine
end

section
/-! PROOFS. The macroblock record (20_memory.md R82) and EMIT (45_sequencer.md R212). -/

namespace Sys2Proof.Machine

/-! Lists of equal chunks -/

theorem length_flatMap_chunks {α β : Type} {f : α → List β} {n : Nat} {l : List α} (hf : ∀ a ∈ l, (f a).length = n) :
    (l.flatMap f).length = n * l.length := by
  rw [List.length_flatMap, List.map_congr_left hf, List.map_const', List.sum_replicate, smul_eq_mul, mul_comm]

/-- Element j of chunk i. -/
theorem getElem?_flatMap_chunks {α β : Type} {f : α → List β} {n i j : Nat} {l : List α} {a : α}
    (hf : ∀ a ∈ l, (f a).length = n) (hj : j < n) (ha : l[i]? = some a) : (l.flatMap f)[n * i + j]? = (f a)[j]? := by
  induction l generalizing i with
  | nil => simp at ha
  | cons b l ih =>
    have hb : (f b).length = n := hf b List.mem_cons_self
    rw [List.flatMap_cons]
    cases i with
    | zero =>
      obtain rfl : b = a := by simpa using ha
      rw [Nat.mul_zero, Nat.zero_add, List.getElem?_append_left (by omega)]
    | succ i =>
      rw [List.getElem?_append_right (by rw [Nat.mul_succ]; omega), hb,
        show n * (i + 1) + j - n = n * i + j by rw [Nat.mul_succ]; omega]
      exact ih (fun c hc => hf c (List.mem_cons_of_mem _ hc)) (by simpa using ha)

/-! The record's parts (R82) -/

/-- A word as the record holds it is the word itself (R21, R82). -/
theorem tc16_val (m : Mbuf) (p : Plane) (r c : Nat) : tc16 (m.val p r c) = m.word p r c := BitVec.ofInt_toInt

/-- The coefficient words of the block that starts at row r0, column c0 of plane p, row by row. -/
def blockWords (m : Mbuf) (p : Plane) (r0 c0 : Nat) : List OutWord :=
  (List.range 8).flatMap fun r => (List.range 8).map fun c => tc16 (m.val p (r0 + r) (c0 + c))

theorem coefficientWords_eq (m : Mbuf) :
    coefficientWords m = recordBlocks.flatMap fun b => blockWords m b.1 b.2.1 b.2.2 := rfl

theorem length_blockWords (m : Mbuf) (p : Plane) (r0 c0 : Nat) : (blockWords m p r0 c0).length = 64 := by
  rw [blockWords, length_flatMap_chunks (n := 8) (by simp), List.length_range]

theorem length_coefficientWords (m : Mbuf) : (coefficientWords m).length = 384 := by
  rw [coefficientWords_eq, length_flatMap_chunks fun b _ => length_blockWords m b.1 b.2.1 b.2.2]
  rfl

theorem getElem?_blockWords (m : Mbuf) (p : Plane) (r0 c0 : Nat) {r c : Nat} (hr : r < 8) (hc : c < 8) :
    (blockWords m p r0 c0)[8 * r + c]? = some (m.word p (r0 + r) (c0 + c)) := by
  rw [blockWords, getElem?_flatMap_chunks (n := 8) (by simp) hc (List.getElem?_range hr)]
  simp [hc, tc16_val]

theorem getElem?_coefficientWords (m : Mbuf) {b : Nat} {p : Plane} {r0 c0 : Nat} (hb : recordBlocks[b]? = some (p, r0, c0))
    {r c : Nat} (hr : r < 8) (hc : c < 8) :
    (coefficientWords m)[64 * b + (8 * r + c)]? = some (m.word p (r0 + r) (c0 + c)) := by
  rw [coefficientWords_eq, getElem?_flatMap_chunks (fun b _ => length_blockWords m b.1 b.2.1 b.2.2) (by omega) hb]
  exact getElem?_blockWords m p r0 c0 hr hc

theorem metadataWords_intra {s : State} (h : s.ftype = .intra) : metadataWords s = [BitVec.ofNat 16 s.mode.code] := by
  rw [metadataWords, h]

/-- In a P frame PART comes first, then the four vectors, their components sign-extended. -/
theorem metadataWords_predicted {s : State} (h : s.ftype = .predicted) :
    metadataWords s = BitVec.ofNat 16 s.part.toNat ::
      (List.range 4).flatMap fun q => [(mvAt s q).dx.signExtend 16, (mvAt s q).dy.signExtend 16] := by
  rw [metadataWords, h]
  rfl

theorem length_metadataWords (s : State) : (metadataWords s).length = recordLength s.ftype - 384 := by
  cases h : s.ftype with
  | intra => rw [metadataWords_intra h]; rfl
  | predicted => rw [metadataWords_predicted h]; rfl

/-- The vector words of a P frame's record. -/
theorem getElem?_metadataWords_vector {s : State} (h : s.ftype = .predicted) {q k : Nat} (hq : q < 4) (hk : k < 2) :
    (metadataWords s)[1 + 2 * q + k]? = [(mvAt s q).dx.signExtend 16, (mvAt s q).dy.signExtend 16][k]? := by
  rw [metadataWords_predicted h, show 1 + 2 * q + k = 2 * q + k + 1 by omega, List.getElem?_cons_succ,
    getElem?_flatMap_chunks (n := 2) (fun _ _ => rfl) hk (List.getElem?_range hq)]

/-! The record (R82, R212) -/

/-- The words EMIT appends. -/
def macroblockRecord (s : State) : List OutWord := metadataWords s ++ coefficientWords s.mbuf

theorem length_macroblockRecord (s : State) : (macroblockRecord s).length = recordLength s.ftype := by
  rw [macroblockRecord, List.length_append, length_metadataWords, length_coefficientWords]
  cases s.ftype <;> rfl

/-- A record starts with its metadata. -/
theorem getElem?_macroblockRecord_metadata (s : State) {k : Nat} (hk : k < recordLength s.ftype - 384) :
    (macroblockRecord s)[k]? = (metadataWords s)[k]? :=
  List.getElem?_append_left (by rwa [length_metadataWords])

/-- A record ends with its coefficient words. -/
theorem getElem?_macroblockRecord_coefficient (s : State) (k : Nat) :
    (macroblockRecord s)[recordLength s.ftype - 384 + k]? = (coefficientWords s.mbuf)[k]? := by
  rw [macroblockRecord, List.getElem?_append_right (by rw [length_metadataWords]; omega), length_metadataWords,
    Nat.add_sub_cancel_left]

/-- Settles O23: EMIT's effect, the record's metadata by frame type and its words block by block. -/
theorem emitAppendsTheRecord : Obligations.EmitAppendsTheRecord := by
  intro s hopen hstage
  refine ⟨_, macroblockRecord s, exec_emit hopen hstage, rfl, fun hintra => ⟨?_, ?_⟩, fun hpred => ⟨?_, ?_, fun q hq => ?_⟩,
    fun b p r0 c0 hb r hr c hc => ?_⟩
  · rw [length_macroblockRecord, hintra]; rfl
  · rw [getElem?_macroblockRecord_metadata s (by rw [hintra]; decide), metadataWords_intra hintra]; rfl
  · rw [length_macroblockRecord, hpred]; rfl
  · rw [getElem?_macroblockRecord_metadata s (by rw [hpred]; decide), metadataWords_predicted hpred]; rfl
  · have hbound : recordLength s.ftype - 384 = 9 := by rw [hpred]; rfl
    have hvec {k : Nat} (hk : k < 2) : (macroblockRecord s)[1 + 2 * q + k]? = _ :=
      (getElem?_macroblockRecord_metadata s (by omega)).trans (getElem?_metadataWords_vector hpred hq hk)
    exact ⟨hvec (k := 0) (by decide), by rw [show 2 + 2 * q = 1 + 2 * q + 1 by omega]; exact hvec (by decide)⟩
  · rw [show recordLength s.ftype - 384 + 64 * b + 8 * r + c = recordLength s.ftype - 384 + (64 * b + (8 * r + c)) by omega,
      getElem?_macroblockRecord_coefficient]
    exact getElem?_coefficientWords s.mbuf hb hr hc

end Sys2Proof.Machine
end

section
/-! PROOFS. How an invariant is kept by every step: the shapes of the commands' effects that the invariants' proofs share
(45_sequencer.md R200). -/

namespace Sys2Proof.Machine

/-- What a change of the port, a fault and every command's effect keep, every step keeps: waiting, an ignored word, an
illegal word and both resets are among these (00_scope.md R3). -/
theorem inv_of_step {P : State → Prop} (hport : ∀ s rest, P s → P { s with port := rest })
    (hfault : ∀ s code w, code ≠ .ok → P s → P (raiseFault code w s))
    (heffect : ∀ i s t, Effect i s t → P s → P t) {s t : State} (hs : P s) (h : step s = .next t) : P t := by
  have hexec {i : Instr} {u : State} (hu : P u) (he : exec i u = .next t) : P t := by
    rcases exec_next he with ⟨-, -, rfl⟩ | ⟨-, code, hcode, rfl⟩ | ⟨-, he⟩ | ⟨-, ht⟩
    · exact hu
    · exact hfault u code _ hcode hu
    · exact heffect i u t he hu
    · exact heffect .reset u t ht hu
  rcases step_next h with ⟨-, rfl⟩ | ⟨rest, -, he⟩ | ⟨w, rest, i, -, -, he⟩ | ⟨w, rest, -, rfl | rfl⟩
  · exact hs
  · exact hexec (hport s rest hs) he
  · exact hexec (hport s rest hs) he
  · exact hport s rest hs
  · exact hfault _ .illegal w (by decide) (hport s rest hs)

/-! The commands that work on one macroblock and leave MBIDX and REC -/

/-- The commands from LOAD_MB to IDCT. -/
def macroblockCommands : List Instr := [.loadMb, .intraPred, .mcPred, .fdct, .quant, .emit, .dequant, .idct]

/-- From `s` to `t` an open frame's macroblock came or went on: STAGE is RAW to IRES, and only the macroblock's registers,
MBUF, EDGE, SB, SAT and OUT may have changed. -/
structure MacroblockStep (s t : State) : Prop where
  frame : t = { s with
    out := t.out, stage := t.stage, mode := t.mode, part := t.part, mv := t.mv, mbqp := t.mbqp, cost0 := t.cost0,
    cost1 := t.cost1, sbValid := t.sbValid, sat := t.sat, mbuf := t.mbuf, edge := t.edge, sb := t.sb }
  isOpen : FrameIsOpen s
  busy : t.stage.busy = true
  located : s.stage.busy = true ∨ s.mbidx.toNat < nmb s

theorem macroblockStep_of_effect {i : Instr} {s t : State} (h : Effect i s t) (hi : i ∈ macroblockCommands) :
    MacroblockStep s t := by
  cases i with
  | loadMb =>
    obtain ⟨hopen, -, hmb, pic, -, -, rfl⟩ := h
    exact ⟨by rw [loadMacroblock_frame], hopen, rfl, .inr hmb⟩
  | emit =>
    obtain ⟨hopen, hstage, rfl⟩ := h
    exact ⟨rfl, hopen, rfl, .inl (hstage ▸ rfl)⟩
  | intraPred =>
    obtain ⟨hopen, -, hstage, ⟨-, -, rfl⟩ | ⟨-, rfl⟩⟩ := h
    · exact ⟨by rw [intraPredict_frame], hopen, rfl, .inl (hstage ▸ rfl)⟩
    · exact ⟨rfl, hopen, rfl, .inl (hstage ▸ rfl)⟩
  | mcPred =>
    obtain ⟨hopen, -, hstage, ⟨-, -, rfl⟩ | ⟨-, rfl⟩⟩ := h
    · exact ⟨by rw [motionSubtract_frame, motionSearch_frame], hopen, rfl, .inl (hstage ▸ rfl)⟩
    · exact ⟨rfl, hopen, rfl, .inl (hstage ▸ rfl)⟩
  | fdct | idct =>
    obtain ⟨hopen, hstage, rfl⟩ := h
    exact ⟨by rw [setMbufSat_frame], hopen, rfl, .inl (hstage ▸ rfl)⟩
  | quant =>
    obtain ⟨hopen, hstage, rfl⟩ := h
    refine ⟨?_, hopen, rfl, .inl (hstage ▸ rfl)⟩
    split
    · rw [setMbuf_frame]
    · rfl
  | dequant =>
    obtain ⟨hopen, hstage, rfl⟩ := h
    refine ⟨?_, hopen, rfl, .inl (hstage ▸ rfl)⟩
    split
    · rw [setMbufSat_frame]
    · rfl
  | nop | setDim | setWin | setQp | setIint | setFeat | setOvh | start | beginFrame | install | intraRecon | mcRecon
  | reset => simp [macroblockCommands] at hi

/-! The commands that end a macroblock (R129, R158) -/

/-- From `s` to `t` the frame's macroblock was reconstructed: the samples of `u`, `s` but for MBUF, went into REC. -/
structure ReconStep (s u t : State) : Prop where
  isOpen : FrameIsOpen s
  stage : s.stage = .ires
  located : s.mbidx.toNat < nmb s
  frame : u = { s with mbuf := u.mbuf }
  samples : MbufSamples u.mbuf
  finish : t = finishMacroblock u

theorem mbufSamples_clip255 (v : Plane → Nat → Nat → Int) (s : State) :
    MbufSamples (setMbuf (fun p r c => clip255 (v p r c)) s).mbuf := by
  intro p r hr c hc
  obtain ⟨hlo, hhi⟩ := clip255_bounds (v p r c)
  rw [setMbuf_val _ s hr hc (by omega) (by omega)]
  exact ⟨hlo, hhi⟩

theorem reconStep_of_effect {i : Instr} {s t : State} (h : Effect i s t) (hi : i = .intraRecon ∨ i = .mcRecon) :
    ∃ u, ReconStep s u t := by
  rcases hi with rfl | rfl
  · obtain ⟨hopen, -, hstage, hmb, ht⟩ := h
    exact ⟨intraReconstruct s, hopen, hstage, hmb, intraReconstruct_frame s, mbufSamples_clip255 _ s, ht⟩
  · obtain ⟨hopen, -, hstage, hmb, -, ht⟩ := h
    exact ⟨motionReconstruct s, hopen, hstage, hmb, motionReconstruct_frame s, mbufSamples_clip255 _ s, ht⟩

/-- A change of MBUF alone keeps what the end of a macroblock needs. -/
theorem ReconStep.frameIsOpen {s u t : State} (h : ReconStep s u t) : FrameIsOpen u := by
  rw [h.frame]; exact h.isOpen

theorem ReconStep.mbidx_lt {s u t : State} (h : ReconStep s u t) : u.mbidx.toNat < nmb u := by
  rw [h.frame]; exact h.located

end Sys2Proof.Machine
end

section
/-! PROOFS. The sequencing invariants (45_sequencer.md R219 (a) to (f), 10_state.md R43, R55). -/

namespace Sys2Proof.Machine

/-- PHASE is not HALT exactly when ERRCODE is 0 (R55). -/
theorem SequencerInv.errCode_ok {s : State} (h : SequencerInv s) (hphase : s.phase ≠ .halt) : s.errCode = .ok := by
  by_contra herr
  exact hphase (h.faultRecorded.2 herr)

theorem SequencerInv.raiseFault (s : State) {code : ErrCode} (w : Word) (hcode : code ≠ .ok) :
    SequencerInv (raiseFault code w s) := by
  constructor <;> simp [hcode]

/-- In CONFIG the sequencer has only to be idle. -/
theorem sequencerInv_of_config {s : State} (hphase : s.phase = .config)
    (hidle : s.fopen = false ∧ s.stage = .empty ∧ s.mbidx = 0 ∧ s.ipos = 0 ∧ s.eos = false) (herr : s.errCode = .ok) :
    SequencerInv s := by
  constructor <;> simp [hphase, hidle, herr]

/-- In RUN between two frames nothing is asked of a frame. -/
theorem sequencerInv_of_closed {s : State} (hphase : s.phase = .run) (herr : s.errCode = .ok) (hlegal : ConfigLegal s)
    (hclosed : s.fopen = false) (hstage : s.stage = .empty) (hmbidx : s.mbidx.toNat ≤ nmb s)
    (hipos : s.ipos.toNat < s.iint.toNat) (href : s.ipos ≠ 0 → s.refValid = true) : SequencerInv s := by
  have hnotopen {P : Prop} (hopen : s.fopen = true) : P := by simp [hclosed] at hopen
  exact {
    runLegal := fun _ => hlegal
    configIdle := fun hconfig => by simp [hphase] at hconfig
    faultRecorded := by simp [hphase, herr]
    closedEmpty := fun _ _ => hstage
    busyInPicture := fun _ hbusy => by simp [hstage, Stage.busy] at hbusy
    reconCount := fun _ hrecon => by simp [hstage] at hrecon
    firstMacroblock := fun _ hopen => hnotopen hopen
    indexBound := fun _ => hmbidx
    predictedHasRef := fun _ hopen => hnotopen hopen
    intraAtZero := fun _ hopen => hnotopen hopen
    iposBound := fun _ => hipos
    laterHasRef := fun _ => href
    openPicture := fun _ hopen => hnotopen hopen }

/-- START's checks are what a run asks of the configuration, and the sequencer is idle in CONFIG (R208, R219 a). -/
theorem SequencerInv.start {s t : State} (hs : SequencerInv s) (h : Effect .start s t) : SequencerInv t := by
  obtain ⟨hphase, hlegal, rfl⟩ := h
  obtain ⟨hclosed, hstage, hmbidx, -, -⟩ := hs.configIdle hphase
  have ⟨_, _, _, hiint⟩ := hlegal
  exact sequencerInv_of_closed rfl (hs.errCode_ok (by simp [hphase])) hlegal hclosed hstage
    (by rw [hmbidx]; exact Nat.zero_le _) hiint fun h => absurd rfl h

/-- BEGIN_FRAME classifies the frame by IPOS, and after the interval's first frame REF is valid (R210, R219 d, e). -/
theorem SequencerInv.openFrame {s : State} {pic : Picture} (rest : List Picture) (hs : SequencerInv s)
    (hphase : s.phase = .run) (hshape : pic.shaped s = true) : SequencerInv (openFrame pic rest s) where
  runLegal := hs.runLegal
  configIdle hconfig := by simp [hphase] at hconfig
  faultRecorded := hs.faultRecorded
  closedEmpty _ _ := rfl
  busyInPicture _ hbusy := by simp [Stage.busy] at hbusy
  reconCount _ hrecon := by simp at hrecon
  firstMacroblock _ _ _ := rfl
  indexBound _ := Nat.zero_le _
  predictedHasRef _ _ hpred := hs.laterHasRef hphase fun hipos => by
    rw [(openFrame_ftype_eq_intra pic rest s).2 hipos] at hpred
    cases hpred
  intraAtZero _ _ := openFrame_ftype_eq_intra pic rest s
  iposBound := hs.iposBound
  laterHasRef := hs.laterHasRef
  openPicture _ _ := ⟨pic, rfl, hshape⟩

/-- INSTALL makes REF valid and keeps IPOS below IINT (R214, R219 e, f). -/
theorem SequencerInv.install {s t : State} (hs : SequencerInv s) (h : Effect .install s t) : SequencerInv t := by
  obtain ⟨⟨hphase, -⟩, -, rfl⟩ := h
  have hlegal := hs.runLegal hphase
  have ⟨_, _, _, hiint⟩ := hlegal
  refine sequencerInv_of_closed hphase (hs.errCode_ok (by simp [hphase])) hlegal rfl rfl (hs.indexBound hphase) ?_
    fun _ => rfl
  exact (toNat_next_ipos hiint).trans_lt (Nat.mod_lt _ hiint)

/-- A macroblock on its way is one of the picture's (R219 b). -/
theorem SequencerInv.mbidx_lt_of_located {s : State} (hs : SequencerInv s) (hphase : s.phase = .run)
    (h : s.stage.busy = true ∨ s.mbidx.toNat < nmb s) : s.mbidx.toNat < nmb s :=
  h.elim (hs.busyInPicture hphase) id

/-- Within a macroblock the sequencer moves STAGE only, between RAW and IRES. -/
theorem SequencerInv.macroblockStep {s t : State} (hs : SequencerInv s) (h : MacroblockStep s t) : SequencerInv t := by
  obtain ⟨hframe, ⟨hphase, hopen⟩, hbusy, hlocated⟩ := h
  have hmb := hs.mbidx_lt_of_located hphase hlocated
  rw [hframe]
  exact { hs with
    configIdle := fun hconfig => by simp [hphase] at hconfig
    closedEmpty := fun _ hclosed => by simp [hopen] at hclosed
    busyInPicture := fun _ _ => hmb
    reconCount := fun _ hrecon => by dsimp only at hrecon; simp [hrecon, Stage.busy] at hbusy
    firstMacroblock := fun _ _ hempty => by dsimp only at hempty; simp [hempty, Stage.busy] at hbusy }

/-- The end of a macroblock counts it (R43, R219 b, c). -/
theorem SequencerInv.finishMacroblock {s : State} (hs : SequencerInv s) (hopen : FrameIsOpen s)
    (hmb : s.mbidx.toNat < nmb s) : SequencerInv (finishMacroblock s) := by
  obtain ⟨hphase, hfopen⟩ := hopen
  have hcount := finishMacroblock_mbidx_toNat hmb
  rw [finishMacroblock_frame] at hcount ⊢
  exact { hs with
    configIdle := fun hconfig => by simp [hphase] at hconfig
    closedEmpty := fun _ hclosed => by simp [hfopen] at hclosed
    busyInPicture := fun _ hbusy => by simp [Stage.busy] at hbusy
    reconCount := fun _ _ => hcount.symm ▸ Nat.le_add_left 1 _
    firstMacroblock := fun _ _ hempty => by simp at hempty
    indexBound := fun _ => hcount.trans_le hmb }

theorem SequencerInv.reconStep {s u t : State} (hs : SequencerInv s) (h : ReconStep s u t) : SequencerInv t := by
  have hclipped : SequencerInv u := by
    rw [h.frame]
    exact { hs with }
  rw [h.finish]
  exact hclipped.finishMacroblock h.frameIsOpen h.mbidx_lt

/-- Every effect keeps the sequencing invariants. -/
theorem sequencerInv_of_effect {i : Instr} {s t : State} (h : Effect i s t) (hs : SequencerInv s) : SequencerInv t := by
  cases i with
  | nop => cases h; exact hs
  | setDim | setWin | setQp | setIint | setFeat | setOvh =>
    obtain ⟨hphase, rfl⟩ := h
    exact sequencerInv_of_config hphase (hs.configIdle hphase) (hs.errCode_ok (by simp [hphase]))
  | start => exact hs.start h
  | beginFrame =>
    obtain ⟨⟨hphase, -⟩, ⟨-, rfl⟩ | ⟨pic, rest, -, hshape, rfl⟩⟩ := h
    · exact { hs with configIdle := fun hconfig => by simp [hphase] at hconfig }
    · exact hs.openFrame rest hphase hshape
  | loadMb | emit | intraPred | mcPred | fdct | idct | quant | dequant =>
    exact hs.macroblockStep (macroblockStep_of_effect h (by simp [macroblockCommands]))
  | intraRecon | mcRecon =>
    obtain ⟨u, hrecon⟩ := reconStep_of_effect h (by simp)
    exact hs.reconStep hrecon
  | install => exact hs.install h
  | reset =>
    cases h
    exact sequencerInv_of_config (resetEngine_phase s) (by simp) (resetEngine_errCode s)

/-- Settles O55: every effect keeps the invariants, and a fault leaves RUN with its code recorded. -/
theorem sequencingInvariantKept : Obligations.SequencingInvariantKept := fun _ _ hs h =>
  inv_of_step (fun _ rest hs => hs.with_port rest) (fun s _ w hcode _ => .raiseFault s w hcode)
    (fun _ _ _ => sequencerInv_of_effect) hs h

end Sys2Proof.Machine
end

section
/-! PROOFS. The count of macroblock records in OUT (45_sequencer.md R219 (h), 20_memory.md R82). -/

namespace Sys2Proof.Machine

/-- Nothing is asked of OUT but in an open frame. -/
theorem outputInv_of_not_open {s : State} (h : s.phase = .run → s.fopen = false) : OutputInv s := by
  intro hphase hopen
  simp [h hphase] at hopen

/-- Of the commands on a macroblock only EMIT pushes words or passes into the stages after the record. -/
theorem out_emitted_of_effect {i : Instr} {s t : State} (h : Effect i s t) (hi : i ∈ macroblockCommands)
    (hemit : i ≠ .emit) : t.out = s.out ∧ t.stage.emitted = s.stage.emitted := by
  cases i with
  | loadMb =>
    obtain ⟨-, hstage, -, pic, -, -, rfl⟩ := h
    rcases hstage with hstage | hstage <;> simp [hstage, Stage.emitted]
  | intraPred | mcPred =>
    obtain ⟨-, -, hstage, ⟨-, -, rfl⟩ | ⟨-, rfl⟩⟩ := h <;> simp [hstage, Stage.emitted]
  | fdct | idct => obtain ⟨-, hstage, rfl⟩ := h; simp [hstage, Stage.emitted]
  | quant | dequant => obtain ⟨-, hstage, rfl⟩ := h; cases enQ s <;> simp [hstage, Stage.emitted]
  | emit => exact absurd rfl hemit
  | nop | setDim | setWin | setQp | setIint | setFeat | setOvh | start | beginFrame | install | intraRecon | mcRecon
  | reset => simp [macroblockCommands] at hi

/-- Within a macroblock the words pushed are the record, once. -/
theorem OutputInv.macroblockStep {s t : State} (ho : OutputInv s) (h : MacroblockStep s t) {words : List OutWord}
    (hout : t.out = s.out ++ words)
    (hlength : words.length + recordLength s.ftype * s.stage.emitted.toNat =
      recordLength s.ftype * t.stage.emitted.toNat) : OutputInv t := by
  intro _ _
  obtain ⟨before, body, hsplit, hbody⟩ := ho h.isOpen.1 h.isOpen.2
  have hheader : frameHeader t = frameHeader s := by rw [h.frame]; rfl
  have hftype : t.ftype = s.ftype := by rw [h.frame]
  have hmbidx : t.mbidx = s.mbidx := by rw [h.frame]
  refine ⟨before, body ++ words, by rw [hout, hsplit, hheader, List.append_assoc _ body], ?_⟩
  rw [List.length_append, hbody, hftype, hmbidx, Nat.mul_add, Nat.mul_add]
  omega

/-- The record of the macroblock that ends is counted by MBIDX from then on. -/
theorem OutputInv.reconStep {s u t : State} (ho : OutputInv s) (h : ReconStep s u t) : OutputInv t := by
  intro _ _
  obtain ⟨before, body, hsplit, hbody⟩ := ho h.isOpen.1 h.isOpen.2
  have hcount := finishMacroblock_mbidx_toNat h.mbidx_lt
  rw [← h.finish] at hcount
  have hout : t.out = s.out := by rw [h.finish, finishMacroblock_out, h.frame]
  have hheader : frameHeader t = frameHeader s := by rw [h.finish, finishMacroblock_frame, h.frame]; rfl
  have hftype : t.ftype = s.ftype := by rw [h.finish, finishMacroblock_ftype, h.frame]
  have hmbidx : u.mbidx = s.mbidx := by rw [h.frame]
  have hstage : t.stage = .recon := by rw [h.finish, finishMacroblock_stage]
  refine ⟨before, body, by rw [hout, hsplit, hheader], ?_⟩
  rw [hbody, hftype, hcount, hmbidx, h.stage, hstage]
  rfl

/-- Every effect keeps the count of records. -/
theorem outputInv_of_effect {i : Instr} {s t : State} (h : Effect i s t) (hs : SequencerInv s) (ho : OutputInv s) :
    OutputInv t := by
  cases i with
  | nop => cases h; exact ho
  | setDim | setWin | setQp | setIint | setFeat | setOvh =>
    obtain ⟨hphase, rfl⟩ := h
    exact outputInv_of_config hphase
  | start =>
    obtain ⟨hphase, -, rfl⟩ := h
    obtain ⟨hclosed, -⟩ := hs.configIdle hphase
    exact outputInv_of_not_open fun _ => hclosed
  | beginFrame =>
    obtain ⟨⟨-, hclosed⟩, ⟨-, rfl⟩ | ⟨pic, rest, -, -, rfl⟩⟩ := h
    · exact outputInv_of_not_open fun _ => hclosed
    · exact fun _ _ => ⟨s.out, [], by rw [openFrame_out, List.append_nil]; rfl, rfl⟩
  | emit =>
    have hstep := macroblockStep_of_effect h (by simp [macroblockCommands])
    obtain ⟨-, hstage, rfl⟩ := h
    refine ho.macroblockStep hstep (words := macroblockRecord s) rfl ?_
    simp [length_macroblockRecord, hstage, Stage.emitted]
  | loadMb | intraPred | mcPred | fdct | idct | quant | dequant =>
    obtain ⟨hout, hemitted⟩ := out_emitted_of_effect h (by simp [macroblockCommands]) (by simp)
    have hstep := macroblockStep_of_effect h (by simp [macroblockCommands])
    refine ho.macroblockStep hstep (words := []) (by rw [hout, List.append_nil]) ?_
    rw [hemitted, List.length_nil, Nat.zero_add]
  | intraRecon | mcRecon =>
    obtain ⟨u, hrecon⟩ := reconStep_of_effect h (by simp)
    exact ho.reconStep hrecon
  | install => obtain ⟨-, -, rfl⟩ := h; exact outputInv_of_not_open fun _ => rfl
  | reset => cases h; exact outputInv_of_config (resetEngine_phase s)

/-- Settles O56: kept together with the sequencing invariants, which say that no frame is open in CONFIG. -/
theorem recordCountKept : Obligations.RecordCountKept := by
  intro s t hs ho h
  have hkept : SequencerInv t ∧ OutputInv t := inv_of_step (P := fun s => SequencerInv s ∧ OutputInv s)
    (fun _ rest ⟨hs, ho⟩ => ⟨hs.with_port rest, ho⟩)
    (fun s _ w hcode _ => ⟨.raiseFault s w hcode, outputInv_of_not_open fun hrun => by simp at hrun⟩)
    (fun _ _ _ he ⟨hs, ho⟩ => ⟨sequencerInv_of_effect he hs, outputInv_of_effect he hs ho⟩) ⟨hs, ho⟩ h
  exact hkept.2

end Sys2Proof.Machine
end

section
/-! PROOFS. The macroblocks in REC and REF (45_sequencer.md R219 (g), 20_memory.md R90, 10_state.md R52). -/

namespace Sys2Proof.Machine

/-! A written sample stays written -/

theorem Memory.isSome_read_write {m : Memory} {j : Nat} (h : (Memory.read m j).isSome = true) (k : Nat) (b : Sample) :
    (Memory.read (Memory.write m k b) j).isSome = true := by
  by_cases hk : k = j
  · rw [hk, Memory.read_write_same]; rfl
  · rwa [Memory.read_write_other m b hk]

theorem storePlane_isSome_read {st : Store} {k : Nat} (h : (Memory.read st.cells k).isSome = true) (s : State) (p : Plane) :
    (Memory.read (storePlane s st p).cells k).isSome = true := by
  rw [storePlane]
  induction positions p.size generalizing st with
  | nil => exact h
  | cons rc l ih => exact ih (Memory.isSome_read_write h _ _)

theorem storeMacroblock_isSome_read {s : State} {k : Nat} (h : (Memory.read s.recStore.cells k).isSome = true) :
    (Memory.read (storeMacroblock s).cells k).isSome = true := by
  simp only [storeMacroblock, planes, List.foldl_cons, List.foldl_nil]
  exact storePlane_isSome_read (storePlane_isSome_read (storePlane_isSome_read h s _) s _) s _

/-- The end of a macroblock writes its whole area of REC (R83). -/
theorem macroblockStored_storeMacroblock {s : State} (hmb : s.mbidx.toNat < nmb s) :
    MacroblockStored (storeMacroblock s) s s.mbidx.toNat := by
  intro p r hr c hc
  rw [← mbRow_eq hmb, ← mbCol_eq hmb, storeMacroblock_read_same hmb hr hc]
  rfl

/-! The coverage invariants -/

/-- Nothing is asked of REC but in an open frame, and of REF but while it is valid. -/
theorem coverageInv_of_idle {s : State} (hclosed : s.phase = .run → s.fopen = false)
    (hinvalid : s.phase = .run → s.refValid = false) : CoverageInv s where
  recCovers hphase hopen := by simp [hclosed hphase] at hopen
  refCovers hphase hvalid := by simp [hinvalid hphase] at hvalid

theorem coverageInv_of_not_run {s : State} (h : s.phase ≠ .run) : CoverageInv s :=
  coverageInv_of_idle (fun hphase => absurd hphase h) fun hphase => absurd hphase h

theorem CoverageInv.macroblockStep {s t : State} (hc : CoverageInv s) (h : MacroblockStep s t) : CoverageInv t := by
  rw [h.frame]
  exact { hc with }

/-- The macroblocks before stay stored, and the one that ends is stored (R219 g). -/
theorem CoverageInv.finishMacroblock {s : State} (hc : CoverageInv s) (hopen : FrameIsOpen s)
    (hmb : s.mbidx.toNat < nmb s) : CoverageInv (finishMacroblock s) := by
  have hcount := finishMacroblock_mbidx_toNat hmb
  refine ⟨fun _ _ m hm => ?_, hc.refCovers⟩
  rw [finishMacroblock_recStore]
  rcases Nat.lt_succ_iff_lt_or_eq.1 (hm.trans_eq hcount) with hbefore | rfl
  · exact fun p r hr c hc' => storeMacroblock_isSome_read (hc.recCovers hopen.1 hopen.2 m hbefore p r hr c hc')
  · exact macroblockStored_storeMacroblock hmb

theorem CoverageInv.reconStep {s u t : State} (hc : CoverageInv s) (h : ReconStep s u t) : CoverageInv t := by
  have hclipped : CoverageInv u := by
    rw [h.frame]
    exact { hc with }
  rw [h.finish]
  exact hclipped.finishMacroblock h.frameIsOpen h.mbidx_lt

/-- INSTALL hands a REC with every macroblock over to REF (R214, R219 g). -/
theorem CoverageInv.install {s t : State} (hc : CoverageInv s) (h : Effect .install s t) : CoverageInv t := by
  obtain ⟨⟨hphase, hopen⟩, hall, rfl⟩ := h
  exact ⟨fun _ hreopened => by simp at hreopened, fun _ _ m hm => hc.recCovers hphase hopen m (hm.trans_eq hall.symm)⟩

/-- Every effect keeps the coverage of REC and REF. -/
theorem coverageInv_of_effect {i : Instr} {s t : State} (h : Effect i s t) (hs : SequencerInv s) (hc : CoverageInv s) :
    CoverageInv t := by
  cases i with
  | nop => cases h; exact hc
  | setDim | setWin | setQp | setIint | setFeat | setOvh =>
    obtain ⟨hphase, rfl⟩ := h
    exact coverageInv_of_not_run (by simp [hphase])
  | start =>
    obtain ⟨hphase, -, rfl⟩ := h
    obtain ⟨hclosed, -⟩ := hs.configIdle hphase
    exact coverageInv_of_idle (fun _ => hclosed) fun _ => rfl
  | beginFrame =>
    obtain ⟨-, ⟨-, rfl⟩ | ⟨pic, rest, -, -, rfl⟩⟩ := h
    · exact { hc with }
    · exact ⟨fun _ _ m hm => absurd hm (Nat.not_lt_zero m), hc.refCovers⟩
  | loadMb | emit | intraPred | mcPred | fdct | idct | quant | dequant =>
    exact hc.macroblockStep (macroblockStep_of_effect h (by simp [macroblockCommands]))
  | intraRecon | mcRecon =>
    obtain ⟨u, hrecon⟩ := reconStep_of_effect h (by simp)
    exact hc.reconStep hrecon
  | install => exact hc.install h
  | reset => cases h; exact coverageInv_of_not_run (by simp)

end Sys2Proof.Machine
end

section
/-! PROOFS. What the predictor leaves for the reconstruct command (10_state.md R49, R50, R53, 41_intra.md R129,
42_motion.md R151). -/

namespace Sys2Proof.Machine

/-! The vectors (R49) -/

/-- The clauses of `DatapathInv` on the vectors, which hold in every phase: four equal ones without partition, components in
-7..7. -/
structure VectorInv (s : State) : Prop where
  unsplitEqual : s.part = false → ∀ q < 4, mvAt s q = mvAt s 0
  vectorRange : ∀ q < 4, (-7 ≤ (mvAt s q).x ∧ (mvAt s q).x ≤ 7) ∧ (-7 ≤ (mvAt s q).down ∧ (mvAt s q).down ≤ 7)

theorem DatapathInv.vectors {s : State} (hd : DatapathInv s) : VectorInv s := ⟨hd.unsplitEqual, hd.vectorRange⟩

theorem VectorInv.of_eq {s t : State} (h : VectorInv s) (hmv : t.mv = s.mv) (hpart : t.part = s.part) : VectorInv t := by
  have hmvAt (q : Nat) : mvAt t q = mvAt s q := by rw [mvAt, mvAt, hmv]
  constructor <;> simp only [hmvAt, hpart]
  · exact h.unsplitEqual
  · exact h.vectorRange

theorem vectorInv_of_zero {s : State} (h : s.mv = Vector.replicate 4 ⟨0, 0⟩) : VectorInv s := by
  constructor <;> simp [mvAt_of_zero h, MotionVec.x, MotionVec.down]

/-- The search's vectors are those of targets, each within 7 samples (R156). -/
theorem vectorInv_motionSearch (s : State) : VectorInv (motionSearch s) where
  unsplitEqual hpart q hq := by
    have hwhole : ¬ (motionSearch s).part = true := Bool.eq_false_iff.1 hpart
    rw [mvAt_motionSearch s hq, mvAt_motionSearch s (by decide), if_neg hwhole, if_neg hwhole]
  vectorRange q hq := by
    have hrange {t : Footprint} (ht : t ∈ searchTargets) : (-7 ≤ (search s t).vec.x ∧ (search s t).vec.x ≤ 7) ∧
        (-7 ≤ (search s t).vec.down ∧ (search s t).vec.down ≤ 7) := by
      obtain ⟨hx, hy⟩ := search_vec s ht
      rw [hx, hy]
      exact ⟨(search_inv s ht).dx_bounds, (search_inv s ht).dy_bounds⟩
    rw [mvAt_motionSearch s hq]
    split
    · exact hrange (quadrant_mem_searchTargets hq)
    · exact hrange wholeBlock_mem_searchTargets

/-! The gathered stores -/

/-- A command on a macroblock writes neither REC nor MBIDX, nor the configuration, from which EDGE is gathered. -/
theorem MacroblockStep.gatherEdge_eq {s t : State} (h : MacroblockStep s t) : gatherEdge t = gatherEdge s := by
  rw [h.frame]; rfl

theorem MacroblockStep.gatherSb_cells {s t : State} (h : MacroblockStep s t) : (gatherSb t).cells = (gatherSb s).cells := by
  rw [h.frame]; rfl

/-! The datapath invariants -/

theorem Stage.predicted_of_emitted {g : Stage} (h : g.emitted = true ∨ g = .quant) : g.predicted = true := by
  cases g <;> simp_all [Stage.emitted, Stage.predicted]

/-- While no prediction is under way only the vectors' clauses ask for something. -/
theorem datapathInv_of_idle {s : State} (hv : VectorInv s) (hidle : s.phase = .run → s.stage.predicted = false) :
    DatapathInv s := by
  have hno {P : Prop} (hphase : s.phase = .run) (hstage : s.stage.predicted = true) : P := by
    simp [hidle hphase] at hstage
  exact ⟨fun hphase _ _ _ hstage => hno hphase hstage, fun hphase _ _ _ hstage => hno hphase hstage,
    hv.unsplitEqual, hv.vectorRange, fun hphase hstage => hno hphase (Stage.predicted_of_emitted hstage)⟩

/-- From FDCT to IDCT the predictor's registers stay, and the commands leave MBQP as QUANT writes it (R50, R188). -/
theorem DatapathInv.loopFrame {s t : State} (hd : DatapathInv s) (h : LoopFrame s t) (hstage : s.stage.predicted = true)
    (hmbqp : t.stage.emitted = true ∨ t.stage = .quant → t.mbqp = s.qp) : DatapathInv t := by
  have hv : VectorInv t := hd.vectors.of_eq (by rw [h]) (by rw [h])
  refine ⟨?_, ?_, hv.unsplitEqual, hv.vectorRange, fun _ hlater => (hmbqp hlater).trans h.qp.symm⟩
  · rw [h]; exact fun hphase hopen hftype hen _ => hd.edgeGathered hphase hopen hftype hen hstage
  · rw [h]; exact fun hphase hopen hftype hen _ => hd.windowGathered hphase hopen hftype hen hstage

/-- At RESID an I frame's predictor has gathered EDGE, or is off (R120, R128). -/
theorem DatapathInv.intraPred {s t : State} (hd : DatapathInv s) (h : Effect .intraPred s t) : DatapathInv t := by
  have hstep := macroblockStep_of_effect h (by simp [macroblockCommands])
  have hw := ownWrites_of_effect h (by simp)
  have hv : VectorInv t := hd.vectors.of_eq (by simpa using hw.mv) (by simpa using hw.part)
  obtain ⟨-, hftype, -, hcases⟩ := h
  have hframe := hstep.frame
  have hftypeT : t.ftype = .intra := by rw [hframe]; exact hftype
  have hresid : t.stage = .resid := by rcases hcases with ⟨-, -, rfl⟩ | ⟨-, rfl⟩ <;> simp
  refine ⟨fun _ _ _ hen _ => ?_, fun _ _ hpred => by simp [hftypeT] at hpred, hv.unsplitEqual, hv.vectorRange,
    fun _ hlater => by simp [hresid, Stage.emitted] at hlater⟩
  have henS : enIntra s = true := by rw [hframe] at hen; exact hen
  rw [hstep.gatherEdge_eq]
  rcases hcases with ⟨-, -, rfl⟩ | ⟨hoff, -⟩
  · exact intraPredict_edge s
  · simp [henS] at hoff

/-- At RESID a P frame's predictor has gathered SB and chosen vectors inside it, or is off (R141, R142, R144). -/
theorem DatapathInv.mcPred {s t : State} (h : Effect .mcPred s t) : DatapathInv t := by
  have hstep := macroblockStep_of_effect h (by simp [macroblockCommands])
  obtain ⟨-, hftype, -, hcases⟩ := h
  have hframe := hstep.frame
  have hftypeT : t.ftype = .predicted := by rw [hframe]; exact hftype
  have hresid : t.stage = .resid := by rcases hcases with ⟨-, -, rfl⟩ | ⟨-, rfl⟩ <;> simp
  have hv : VectorInv t := by
    rcases hcases with ⟨-, -, rfl⟩ | ⟨-, rfl⟩
    · exact (vectorInv_motionSearch _).of_eq (motionSubtract_mv _) (motionSubtract_part _)
    · exact vectorInv_of_zero rfl
  refine ⟨fun _ _ hintra => by simp [hftypeT] at hintra, fun _ _ _ hen _ => ?_, hv.unsplitEqual, hv.vectorRange,
    fun _ hlater => by simp [hresid, Stage.emitted] at hlater⟩
  have henS : enMc s = true := by rw [hframe] at hen; exact hen
  rw [hstep.gatherSb_cells]
  rcases hcases with ⟨-, -, rfl⟩ | ⟨hoff, -⟩
  · rw [vectorsReach_motionSubtract, vectorsReach_motionSearch]
    simp
  · simp [henS] at hoff

/-- Every effect keeps the datapath invariants. -/
theorem datapathInv_of_effect {i : Instr} {s t : State} (h : Effect i s t) (hs : SequencerInv s) (hd : DatapathInv s) :
    DatapathInv t := by
  cases i with
  | nop => cases h; exact hd
  | setDim | setWin | setQp | setIint | setFeat | setOvh =>
    obtain ⟨hphase, rfl⟩ := h
    exact datapathInv_of_idle (hd.vectors.of_eq rfl rfl) fun hrun => by simp [hphase] at hrun
  | start =>
    obtain ⟨hphase, -, rfl⟩ := h
    obtain ⟨-, hstage, -⟩ := hs.configIdle hphase
    exact datapathInv_of_idle (hd.vectors.of_eq rfl rfl) fun _ => by dsimp only; rw [hstage]; rfl
  | beginFrame =>
    obtain ⟨-, ⟨-, rfl⟩ | ⟨pic, rest, -, -, rfl⟩⟩ := h
    · exact { hd with }
    · exact datapathInv_of_idle (hd.vectors.of_eq (openFrame_mv _ _ _) (openFrame_part _ _ _)) fun _ => rfl
  | loadMb =>
    obtain ⟨-, -, -, pic, -, -, rfl⟩ := h
    exact datapathInv_of_idle (vectorInv_of_zero (loadMacroblock_mv pic s)) fun _ => rfl
  | intraPred => exact hd.intraPred h
  | mcPred => exact .mcPred h
  | fdct =>
    obtain ⟨-, hstage, rfl⟩ := h
    exact hd.loopFrame (by rw [LoopFrame, setMbufSat_frame]) (by rw [hstage]; rfl)
      fun hlater => by simp [Stage.emitted] at hlater
  | quant =>
    obtain ⟨-, hstage, rfl⟩ := h
    refine hd.loopFrame ?_ (by rw [hstage]; rfl) fun _ => rfl
    split
    · rw [LoopFrame, setMbuf_frame]
    · rfl
  | emit =>
    obtain ⟨⟨hphase, -⟩, hstage, rfl⟩ := h
    exact hd.loopFrame rfl (by rw [hstage]; rfl) fun _ => hd.stepInEffect hphase (.inr hstage)
  | dequant =>
    obtain ⟨⟨hphase, -⟩, hstage, rfl⟩ := h
    have hmbqp := hd.stepInEffect hphase (.inl (by rw [hstage]; rfl))
    refine hd.loopFrame ?_ (by rw [hstage]; rfl) fun _ => ?_
    · split
      · rw [LoopFrame, setMbufSat_frame]
      · rfl
    · split <;> simpa using hmbqp
  | idct =>
    obtain ⟨⟨hphase, -⟩, hstage, rfl⟩ := h
    have hmbqp := hd.stepInEffect hphase (.inl (by rw [hstage]; rfl))
    exact hd.loopFrame (by rw [LoopFrame, setMbufSat_frame]) (by rw [hstage]; rfl) fun _ => by simpa using hmbqp
  | intraRecon | mcRecon =>
    obtain ⟨u, hrecon⟩ := reconStep_of_effect h (by simp)
    have hw := ownWrites_of_effect h (by simp)
    refine datapathInv_of_idle (hd.vectors.of_eq (by simpa using hw.mv) (by simpa using hw.part)) fun _ => ?_
    rw [hrecon.finish]
    rfl
  | install => obtain ⟨-, -, rfl⟩ := h; exact datapathInv_of_idle (hd.vectors.of_eq rfl rfl) fun _ => rfl
  | reset =>
    cases h
    exact datapathInv_of_idle (vectorInv_of_zero (resetEngine_mv s)) fun hrun => by simp at hrun

end Sys2Proof.Machine
end

section
/-! PROOFS. The stage ranges of MBUF's words, and SAT (10_state.md R22, R54, 44_quantizer.md R189). -/

namespace Sys2Proof.Machine

/-- Every word of the macroblock is within `b`. -/
def MbufWithin (b : Int) (m : Mbuf) : Prop := ∀ p : Plane, ∀ r < p.size, ∀ c < p.size, |m.val p r c| ≤ b

theorem MbufSamples.sub {m n : Mbuf} {pred : Plane → Nat → Nat → Int} (h : MbufSamples m)
    (hpred : ∀ p : Plane, ∀ r < p.size, ∀ c < p.size, 0 ≤ pred p r c ∧ pred p r c ≤ 255)
    (hval : ∀ p : Plane, ∀ r < p.size, ∀ c < p.size, n.val p r c = m.val p r c - pred p r c) : MbufWithin 255 n := by
  intro p r hr c hc
  have hsample := h p r hr c hc
  have hprediction := hpred p r hr c hc
  rw [hval p r hr c hc, abs_le]
  omega

/-- A sample is a residual too: what a predictor that is off leaves. -/
theorem MbufSamples.within {m : Mbuf} (h : MbufSamples m) : MbufWithin 255 m :=
  h.sub (pred := fun _ _ _ => 0) (fun _ _ _ _ _ => by decide) fun _ _ _ _ _ => (sub_zero _).symm

/-! What the range invariants give and what makes them hold, stage by stage -/

theorem RangeInv.samples {s : State} (h : RangeInv s) (hphase : s.phase = .run) (hstage : s.stage = .raw) :
    MbufSamples s.mbuf :=
  h.inRange hphase 0 255 (by rw [hstage]; rfl)

/-- A stage with a symmetric range. -/
theorem RangeInv.within {s : State} {b : Int} (h : RangeInv s) (hphase : s.phase = .run)
    (hrange : stageRange (enQ s) s.stage = some (-b, b)) : MbufWithin b s.mbuf :=
  fun p r hr c hc => abs_le.2 (h.inRange hphase (-b) b hrange p r hr c hc)

/-- The stages without a range. -/
theorem rangeInv_of_empty {s : State} (hsat : s.sat = false) (hstage : s.phase = .run → s.stage = .empty) :
    RangeInv s := by
  refine ⟨fun hphase lo hi hrange => ?_, fun hphase _ hlater => ?_, hsat⟩
  · rw [hstage hphase] at hrange; cases hrange
  · simp [hstage hphase] at hlater

/-- The stages whose range is the same whatever the features. -/
theorem rangeInv_of_range {s : State} {lo hi : Int} (hsat : s.sat = false) (hlevel : s.stage ≠ .quant ∧ s.stage ≠ .sent)
    (hrange : stageRange (enQ s) s.stage = some (lo, hi))
    (hval : ∀ p : Plane, ∀ r < p.size, ∀ c < p.size, lo ≤ s.mbuf.val p r c ∧ s.mbuf.val p r c ≤ hi) : RangeInv s := by
  refine ⟨fun _ lo' hi' hrange' => ?_, fun _ _ hlater => ?_, hsat⟩
  · obtain ⟨rfl, rfl⟩ : lo = lo' ∧ hi = hi' := by simpa [hrange] using hrange'
    exact hval
  · rcases hlater with hquant | hsent
    · exact absurd hquant hlevel.1
    · exact absurd hsent hlevel.2

theorem rangeInv_of_within {s : State} {b : Int} (hsat : s.sat = false) (hlevel : s.stage ≠ .quant ∧ s.stage ≠ .sent)
    (hrange : stageRange (enQ s) s.stage = some (-b, b)) (hval : MbufWithin b s.mbuf) : RangeInv s :=
  rangeInv_of_range hsat hlevel hrange fun p r hr c hc => abs_le.1 (hval p r hr c hc)

/-- A level whose reconstruction is near a coefficient is at most 1020: the least step is 16 (R22, R32). -/
theorem abs_le_of_level {l : Int} {q : Nat} (hq : 2 ≤ q) (h : |l| * (8 * q) ≤ 16320 + 4 * q) : |l| ≤ 1020 := by
  by_contra hlt
  have hstep : (2 : Int) ≤ q := by exact_mod_cast hq
  nlinarith only [h, hstep, mul_le_mul_of_nonneg_right (by omega : (1021 : Int) ≤ |l|) (by omega : (0 : Int) ≤ 8 * q)]

/-- The two stages that hold levels, or coefficients with EN_Q = 0. -/
theorem rangeInv_of_levels {s : State} (hsat : s.sat = false) (hstage : s.stage = .quant ∨ s.stage = .sent)
    (hqp : s.phase = .run → 2 ≤ s.qp.toNat)
    (hlevel : enQ s = true → ∀ p : Plane, ∀ r < p.size, ∀ c < p.size,
      |s.mbuf.val p r c| * (8 * s.qp.toNat) ≤ 16320 + 4 * s.qp.toNat)
    (hoff : enQ s = false → MbufWithin 16320 s.mbuf) : RangeInv s := by
  refine ⟨fun hphase lo hi hrange p r hr c hc => ?_, fun _ hen _ => hlevel hen, hsat⟩
  have hrange' : (if enQ s then some ((-1020 : Int), (1020 : Int)) else some (-16320, 16320)) = some (lo, hi) := by
    rcases hstage with hstage | hstage <;> rw [hstage] at hrange <;> exact hrange
  cases hen : enQ s with
  | true =>
    obtain ⟨rfl, rfl⟩ : -1020 = lo ∧ 1020 = hi := by simpa [hen] using hrange'
    exact abs_le.1 (abs_le_of_level (hqp hphase) (hlevel hen p r hr c hc))
  | false =>
    obtain ⟨rfl, rfl⟩ : -16320 = lo ∧ 16320 = hi := by simpa [hen] using hrange'
    exact abs_le.1 (hoff hen p r hr c hc)

/-! The commands -/

/-- LOAD_MB brings samples (R22, R211). -/
theorem RangeInv.loadMb {s t : State} (hr : RangeInv s) (h : Effect .loadMb s t) : RangeInv t := by
  obtain ⟨-, -, -, pic, -, -, rfl⟩ := h
  refine rangeInv_of_range (lo := 0) (hi := 255) ((loadMacroblock_sat pic s).trans hr.satClear) (by simp) rfl
    fun p r hr' c hc => ?_
  have hsample := (pic.sample p (mbRow s p + r) (mbCol s p + c)).isLt
  rw [loadMacroblock_val pic s hr' hc]
  omega

/-- INTRA_PRED leaves residuals of samples (R127, R128). -/
theorem RangeInv.intraPred {s t : State} (hr : RangeInv s) (h : Effect .intraPred s t) : RangeInv t := by
  obtain ⟨⟨hphase, -⟩, -, hstage, hcases⟩ := h
  have hsamples := hr.samples hphase hstage
  rcases hcases with ⟨-, -, rfl⟩ | ⟨-, rfl⟩
  · refine rangeInv_of_within (b := 255) ((intraPredict_sat s).trans hr.satClear) (by simp) rfl ?_
    exact hsamples.sub (fun p r hr' c hc => candidate_bounds _ p _ hr' hc)
      fun p r hr' c hc => intraPredict_val hr' hc (hsamples p r hr' c hc)
  · refine rangeInv_of_within (b := 255) hr.satClear (by simp) rfl ?_
    exact hsamples.within

/-- MC_PRED leaves residuals of samples (R141, R154). -/
theorem RangeInv.mcPred {s t : State} (hr : RangeInv s) (h : Effect .mcPred s t) : RangeInv t := by
  obtain ⟨⟨hphase, -⟩, -, hstage, hcases⟩ := h
  have hsamples := hr.samples hphase hstage
  rcases hcases with ⟨-, -, rfl⟩ | ⟨-, rfl⟩
  · refine rangeInv_of_within (b := 255) (by simpa using hr.satClear) (by simp) (by simp; rfl) ?_
    exact hsamples.sub (fun p r _ c _ => motionPrediction_bounds _ p r c)
      fun p r hr' c hc => motionSubtract_val hr' hc (by simpa using hsamples p r hr' c hc)
  · refine rangeInv_of_within (b := 255) hr.satClear (by simp) rfl ?_
    exact hsamples.within

/-- FDCT makes coefficients of residuals, and none saturates (R175, R179). -/
theorem RangeInv.fdct {s t : State} (hr : RangeInv s) (h : Effect .fdct s t) : RangeInv t := by
  obtain ⟨⟨hphase, -⟩, hstage, rfl⟩ := h
  have hres : MbufResiduals s.mbuf := hr.within hphase (by rw [hstage]; rfl)
  have hcoef (p : Plane) (r : Nat) (hr' : r < p.size) (c : Nat) (hc : c < p.size) := abs_forwardWord_le hres hr' hc
  obtain ⟨hsat, hval⟩ := setMbufSat_of_fits s fun p r hr' c hc => (hcoef p r hr' c hc).trans (by decide)
  refine rangeInv_of_within (b := 16320) (hsat.trans hr.satClear) (by simp) rfl fun p r hr' c hc => ?_
  exact (congrArg abs (hval p r hr' c hc)).trans_le (hcoef p r hr' c hc)

/-- A level's reconstruction is within half a step of its coefficient (R190 (a)). -/
theorem abs_quantLevel_mul_le {w : Int} {q : Nat} (hq : 1 ≤ q) (hw : |w| ≤ 16320) :
    |quantLevel w q| * (8 * q) ≤ 16320 + 4 * q := by
  have hnear := abs_requantize_le true hq w
  rw [requantize, if_pos rfl, dequantWord_eq, abs_mul, abs_of_nonneg (by omega : (0 : Int) ≤ 8 * q)] at hnear
  omega

/-- QUANT makes levels of coefficients, or leaves them (R186, R187). -/
theorem RangeInv.quant {s t : State} (hs : SequencerInv s) (hr : RangeInv s) (h : Effect .quant s t) : RangeInv t := by
  obtain ⟨hopen, hstage, ht⟩ := h
  have hcoef : MbufWithin 16320 s.mbuf := hr.within hopen.1 (by rw [hstage]; rfl)
  obtain ⟨⟨hqp, -⟩, -⟩ := hs.runLegal hopen.1
  obtain ⟨u, hexec, hval, -, hquant, -, hframe⟩ := exec_quant_val hopen hstage (by omega)
  obtain rfl : t = u := Host.Outcome.next.inj (by rw [← hexec, exec_quant hopen hstage, ht])
  have hqpT : t.qp = s.qp := by rw [hframe]
  have hsat : t.sat = s.sat := by rw [hframe]
  have hen : enQ t = enQ s := by rw [hframe]; rfl
  refine rangeInv_of_levels (hsat.trans hr.satClear) (.inl hquant) (fun _ => by rwa [hqpT])
    (fun hon p r hr' c hc => ?_) fun hoff p r hr' c hc => ?_
  · rw [hval p r hr' c hc, if_pos (hen ▸ hon), hqpT]
    exact abs_quantLevel_mul_le (by omega) (hcoef p r hr' c hc)
  · rw [hval p r hr' c hc, if_neg (by simp [← hen, hoff])]
    exact hcoef p r hr' c hc

/-- EMIT leaves MBUF as it is (R212). -/
theorem RangeInv.emit {s t : State} (hs : SequencerInv s) (hr : RangeInv s) (h : Effect .emit s t) : RangeInv t := by
  obtain ⟨⟨hphase, -⟩, hstage, rfl⟩ := h
  obtain ⟨⟨hqp, -⟩, -⟩ := hs.runLegal hphase
  refine rangeInv_of_levels hr.satClear (.inr rfl) (fun _ => hqp) (fun hen => hr.levelBound hphase hen (.inl hstage))
    fun hoff => hr.within hphase ?_
  have hoff' : enQ s = false := hoff
  rw [hstage, hoff']
  rfl

/-- DEQUANT's products stay near the coefficients, and none saturates (R22, R189). -/
theorem RangeInv.dequant {s t : State} (hs : SequencerInv s) (hd : DatapathInv s) (hr : RangeInv s)
    (h : Effect .dequant s t) : RangeInv t := by
  obtain ⟨⟨hphase, -⟩, hstage, rfl⟩ := h
  obtain ⟨⟨-, hqp⟩, -⟩ := hs.runLegal hphase
  cases hen : enQ s with
  | true =>
    have hmbqp : s.mbqp = s.qp := hd.stepInEffect hphase (.inl (by rw [hstage]; rfl))
    have hprod (p : Plane) (r : Nat) (hr' : r < p.size) (c : Nat) (hc : c < p.size) :
        |dequantWord (s.mbuf.val p r c) s.mbqp.toNat| ≤ 16528 := by
      have hlevel := hr.levelBound hphase hen (.inr hstage) p r hr' c hc
      rw [hmbqp, dequantWord_eq, abs_mul, abs_of_nonneg (by omega : (0 : Int) ≤ 8 * s.qp.toNat)]
      omega
    obtain ⟨hsat, hval⟩ := setMbufSat_of_fits s fun p r hr' c hc => (hprod p r hr' c hc).trans (by decide)
    refine rangeInv_of_within (b := 16528) (hsat.trans hr.satClear) (by simp) rfl fun p r hr' c hc => ?_
    exact (congrArg abs (hval p r hr' c hc)).trans_le (hprod p r hr' c hc)
  | false =>
    have hcoef : MbufWithin 16320 s.mbuf := hr.within hphase (by rw [hstage, hen]; rfl)
    exact rangeInv_of_within (b := 16528) hr.satClear (by simp) rfl
      fun p r hr' c hc => (hcoef p r hr' c hc).trans (by decide)

/-- IDCT makes words within 14419 of reconstructed coefficients, and none saturates (R178, R179). -/
theorem RangeInv.idct {s t : State} (hr : RangeInv s) (h : Effect .idct s t) : RangeInv t := by
  obtain ⟨⟨hphase, -⟩, hstage, rfl⟩ := h
  have hdeq : MbufWithin 16528 s.mbuf := hr.within hphase (by rw [hstage]; rfl)
  have hword (p : Plane) (r : Nat) (hr' : r < p.size) (c : Nat) (hc : c < p.size) := abs_inverseWord_le hdeq hr' hc
  obtain ⟨hsat, hval⟩ := setMbufSat_of_fits s fun p r hr' c hc => (hword p r hr' c hc).trans (by decide)
  refine rangeInv_of_within (b := 14419) (hsat.trans hr.satClear) (by simp) rfl fun p r hr' c hc => ?_
  exact (congrArg abs (hval p r hr' c hc)).trans_le (hword p r hr' c hc)

/-- A reconstruct command leaves clipped words (R129, R158). -/
theorem RangeInv.reconStep {s u t : State} (hr : RangeInv s) (h : ReconStep s u t) : RangeInv t := by
  have hsat : u.sat = false := by rw [h.frame]; exact hr.satClear
  rw [h.finish]
  exact rangeInv_of_range (lo := 0) (hi := 255) ((finishMacroblock_sat u).trans hsat) (by simp) rfl h.samples

/-- Every effect keeps the ranges. -/
theorem rangeInv_of_effect {i : Instr} {s t : State} (h : Effect i s t) (hs : SequencerInv s) (hd : DatapathInv s)
    (hr : RangeInv s) : RangeInv t := by
  cases i with
  | nop => cases h; exact hr
  | setDim | setWin | setQp | setIint | setFeat | setOvh =>
    obtain ⟨hphase, rfl⟩ := h
    exact rangeInv_of_empty hr.satClear fun hrun => by simp [hphase] at hrun
  | start =>
    obtain ⟨hphase, -, rfl⟩ := h
    obtain ⟨-, hstage, -⟩ := hs.configIdle hphase
    exact rangeInv_of_empty hr.satClear fun _ => hstage
  | beginFrame =>
    obtain ⟨-, ⟨-, rfl⟩ | ⟨pic, rest, -, -, rfl⟩⟩ := h
    · exact { hr with }
    · exact rangeInv_of_empty hr.satClear fun _ => rfl
  | loadMb => exact hr.loadMb h
  | intraPred => exact hr.intraPred h
  | mcPred => exact hr.mcPred h
  | fdct => exact hr.fdct h
  | quant => exact hr.quant hs h
  | emit => exact hr.emit hs h
  | dequant => exact hr.dequant hs hd h
  | idct => exact hr.idct h
  | intraRecon | mcRecon =>
    obtain ⟨u, hrecon⟩ := reconStep_of_effect h (by simp)
    exact hr.reconStep hrecon
  | install => obtain ⟨-, -, rfl⟩ := h; exact rangeInv_of_empty hr.satClear fun _ => rfl
  | reset => cases h; exact rangeInv_of_empty (resetEngine_sat s) fun hrun => by simp at hrun

end Sys2Proof.Machine
end

section
/-! PROOFS. The invariants of a run together (45_sequencer.md R219, 10_state.md R22, R49 to R54, 20_memory.md R90). -/

namespace Sys2Proof.Machine

theorem runInv_of_effect {i : Instr} {s t : State} (h : Effect i s t) (hs : RunInv s) : RunInv t where
  sequencer := sequencerInv_of_effect h hs.sequencer
  coverage := coverageInv_of_effect h hs.sequencer hs.coverage
  datapath := datapathInv_of_effect h hs.sequencer hs.datapath
  range := rangeInv_of_effect h hs.sequencer hs.datapath hs.range

/-- The invariants of a run read nothing of the port (log 1). -/
theorem RunInv.with_port {s : State} (hs : RunInv s) (rest : List HostOp) : RunInv { s with port := rest } where
  sequencer := hs.sequencer.with_port rest
  coverage := { hs.coverage with }
  datapath := hs.datapath.with_port rest
  range := { hs.range with }

/-- A fault leaves RUN, and neither the vectors nor SAT change (R232). -/
theorem RunInv.raiseFault {s : State} (hs : RunInv s) {code : ErrCode} (w : Word) (hcode : code ≠ .ok) :
    RunInv (raiseFault code w s) where
  sequencer := .raiseFault s w hcode
  coverage := coverageInv_of_not_run (by simp)
  datapath := datapathInv_of_idle (hs.datapath.vectors.of_eq (raiseFault_mv _ _ _) (raiseFault_part _ _ _))
    fun hrun => by simp at hrun
  range := rangeInv_of_empty ((raiseFault_sat _ _ _).trans hs.range.satClear) fun hrun => by simp at hrun

/-- Settles O57: the four groups of invariants, each kept by every effect with the help of those before it. -/
theorem runInvariantKept : Obligations.RunInvariantKept := fun _ _ hs h =>
  inv_of_step (fun _ rest hs => hs.with_port rest) (fun _ _ w hcode hs => hs.raiseFault w hcode)
    (fun _ _ _ => runInv_of_effect) hs h

end Sys2Proof.Machine
end

section
/-! PROOFS. The fault: the checks of every command, which of them fails first, and what a step that faults or is ignored
leaves (45_sequencer.md R200, 60_exceptions.md R232 to R246). -/

namespace Sys2Proof.Machine

/-! The checks of a command (R200, R237) -/

/-- What each command checks, in R237's order, with the code each check raises; RESET checks nothing. -/
def checksOf (i : Instr) (s : State) : List (Bool × ErrCode) :=
  match i with
  | .nop => []
  | .setDim _ _ => [inConfig s]
  | .setWin _ _ => [inConfig s]
  | .setQp _ => [inConfig s]
  | .setIint _ => [inConfig s]
  | .setFeat _ => [inConfig s]
  | .setOvh _ => [inConfig s]
  | .start => inConfig s :: configChecks s
  | .beginFrame => [frameClosed s]
  | .loadMb => [frameOpen s, (s.stage == .empty || s.stage == .recon, .stage), (mbInPicture s, .mbRange)]
  | .emit => [frameOpen s, stageIs .quant s]
  | .install => [frameOpen s, (s.mbidx.toNat == nmb s, .incomplete)]
  | .intraPred => [frameOpen s, ftypeIs .intra s, stageIs .raw s]
  | .intraRecon => [frameOpen s, ftypeIs .intra s, stageIs .ires s]
  | .mcPred => [frameOpen s, ftypeIs .predicted s, stageIs .raw s]
  | .mcRecon => [frameOpen s, ftypeIs .predicted s, stageIs .ires s]
  | .fdct => [frameOpen s, stageIs .resid s]
  | .idct => [frameOpen s, stageIs .deq s]
  | .quant => [frameOpen s, stageIs .xform s]
  | .dequant => [frameOpen s, stageIs .sent s]
  | .reset => []

/-- Every command but RESET is the shared operation with its own word and its own checks. -/
theorem exec_eq_command {i : Instr} (hi : i ≠ .reset) (s : State) :
    ∃ effect, exec i s = command (encode i) (checksOf i s) effect s := by
  cases i with
  | reset => exact absurd rfl hi
  | nop | setDim | setWin | setQp | setIint | setFeat | setOvh | start | beginFrame | loadMb | emit | install
  | intraPred | intraRecon | mcPred | mcRecon | fdct | idct | quant | dequant =>
    delta exec execNop execSetDim execSetWin execSetQp execSetIint execSetFeat execSetOvh execStart execBeginFrame
      execLoadMb execEmit execInstall execIntraPred execIntraRecon execMcPred execMcRecon execFdct execIdct execQuant
      execDequant checksOf
    exact ⟨_, rfl⟩

/-- In HALT every command but RESET is ignored (R241). -/
theorem exec_of_halt {i : Instr} (hi : i ≠ .reset) {s : State} (hhalt : s.phase = .halt) : exec i s = .next s := by
  obtain ⟨effect, he⟩ := exec_eq_command hi s
  rw [he, command_halt hhalt]

/-- Out of HALT the first check that fails decides the fault, which writes the fault registers and PHASE only (R232, R237). -/
theorem exec_of_firstFailed {i : Instr} {s : State} {code : ErrCode} (hs : s.phase ≠ .halt)
    (hcode : firstFailed (checksOf i s) = some code) :
    exec i s = .next { s with errCode := code, errCmd := encode i, phase := .halt } := by
  have hi : i ≠ .reset := by rintro rfl; simp [checksOf] at hcode
  obtain ⟨effect, he⟩ := exec_eq_command hi s
  rw [he, command_fault hs hcode, raiseFault_frame]

/-- Checks that all hold leave the fault to those after them (R237). -/
theorem firstFailed_append_of_pass {before : List (Bool × ErrCode)} (h : ∀ c ∈ before, c.1 = true)
    (rest : List (Bool × ErrCode)) : firstFailed (before ++ rest) = firstFailed rest := by
  induction before with
  | nil => rfl
  | cons c before ih =>
    obtain ⟨hc, hbefore⟩ := List.forall_mem_cons.1 h
    rw [List.cons_append, firstFailed_cons, if_pos hc, ih hbefore]

/-! The open frame, FTYPE and STAGE -/

/-- With no frame open, the first check of a command inside a frame fails (R234). -/
theorem firstFailed_frameOpen_of_closed {s : State} (h : ¬ FrameIsOpen s) (rest : List (Bool × ErrCode)) :
    firstFailed (frameOpen s :: rest) = some .phase := by
  have hcheck : (s.phase == .run && s.fopen) = false := by simpa [FrameIsOpen] using h
  rw [frameOpen, hcheck]; rfl

/-- In an open frame the checks after the first decide (R237). -/
theorem firstFailed_frameOpen_of_open {s : State} (h : FrameIsOpen s) (rest : List (Bool × ErrCode)) :
    firstFailed (frameOpen s :: rest) = firstFailed rest :=
  firstFailed_append_of_pass (before := [frameOpen s]) (by simp [frameOpen, h.1, h.2]) rest

theorem firstFailed_ftypeIs_of_ne {s : State} {ft : FrameType} (h : s.ftype ≠ ft) (rest : List (Bool × ErrCode)) :
    firstFailed (ftypeIs ft s :: rest) = some .ftype := by
  simp [ftypeIs, h]

theorem firstFailed_stageIs_of_ne {s : State} {g : Stage} (h : s.stage ≠ g) (rest : List (Bool × ErrCode)) :
    firstFailed (stageIs g s :: rest) = some .stage := by
  simp [stageIs, h]

/-- The frame type's check of a command, where R200 gives it one. -/
def ftypeChecks (i : Instr) (s : State) : List (Bool × ErrCode) :=
  (ftypeTable.filter fun row => row.1 = i).map fun row => ftypeIs row.2 s

theorem ftypeChecks_pass {i : Instr} {s : State} (h : ∀ ft, (i, ft) ∈ ftypeTable → s.ftype = ft) :
    ∀ c ∈ ftypeChecks i s, c.1 = true := by
  simp only [ftypeChecks, List.forall_mem_map, List.mem_filter, decide_eq_true_eq]
  rintro ⟨_, ft⟩ ⟨hrow, rfl⟩
  simp [ftypeIs, h ft hrow]

/-- The commands inside a frame check the open frame first (R234, R237). -/
theorem checksOf_of_mem_frameCommands {i : Instr} (hi : i ∈ frameCommands) (s : State) :
    ∃ rest, checksOf i s = frameOpen s :: rest := by
  cases i with
  | loadMb | emit | install | intraPred | intraRecon | mcPred | mcRecon | fdct | idct | quant | dequant => exact ⟨_, rfl⟩
  | nop | setDim | setWin | setQp | setIint | setFeat | setOvh | start | beginFrame | reset =>
    simp [frameCommands] at hi

/-- The predictor commands check FTYPE before STAGE (R235, R237). -/
theorem checksOf_of_mem_ftypeTable {i : Instr} {ft : FrameType} (h : (i, ft) ∈ ftypeTable) (s : State) :
    ∃ rest, checksOf i s = frameOpen s :: ftypeIs ft s :: rest := by
  simp only [ftypeTable, List.mem_cons, Prod.mk.injEq, List.not_mem_nil, or_false] at h
  rcases h with ⟨rfl, rfl⟩ | ⟨rfl, rfl⟩ | ⟨rfl, rfl⟩ | ⟨rfl, rfl⟩ <;> exact ⟨_, rfl⟩

/-- R200's row of a command with one required stage: the open frame, FTYPE where it has one, STAGE. -/
theorem checksOf_of_mem_stageTable {i : Instr} {g : Stage} (h : (i, g) ∈ stageTable) (s : State) :
    checksOf i s = frameOpen s :: (ftypeChecks i s ++ [stageIs g s]) := by
  simp only [stageTable, List.mem_cons, Prod.mk.injEq, List.not_mem_nil, or_false] at h
  rcases h with ⟨rfl, rfl⟩ | ⟨rfl, rfl⟩ | ⟨rfl, rfl⟩ | ⟨rfl, rfl⟩ | ⟨rfl, rfl⟩ | ⟨rfl, rfl⟩ | ⟨rfl, rfl⟩ |
    ⟨rfl, rfl⟩ | ⟨rfl, rfl⟩ <;> rfl

/-! E_PHASE (R234) -/

theorem exec_frameCommand_of_closed {i : Instr} (hi : i ∈ frameCommands) {s : State} (hs : s.phase ≠ .halt)
    (hclosed : ¬ FrameIsOpen s) :
    exec i s = .next { s with errCode := .phase, errCmd := encode i, phase := .halt } := by
  obtain ⟨rest, hchecks⟩ := checksOf_of_mem_frameCommands hi s
  exact exec_of_firstFailed hs (hchecks ▸ firstFailed_frameOpen_of_closed hclosed rest)

/-- BEGIN_FRAME inside a frame, or outside RUN, fails its one check (R210, R234). -/
theorem firstFailed_beginFrame {s : State} (h : ¬ (s.phase = .run ∧ s.fopen = false)) :
    firstFailed (checksOf .beginFrame s) = some .phase := by
  have hcheck : (s.phase == .run && !s.fopen) = false := by simpa using h
  rw [checksOf, frameClosed, hcheck]; rfl

/-- Settles O12: the first check of each command, which is the one on PHASE and FOPEN. -/
theorem wrongPhaseFaults : Obligations.WrongPhaseFaults :=
  ⟨fun _ hi _ hs hclosed => exec_frameCommand_of_closed hi hs hclosed,
    fun _ hs hopen => exec_of_firstFailed hs (firstFailed_beginFrame hopen),
    fun _ _ hi hrun => exec_configures_in_run hi hrun⟩

/-! E_FTYPE, E_STAGE, E_INCOMPLETE, E_MBRANGE (R235, R236, R239) -/

/-- In an open frame a command inside a frame faults at the first of its other checks that fails (R237). -/
theorem exec_of_firstFailed_in_frame {i : Instr} {s : State} {code : ErrCode} {rest : List (Bool × ErrCode)}
    (hopen : FrameIsOpen s) (hchecks : checksOf i s = frameOpen s :: rest) (hcode : firstFailed rest = some code) :
    exec i s = .next { s with errCode := code, errCmd := encode i, phase := .halt } :=
  exec_of_firstFailed (by simp [hopen.1]) (by rw [hchecks, firstFailed_frameOpen_of_open hopen, hcode])

/-- Settles O13: FTYPE's check comes right after the open frame's. -/
theorem wrongFrameTypeFaults : Obligations.WrongFrameTypeFaults := by
  intro i ft hrow s hopen hftype
  obtain ⟨rest, hchecks⟩ := checksOf_of_mem_ftypeTable hrow s
  exact exec_of_firstFailed_in_frame hopen hchecks (firstFailed_ftypeIs_of_ne hftype rest)

/-- Settles O14: STAGE's check, those before it holding. -/
theorem wrongStageFaults : Obligations.WrongStageFaults := by
  refine ⟨fun i g hrow s hopen hftype hstage => ?_, fun s hopen hempty hrecon => ?_⟩
  · refine exec_of_firstFailed_in_frame hopen (checksOf_of_mem_stageTable hrow s) ?_
    rw [firstFailed_append_of_pass (ftypeChecks_pass hftype), firstFailed_stageIs_of_ne hstage]
  · exact exec_of_firstFailed_in_frame (i := .loadMb) hopen rfl (by simp [hempty, hrecon])

/-- Settles O15: INSTALL has no check on STAGE, and LOAD_MB's check on MBIDX is its last. -/
theorem frameBoundaryFaults : Obligations.FrameBoundaryFaults := by
  refine ⟨fun s hopen hmb => ?_, fun s hopen hstage hmb => ?_⟩
  · exact exec_of_firstFailed_in_frame (i := .install) hopen rfl (by simp [nmb, hmb])
  · exact exec_of_firstFailed_in_frame (i := .loadMb) hopen rfl (by simp [hstage, mbInPicture, nmb, Nat.not_lt.2 hmb])

/-! End of stream (R246) -/

/-- Between two frames with SRC empty, BEGIN_FRAME's check holds and it sets EOS (R210). -/
theorem exec_beginFrame_endOfStream {s : State} (hphase : s.phase = .run) (hclosed : s.fopen = false)
    (hsrc : s.src = []) : exec .beginFrame s = .next { s with eos := true } := by
  have hchecks : firstFailed [frameClosed s] = none := by simp [frameClosed, hphase, hclosed]
  delta exec execBeginFrame
  rw [command_effect (by simp [hphase]) hchecks]
  simp [hsrc]

/-- Settles O20: setting EOS leaves a state between two frames with SRC empty, so a second BEGIN_FRAME only sets EOS again
and the commands inside a frame find none open. -/
theorem endOfStreamIsNoFault : Obligations.EndOfStreamIsNoFault := by
  intro s hphase hclosed hsrc
  refine ⟨exec_beginFrame_endOfStream hphase hclosed hsrc, exec_nop _,
    exec_beginFrame_endOfStream (s := { s with eos := true }) hphase hclosed hsrc,
    ⟨_, rfl, resetEngine_phase _⟩, fun i hi => ?_⟩
  exact exec_frameCommand_of_closed hi (by simp [hphase]) (by simp [hclosed])

/-! The step (R232, R233, R241, R242) -/

/-- Settles O7: the step takes its operation from the port, and there is none. -/
theorem emptyPortWaits : Obligations.EmptyPortWaits := fun _ => performNext_nil

/-- Settles O8: out of HALT an illegal word is the fault E_ILLEGAL, whose frame is the fault's. -/
theorem illegalWordFaults : Obligations.IllegalWordFaults := by
  intro s w rest e hport hdecode hphase
  rw [step_cmdWrite hport, cmdWrite_error hdecode, if_neg hphase, raiseFault_frame]

/-- Settles O9: 0xFF000000 is the one word of RESET, so another word is an illegal word or another command, and HALT ignores
both. -/
theorem haltIgnoresEveryWordButReset : Obligations.HaltIgnoresEveryWordButReset := by
  intro s w rest hport hhalt hw
  rw [step_cmdWrite hport]
  cases hdecode : decode w with
  | error e => rw [cmdWrite_error hdecode, if_pos hhalt]
  | ok i =>
    have hi : i ≠ .reset := by
      rintro rfl
      exact hw (word_of_decode hdecode rfl)
    rw [cmdWrite_ok hdecode]
    exact exec_of_halt hi hhalt

/-- No effect enters HALT: START enters RUN, RESET enters CONFIG, and the others keep PHASE (R40). -/
theorem phase_of_effect {i : Instr} {s t : State} (h : Effect i s t) :
    t.phase = s.phase ∨ (i = .start ∧ t.phase = .run) ∨ (i = .reset ∧ t.phase = .config) := by
  cases i with
  | nop => cases h; exact .inl rfl
  | setDim | setWin | setQp | setIint | setFeat | setOvh => obtain ⟨-, rfl⟩ := h; exact .inl rfl
  | start => obtain ⟨-, -, rfl⟩ := h; exact .inr (.inl ⟨rfl, rfl⟩)
  | reset => cases h; exact .inr (.inr ⟨rfl, resetEngine_phase s⟩)
  | beginFrame => obtain ⟨-, ⟨-, rfl⟩ | ⟨pic, rest, -, -, rfl⟩⟩ := h <;> exact .inl rfl
  | install => obtain ⟨-, -, rfl⟩ := h; exact .inl rfl
  | intraRecon | mcRecon =>
    obtain ⟨u, hstep⟩ := reconStep_of_effect h (by simp)
    left
    rw [hstep.finish, finishMacroblock_phase, hstep.frame]
  | loadMb | emit | intraPred | mcPred | fdct | idct | quant | dequant =>
    have hstep := macroblockStep_of_effect h (by simp [macroblockCommands])
    left
    rw [hstep.frame]

/-- Only a fault of the command's own word enters HALT (R232). -/
theorem raiseFault_of_exec_halts {i : Instr} {s t : State} (h : exec i s = .next t) (hs : s.phase ≠ .halt)
    (ht : t.phase = .halt) : ∃ code, code ≠ .ok ∧ t = raiseFault code (encode i) s := by
  rcases exec_next h with ⟨hhalt, -⟩ | ⟨-, hfault⟩ | ⟨-, heffect⟩ | ⟨-, rfl⟩
  · exact absurd hhalt hs
  · exact hfault
  · rcases phase_of_effect heffect with hkept | ⟨-, hrun⟩ | ⟨-, hconfig⟩
    · exact absurd (hkept.symm.trans ht) hs
    · simp [hrun] at ht
    · simp [hconfig] at ht
  · simp at ht

/-- Settles O11: a step enters HALT by a command's fault or an illegal word's; a command's word is the one on the port, the
encoding losing no bit of it. -/
theorem faultWritesOnlyTheFaultRegisters : Obligations.FaultWritesOnlyTheFaultRegisters := by
  intro s t h hs ht
  have hfault {w : Word} {rest : List HostOp} {code : ErrCode} (hport : s.port = .cmdWrite w :: rest)
      (hcode : code ≠ .ok) (htw : t = raiseFault code w { s with port := rest }) :
      ∃ w rest, s.port = .cmdWrite w :: rest ∧ t.errCode ≠ .ok ∧
        t = { s with port := rest, errCode := t.errCode, errCmd := w, phase := .halt } := by
    subst htw
    exact ⟨w, rest, hport, hcode, raiseFault_frame _ _ _⟩
  rcases step_next h with ⟨-, rfl⟩ | ⟨rest, -, he⟩ | ⟨w, rest, i, hport, hw, he⟩ | ⟨w, rest, hport, rfl | htw⟩
  · exact absurd ht hs
  · cases he; simp at ht
  · obtain ⟨code, hcode, htw⟩ := raiseFault_of_exec_halts he hs ht
    obtain ⟨-, hencode⟩ := encodeOfDecodeIsTheWord w i hw
    exact hfault hport hcode (hencode ▸ htw)
  · exact absurd ht hs
  · exact hfault hport (by decide) htw

end Sys2Proof.Machine
end

section
/-! PROOFS. The two resets (70_reset_and_hazards.md R260, 45_sequencer.md R216). -/

namespace Sys2Proof.Machine

theorem step_hardReset {s : State} {rest : List HostOp} (hport : s.port = .hardReset :: rest) :
    step s = .next (resetEngine { s with port := rest }) :=
  performNext_cons hport

/-- Settles O10: the word 0xFF000000 decodes to RESET, whose effect is the hardware reset's. -/
theorem hardwareResetIsTheResetCommand : Obligations.HardwareResetIsTheResetCommand := by
  intro s rest
  obtain ⟨-, -, -, -, -, -, -, -, hdecode, -⟩ := sampleWordsDecode
  have hhard : step { s with port := .hardReset :: rest } = .next (resetEngine { s with port := rest }) :=
    step_hardReset (s := { s with port := .hardReset :: rest }) rfl
  have hword : step { s with port := .cmdWrite 0xFF000000 :: rest } = .next (resetEngine { s with port := rest }) :=
    stepRunsTheDecodedCommand _ _ rest .reset rfl hdecode
  exact ⟨hhard.trans hword.symm, _, hhard, resetEngine_phase _, resetEngine_port _⟩

end Sys2Proof.Machine
end

section
/-! PROOFS. When a command has its effect: `Effect` is all that `exec` does once the checks pass (45_sequencer.md R200,
60_exceptions.md R237). -/

namespace Sys2Proof.Machine

/-- The converse of `exec_next`: a state in which a command's effect is possible passes its checks. -/
theorem exec_of_effect {i : Instr} {s t : State} (h : Effect i s t) : exec i s = .next t := by
  cases i with
  | nop => cases h; exact exec_nop s
  | setDim => obtain ⟨hphase, rfl⟩ := h; exact exec_setDim hphase _ _
  | setWin => obtain ⟨hphase, rfl⟩ := h; exact exec_setWin hphase _ _
  | setQp => obtain ⟨hphase, rfl⟩ := h; exact exec_setQp hphase _
  | setIint => obtain ⟨hphase, rfl⟩ := h; exact exec_setIint hphase _
  | setFeat => obtain ⟨hphase, rfl⟩ := h; exact exec_setFeat hphase _
  | setOvh => obtain ⟨hphase, rfl⟩ := h; exact exec_setOvh hphase _
  | start => obtain ⟨hphase, hlegal, rfl⟩ := h; exact exec_start hphase hlegal
  | beginFrame =>
    obtain ⟨⟨hphase, hclosed⟩, ⟨hsrc, rfl⟩ | ⟨pic, rest, hsrc, hshape, rfl⟩⟩ := h
    · exact exec_beginFrame_endOfStream hphase hclosed hsrc
    · exact exec_beginFrame hphase hclosed hsrc hshape
  | loadMb => obtain ⟨hopen, hstage, hmb, pic, hcur, hshape, rfl⟩ := h; exact exec_loadMb hopen hstage hmb hcur hshape
  | emit => obtain ⟨hopen, hstage, rfl⟩ := h; exact exec_emit hopen hstage
  | install => obtain ⟨hopen, hall, rfl⟩ := h; exact exec_install hopen hall
  | intraPred =>
    obtain ⟨hopen, hftype, hstage, ⟨hen, hmb, rfl⟩ | ⟨hen, rfl⟩⟩ := h
    · rw [exec_intraPred hopen hftype hstage, if_pos hen, if_pos (mbInPicture_eq_true.2 hmb)]
    · exact intraPredPassThrough s hopen hftype hstage hen
  | intraRecon => obtain ⟨hopen, hftype, hstage, hmb, rfl⟩ := h; exact exec_intraRecon hopen hftype hstage hmb
  | mcPred =>
    obtain ⟨hopen, hftype, hstage, ⟨hen, hmb, rfl⟩ | ⟨hen, rfl⟩⟩ := h
    · rw [exec_mcPred hopen hftype hstage, if_pos hen, if_pos (mbInPicture_eq_true.2 hmb)]
    · exact mcPredPassThrough s hopen hftype hstage hen
  | mcRecon => obtain ⟨hopen, hftype, hstage, hmb, hvec, rfl⟩ := h; exact exec_mcRecon hopen hftype hstage hmb hvec
  | fdct => obtain ⟨hopen, hstage, rfl⟩ := h; exact exec_fdct hopen hstage
  | idct => obtain ⟨hopen, hstage, rfl⟩ := h; exact exec_idct hopen hstage
  | quant => obtain ⟨hopen, hstage, rfl⟩ := h; exact exec_quant hopen hstage
  | dequant => obtain ⟨hopen, hstage, rfl⟩ := h; exact exec_dequant hopen hstage
  | reset => cases h; rfl

/-- Under the invariants of a run, a command whose checks all pass has its effect, or is the refusal of U5 (R237, log 7). -/
theorem exists_effect_of_checks_pass {i : Instr} {s : State} (hs : SequencerInv s) (hd : DatapathInv s)
    (hchecks : ∀ c ∈ checksOf i s, c.1 = true) : (∃ t, Effect i s t) ∨ ∃ x, exec i s = .refused x := by
  have hpredictor {ft : FrameType} {g : Stage} (hc : ∀ c ∈ [frameOpen s, ftypeIs ft s, stageIs g s], c.1 = true)
      (hbusy : g.busy = true) : FrameIsOpen s ∧ s.ftype = ft ∧ s.stage = g ∧ s.mbidx.toNat < nmb s := by
    obtain ⟨hopen, hftype, hstage⟩ := predictorChecks_pass hc
    exact ⟨hopen, hftype, hstage, hs.busyInPicture hopen.1 (hstage ▸ hbusy)⟩
  cases i with
  | nop | reset => exact .inl ⟨_, rfl⟩
  | setDim | setWin | setQp | setIint | setFeat | setOvh =>
    exact .inl ⟨_, by simpa [checksOf, inConfig] using hchecks, rfl⟩
  | start =>
    obtain ⟨hphase, hconfig⟩ := List.forall_mem_cons.1 hchecks
    exact .inl ⟨_, by simpa [inConfig] using hphase, configChecks_pass hconfig, rfl⟩
  | beginFrame =>
    have hready : s.phase = .run ∧ s.fopen = false := by simpa [checksOf, frameClosed] using hchecks
    cases hsrc : s.src with
    | nil => exact .inl ⟨_, hready, .inl ⟨hsrc, rfl⟩⟩
    | cons pic rest =>
      cases hshape : pic.shaped s with
      | true => exact .inl ⟨_, hready, .inr ⟨pic, rest, hsrc, hshape, rfl⟩⟩
      | false => exact .inr ⟨_, exec_beginFrame_misshaped hready.1 hready.2 hsrc hshape⟩
  | loadMb =>
    obtain ⟨hopen, hstage, hmb⟩ : FrameIsOpen s ∧ (s.stage = .empty ∨ s.stage = .recon) ∧ s.mbidx.toNat < nmb s := by
      simpa [checksOf, frameOpen, mbInPicture] using hchecks
    obtain ⟨pic, hcur, hshape⟩ := hs.openPicture hopen.1 hopen.2
    exact .inl ⟨_, hopen, hstage, hmb, pic, hcur, hshape, rfl⟩
  | install =>
    obtain ⟨hopen, hall⟩ : FrameIsOpen s ∧ s.mbidx.toNat = nmb s := by simpa [checksOf, frameOpen] using hchecks
    exact .inl ⟨_, hopen, hall, rfl⟩
  | emit | fdct | idct | quant | dequant =>
    obtain ⟨hopen, hstage⟩ : FrameIsOpen s ∧ s.stage = _ := by simpa [checksOf, frameOpen, stageIs] using hchecks
    exact .inl ⟨_, hopen, hstage, rfl⟩
  | intraPred =>
    obtain ⟨hopen, hftype, hstage, hmb⟩ := hpredictor hchecks rfl
    cases hen : enIntra s with
    | true => exact .inl ⟨_, hopen, hftype, hstage, .inl ⟨hen, hmb, rfl⟩⟩
    | false => exact .inl ⟨_, hopen, hftype, hstage, .inr ⟨hen, rfl⟩⟩
  | mcPred =>
    obtain ⟨hopen, hftype, hstage, hmb⟩ := hpredictor hchecks rfl
    cases hen : enMc s with
    | true => exact .inl ⟨_, hopen, hftype, hstage, .inl ⟨hen, hmb, rfl⟩⟩
    | false => exact .inl ⟨_, hopen, hftype, hstage, .inr ⟨hen, rfl⟩⟩
  | intraRecon =>
    obtain ⟨hopen, hftype, hstage, hmb⟩ := hpredictor hchecks rfl
    exact .inl ⟨_, hopen, hftype, hstage, hmb, rfl⟩
  | mcRecon =>
    obtain ⟨hopen, hftype, hstage, hmb⟩ := hpredictor hchecks rfl
    have hvec (hen : enMc s = true) : vectorsReach s = true := by
      obtain ⟨-, -, hreach⟩ := hd.windowGathered hopen.1 hopen.2 hftype hen (hstage ▸ rfl)
      exact hreach
    exact .inl ⟨_, hopen, hftype, hstage, hmb, hvec, rfl⟩

/-- Under the invariants of a run, what a command whose checks pass does is its effect. -/
theorem effect_of_checks_pass {i : Instr} {s t : State} (hs : SequencerInv s) (hd : DatapathInv s)
    (hchecks : firstFailed (checksOf i s) = none) (h : exec i s = .next t) : Effect i s t := by
  rcases exists_effect_of_checks_pass hs hd (firstFailed_eq_none.1 hchecks) with ⟨u, hu⟩ | ⟨x, hx⟩
  · rw [exec_of_effect hu] at h
    exact Host.Outcome.next.inj h ▸ hu
  · rw [hx] at h
    cases h

end Sys2Proof.Machine
end

section
/-! PROOFS. Which samples of the stores a command reads: all of them written, so that the unspecified ones influence nothing
(20_memory.md R90, 45_sequencer.md R219 (g)). -/

namespace Sys2Proof.Machine

/-! Written samples -/

/-- A written sample reads the same from two stores with the same written samples, whatever their unspecified contents. -/
theorem Store.read_eq_of_written {st st' : Store} (hcells : st'.cells = st.cells) {p : Plane} {y x : Nat}
    (h : (Memory.read st.cells (sampleKey p y x)).isSome = true) : st'.read p y x = st.read p y x := by
  obtain ⟨v, hv⟩ := Option.isSome_iff_exists.1 h
  simp [Store.read, hcells, hv]

/-- The sample at row y, column x lies in the macroblock of that number in raster order (R71). -/
theorem isSome_read_of_stored {st : Store} {s : State} {n : Nat} (h : ∀ m < n, MacroblockStored st s m) {p : Plane}
    {y x : Nat} (hcol : x / p.size < s.picw.toNat) (hm : y / p.size * s.picw.toNat + x / p.size < n) :
    (Memory.read st.cells (sampleKey p y x)).isSome = true := by
  have hsize : 0 < p.size := by cases p <;> decide
  have hstored := h _ hm p (y % p.size) (Nat.mod_lt _ hsize) (x % p.size) (Nat.mod_lt _ hsize)
  rwa [Nat.mul_comm (y / p.size), Nat.mul_add_div (Nat.zero_lt_of_lt hcol), Nat.div_eq_of_lt hcol, Nat.add_zero, Nat.mul_add_mod,
    Nat.mod_eq_of_lt hcol, Nat.div_add_mod, Nat.div_add_mod] at hstored

/-- A store that covers the picture has every sample of its planes written. -/
theorem isSome_read_of_covered {st : Store} {s : State} (h : ∀ m < nmb s, MacroblockStored st s m) {p : Plane} {y x : Nat}
    (hy : y < p.size * s.pich.toNat) (hx : x < p.size * s.picw.toNat) :
    (Memory.read st.cells (sampleKey p y x)).isSome = true := by
  have hrow : y / p.size < s.pich.toNat := Nat.div_lt_of_lt_mul hy
  have hcol : x / p.size < s.picw.toNat := Nat.div_lt_of_lt_mul hx
  refine isSome_read_of_stored h hcol ?_
  calc y / p.size * s.picw.toNat + x / p.size < (y / p.size + 1) * s.picw.toNat := by rw [Nat.succ_mul]; omega
    _ ≤ s.pich.toNat * s.picw.toNat := Nat.mul_le_mul_right _ hrow
    _ = nmb s := Nat.mul_comm _ _

/-- Every sample of the gathered search buffer is written (R142). -/
theorem isSome_read_gatherSb (s : State) {y x : Nat} (hy : y < 2 * s.winy.toNat + 16) (hx : x < 2 * s.winx.toNat + 16) :
    (Memory.read (gatherSb s).cells (sampleKey .y y x)).isSome = true := by
  have hwidth : 2 * s.winx.toNat + 16 ≤ 2 ^ 20 := by have := s.winx.isLt; omega
  rw [gatherSb, Memory.read_table hwidth _ hy hx]
  rfl

/-! The intra predictor's neighbours (R121) -/

/-- `t` gathers from the same macroblock of a REC with the same written samples, those of the macroblocks before it. -/
structure SameNeighbours (s t : State) : Prop where
  mbidx : t.mbidx = s.mbidx
  picw : t.picw = s.picw
  cells : t.recStore.cells = s.recStore.cells
  located : s.mbidx.toNat < nmb s
  stored : ∀ m < s.mbidx.toNat, MacroblockStored s.recStore s m

section
variable {s t : State} (h : SameNeighbours s t)
include h

theorem SameNeighbours.mbx_eq : mbx t = mbx s := by rw [mbx, mbx, h.mbidx, h.picw]

theorem SameNeighbours.mby_eq : mby t = mby s := by rw [mby, mby, h.mbidx, h.picw]

/-- A sample of a macroblock before the current one reads the same. -/
theorem SameNeighbours.read {p : Plane} {y x : Nat} (hcol : x / p.size < s.picw.toNat)
    (hbefore : y / p.size * s.picw.toNat + x / p.size < mby s * s.picw.toNat + mbx s) :
    t.recStore.read p y x = s.recStore.read p y x := by
  refine Store.read_eq_of_written h.cells (isSome_read_of_stored h.stored hcol (hbefore.trans_eq ?_))
  rw [Machine.mby_eq h.located, Machine.mbx_eq h.located, Nat.div_add_mod']

theorem SameNeighbours.mbx_lt : mbx s < s.picw.toNat := by
  rw [Machine.mbx_eq h.located]
  exact Nat.mod_lt _ (picw_pos h.located)

/-- The macroblock above (R121). -/
theorem SameNeighbours.gatherTop {p : Plane} {j : Nat} (hj : j < p.size) : gatherTop t p j = gatherTop s p j := by
  have hlt := h.mbx_lt
  simp only [Machine.gatherTop, mbRow, mbCol, h.mby_eq, h.mbx_eq]
  cases hrow : mby s with
  | zero => rfl
  | succ a =>
    have hy : (p.size * (a + 1) - 1) / p.size = a := by cases p <;> simp only [Plane.size] <;> omega
    have hx : (p.size * mbx s + j) / p.size = mbx s := by cases p <;> simp only [Plane.size] at * <;> omega
    rw [if_pos a.succ_pos, if_pos a.succ_pos]
    refine h.read (by rwa [hx]) ?_
    rw [hy, hx, hrow, Nat.succ_mul]
    omega

/-- The macroblock to the left (R121). -/
theorem SameNeighbours.gatherLeft {p : Plane} {i : Nat} (hi : i < p.size) : gatherLeft t p i = gatherLeft s p i := by
  have hlt := h.mbx_lt
  simp only [Machine.gatherLeft, mbRow, mbCol, h.mby_eq, h.mbx_eq]
  cases hcol : mbx s with
  | zero => rfl
  | succ b =>
    have hy : (p.size * mby s + i) / p.size = mby s := by cases p <;> simp only [Plane.size] at * <;> omega
    have hx : (p.size * (b + 1) - 1) / p.size = b := by cases p <;> simp only [Plane.size] <;> omega
    rw [if_pos b.succ_pos, if_pos b.succ_pos]
    refine h.read (by omega) ?_
    rw [hy, hx, hcol]
    omega

/-- The macroblock above and to the left (R121). -/
theorem SameNeighbours.gatherCorner (p : Plane) : gatherCorner t p = gatherCorner s p := by
  have hlt := h.mbx_lt
  simp only [Machine.gatherCorner, mbRow, mbCol, h.mby_eq, h.mbx_eq]
  split
  · next hboth =>
    obtain ⟨⟨b, hcol⟩, a, hrow⟩ := hboth.imp Nat.exists_eq_add_of_le' Nat.exists_eq_add_of_le'
    have hy : (p.size * mby s - 1) / p.size = a := by rw [hrow]; cases p <;> simp only [Plane.size] <;> omega
    have hx : (p.size * mbx s - 1) / p.size = b := by rw [hcol]; cases p <;> simp only [Plane.size] <;> omega
    refine h.read (by omega) ?_
    rw [hy, hx, hrow, hcol, Nat.succ_mul]
    omega
  · rfl

/-- The edge registers are gathered from written samples only (R121, R265). -/
theorem SameNeighbours.gatherEdge : gatherEdge t = gatherEdge s := by
  have hchannel (p : Plane) : gatherChannel t p.size p = gatherChannel s p.size p := by
    have htop : (fun j : Fin p.size => Machine.gatherTop t p j) = fun j : Fin p.size => Machine.gatherTop s p j :=
      funext fun j => h.gatherTop j.isLt
    have hleft : (fun i : Fin p.size => Machine.gatherLeft t p i) = fun i : Fin p.size => Machine.gatherLeft s p i :=
      funext fun i => h.gatherLeft i.isLt
    rw [gatherChannel, gatherChannel, htop, hleft, h.gatherCorner]
  have hy : gatherChannel t 16 .y = gatherChannel s 16 .y := hchannel .y
  have hcb : gatherChannel t 8 .cb = gatherChannel s 8 .cb := hchannel .cb
  have hcr : gatherChannel t 8 .cr = gatherChannel s 8 .cr := hchannel .cr
  rw [Machine.gatherEdge, Machine.gatherEdge, hy, hcb, hcr]

end

end Sys2Proof.Machine
end

section
/-! PROOFS. Two states alike but for unspecified contents of the stores choose the same vectors and make the same prediction
(42_motion.md R142 to R152, 70_reset_and_hazards.md R265). -/

namespace Sys2Proof.Machine

/-- The two states differ in the stores and the model's tags only: every register, the streams and MBUF agree. -/
def SameButStores (s t : State) : Prop :=
  t = { s with edge := t.edge, sb := t.sb, refStore := t.refStore, recStore := t.recStore, fillNext := t.fillNext }

/-- `t` as `s` with stores of its own, for the commands that leave the stores' contents alone. -/
theorem SameButStores.exists_stores {s t : State} (h : SameButStores s t) : ∃ e b ref rc n,
    t = { s with edge := e, sb := b, refStore := ref, recStore := rc, fillNext := n } :=
  ⟨_, _, _, _, _, h⟩

theorem SameButStores.mbuf {s t : State} (h : SameButStores s t) : t.mbuf = s.mbuf := by rw [h]

/-! The gathered search buffer (R76, R142) -/

/-- REF's planes, whole in both states, read the same. -/
def SameReference (s t : State) : Prop := ∀ (p : Plane) (y x : Nat), y < p.size * s.pich.toNat → x < p.size * s.picw.toNat →
  t.refStore.read p y x = s.refStore.read p y x

theorem sameReference_of_covered {s t : State} (hcells : t.refStore.cells = s.refStore.cells)
    (h : ∀ m < nmb s, MacroblockStored s.refStore s m) : SameReference s t :=
  fun _ _ _ hy hx => Store.read_eq_of_written hcells (isSome_read_of_covered h hy hx)

theorem toNat_clamp_lt {n : Nat} (hn : 0 < n) (v : Int) : (clamp v 0 (n - 1)).toNat < n := by
  have := clamp_bounds (lo := 0) (hi := n - 1) (by omega) v
  omega

section
variable {s t : State} (h : SameButStores s t) (href : SameReference s t) (hmb : s.mbidx.toNat < nmb s)
include h href hmb

/-- A clamped luma read stays in the picture (R76). -/
theorem SameReference.refY (y x : Int) : refY t y x = refY s y x := by
  have hcols := picw_pos hmb
  have hrows : 0 < s.pich.toNat := Nat.pos_of_mul_pos_left (Nat.zero_lt_of_lt hmb)
  obtain ⟨e, b, ref, rc, n, rfl⟩ := h.exists_stores
  exact href .y _ _ (toNat_clamp_lt (n := 16 * s.pich.toNat) (by omega) y)
    (toNat_clamp_lt (n := 16 * s.picw.toNat) (by omega) x)

/-- A chroma read at a clamped luma position stays in the chroma plane (R77). -/
theorem SameReference.refC {p : Plane} (hp : p ≠ .y) (y x : Int) : refC t p y x = refC s p y x := by
  have hcols := picw_pos hmb
  have hrows : 0 < s.pich.toNat := Nat.pos_of_mul_pos_left (Nat.zero_lt_of_lt hmb)
  have hsize : p.size = 8 := by cases p <;> trivial
  obtain ⟨e, b, ref, rc, n, rfl⟩ := h.exists_stores
  have hy := toNat_clamp_lt (n := 16 * s.pich.toNat) (by omega) y
  have hx := toNat_clamp_lt (n := 16 * s.picw.toNat) (by omega) x
  refine href p _ _ ?_ ?_
  · rw [hsize]
    exact Nat.div_lt_of_lt_mul (by rw [← Nat.mul_assoc]; exact hy)
  · rw [hsize]
    exact Nat.div_lt_of_lt_mul (by rw [← Nat.mul_assoc]; exact hx)

/-- The search buffer is gathered from written samples only (R142). -/
theorem SameReference.gatherSb_cells : (gatherSb t).cells = (gatherSb s).cells := by
  have hread : Machine.refY t = Machine.refY s := funext₂ (href.refY h hmb)
  rw [gatherSb, gatherSb, hread]
  obtain ⟨e, b, ref, rc, n, rfl⟩ := h.exists_stores
  rfl

end

/-! What the motion datapath computes -/

/-- The two states agree in all that the motion datapath reads: the registers and MBUF, the window of SB, and REF. -/
structure SameMotion (s t : State) : Prop where
  registers : SameButStores s t
  window : ∀ y < 2 * s.winy.toNat + 16, ∀ x < 2 * s.winx.toNat + 16, t.sb.read .y y x = s.sb.read .y y x
  reference : SameReference s t
  located : s.mbidx.toNat < nmb s

/-- States whose SB is gathered, with the same written samples in SB and REF. -/
theorem sameMotion_of_gathered {s t : State} (h : SameButStores s t) (hmb : s.mbidx.toNat < nmb s)
    (hgathered : s.sb.cells = (gatherSb s).cells) (hsb : t.sb.cells = s.sb.cells) (href : SameReference s t) :
    SameMotion s t where
  registers := h
  window _ hy _ hx := Store.read_eq_of_written hsb (hgathered ▸ isSome_read_gatherSb s hy hx)
  reference := href
  located := hmb

section
variable {s t : State} (h : SameMotion s t)
include h

theorem SameMotion.reach (g : Footprint) (dx dy : Int) : reach t g dx dy = reach s g dx dy := by
  rw [h.registers]; rfl

theorem SameMotion.mvAt (q : Nat) : mvAt t q = mvAt s q := by
  rw [h.registers]; rfl

/-- The samples at a reachable displacement lie in the window (R144). -/
theorem SameMotion.sbSample {g : Footprint} {dx dy : Int} (hreach : Machine.reach s g dx dy = true) {j i : Nat}
    (hj : j < g.n) (hi : i < g.n) :
    sbSample t (s.winy.toNat + dy + g.oy + j) (s.winx.toNat + dx + g.ox + i) =
      sbSample s (s.winy.toNat + dy + g.oy + j) (s.winx.toNat + dx + g.ox + i) := by
  simp only [Machine.reach, Bool.and_eq_true, decide_eq_true_iff] at hreach
  exact h.window _ (by omega) _ (by omega)

theorem SameMotion.motionSse {g : Footprint} {dx dy : Int} (hreach : Machine.reach s g dx dy = true) :
    motionSse t g dx dy = motionSse s g dx dy := by
  have hwiny : t.winy = s.winy := by rw [h.registers]
  have hwinx : t.winx = s.winx := by rw [h.registers]
  rw [Machine.motionSse, Machine.motionSse, h.registers.mbuf, hwiny, hwinx]
  exact sumSquare_congr fun j hj i hi => by rw [h.sbSample hreach hj hi]

/-- An unreachable candidate costs INF_COST whatever SB holds (R144). -/
theorem SameMotion.candidateCost (g : Footprint) (dx dy : Int) : candidateCost t g dx dy = candidateCost s g dx dy := by
  rw [Machine.candidateCost, Machine.candidateCost, h.reach]
  split
  · next hreach => exact h.motionSse hreach
  · rfl

theorem SameMotion.searchIteration (g : Footprint) (best : Found) (step : Int) :
    searchIteration t g best step = searchIteration s g best step := by
  simp only [Machine.searchIteration, visit, h.reach, h.candidateCost]

theorem SameMotion.search {g : Footprint} (hg : g ∈ searchTargets) : search t g = search s g := by
  simp only [search_eq, h.motionSse (reach_zero s hg), h.searchIteration]

/-- The search's registers are the same (R140, R150). -/
theorem SameMotion.motionSearch : SameMotion (motionSearch s) (motionSearch t) := by
  have hwhole := h.search wholeBlock_mem_searchTargets
  have hquadrant {q : Nat} (hq : q < 4) := h.search (quadrant_mem_searchTargets hq)
  have hovh : t.ovh = s.ovh := by rw [h.registers]
  have hcost : quadrantCost t = quadrantCost s := by
    rw [quadrantCost_eq, quadrantCost_eq, hquadrant (by decide), hquadrant (by decide), hquadrant (by decide),
      hquadrant (by decide)]
  have hpart : partitioned t = partitioned s := by rw [partitioned, partitioned, hcost, hwhole, hovh]
  have hvectors : decidedVectors t = decidedVectors s := by
    have hslot : (fun q : Fin 4 => if partitioned t then (Machine.search t (quadrant q)).vec
        else (Machine.search t wholeBlock).vec) = fun q : Fin 4 => if partitioned s then
          (Machine.search s (quadrant q)).vec else (Machine.search s wholeBlock).vec :=
      funext fun q => by rw [hpart, hwhole, hquadrant q.isLt]
    exact congrArg Vector.ofFn hslot
  refine ⟨?_, h.window, h.reference, h.located⟩
  rw [SameButStores, Machine.motionSearch, Machine.motionSearch, hcost, hwhole, hpart, hvectors]
  obtain ⟨e, b, ref, rc, n, rfl⟩ := h.registers.exists_stores
  rfl

/-- With vectors inside the window the predictions are the same (R151, R152). -/
theorem SameMotion.motionPrediction (hvec : Machine.vectorsReach s = true) {p : Plane} {r c : Nat} (hr : r < p.size)
    (hc : c < p.size) : motionPrediction t p r c = motionPrediction s p r c := by
  by_cases hp : p = .y
  · subst hp
    rw [Plane.size] at hr hc
    have hreach := List.all_eq_true.1 hvec (2 * (r / 8) + c / 8) (List.mem_range.2 (by omega))
    have hsample := h.sbSample hreach (j := r % 8) (i := c % 8) (Nat.mod_lt _ (by decide)) (Nat.mod_lt _ (by decide))
    have hrow : ((quadrant (2 * (r / 8) + c / 8)).oy + (r % 8 : Nat) : Int) = r := by simp only [quadrant]; omega
    have hcol : ((quadrant (2 * (r / 8) + c / 8)).ox + (c % 8 : Nat) : Int) = c := by simp only [quadrant]; omega
    have hwiny : t.winy = s.winy := by rw [h.registers]
    have hwinx : t.winx = s.winx := by rw [h.registers]
    rw [motionPrediction_luma, motionPrediction_luma, h.mvAt, hwiny, hwinx]
    simp only [add_assoc, hrow, hcol] at hsample ⊢
    exact congrArg (fun x : Sample => (x.toNat : Int)) hsample
  · have hmby : mby t = mby s := by rw [h.registers]; rfl
    have hmbx : mbx t = mbx s := by rw [h.registers]; rfl
    rw [motionPrediction_chroma t hp, motionPrediction_chroma s hp, h.mvAt, hmby, hmbx,
      h.reference.refC h.registers h.located hp]

/-- A command that leaves in MBUF words made of the old words and the prediction makes the same words. -/
theorem SameMotion.setMbuf (hvec : Machine.vectorsReach s = true) (f : Int → Int → Int) :
    SameButStores (setMbuf (fun p r c => f (s.mbuf.val p r c) (Machine.motionPrediction s p r c)) s)
      (setMbuf (fun p r c => f (t.mbuf.val p r c) (Machine.motionPrediction t p r c)) t) := by
  have hwords : Mbuf.ofFn (fun p r c => tc16 (f (t.mbuf.val p r c) (Machine.motionPrediction t p r c))) =
      Mbuf.ofFn fun p r c => tc16 (f (s.mbuf.val p r c) (Machine.motionPrediction s p r c)) :=
    Mbuf.ofFn_congr fun p r hr c hc => by rw [h.motionPrediction hvec hr hc, h.registers.mbuf]
  rw [SameButStores, Machine.setMbuf, Machine.setMbuf, hwords]
  obtain ⟨e, b, ref, rc, n, rfl⟩ := h.registers.exists_stores
  rfl

/-- The residuals are the same (R154). -/
theorem SameMotion.motionSubtract (hvec : Machine.vectorsReach s = true) :
    SameButStores (motionSubtract s) (motionSubtract t) := by
  obtain ⟨e, b, ref, rc, n, heq⟩ := (h.setMbuf hvec fun v pred => v - pred).exists_stores
  rw [Machine.motionSubtract, Machine.motionSubtract, heq]
  rfl

end

/-- The reconstructed words are the same; with EN_MC = 0 there is no prediction (R158). -/
theorem sameButStores_motionReconstruct {s t : State} (h : SameButStores s t)
    (hmotion : enMc s = true → SameMotion s t ∧ vectorsReach s = true) :
    SameButStores (motionReconstruct s) (motionReconstruct t) := by
  have hen : enMc t = enMc s := by rw [h]; rfl
  rw [motionReconstruct, motionReconstruct, hen]
  cases hon : enMc s with
  | true =>
    obtain ⟨hsame, hvec⟩ := hmotion hon
    exact hsame.setMbuf hvec fun v pred => clip255 (v + pred)
  | false =>
    obtain ⟨e, b, ref, rc, n, rfl⟩ := h.exists_stores
    rfl

end Sys2Proof.Machine
end

section
/-! PROOFS. Unspecified contents never matter (70_reset_and_hazards.md R265, 93_implementation_defined.md U1 to U4): states
that agree on everything specified answer every command alike. -/

namespace Sys2Proof.Machine

/-- `t` as `s` with contents of its own. -/
theorem SameSpecified.exists_contents {s t : State} (h : SameSpecified s t) : ∃ m e b ref rc n,
    t = { s with mbuf := m, edge := e, sb := b, refStore := ref, recStore := rc, fillNext := n } :=
  ⟨_, _, _, _, _, _, h.registers⟩

theorem SameButStores.registers {s t : State} (h : SameButStores s t) : t = { s with
    mbuf := t.mbuf, edge := t.edge, sb := t.sb, refStore := t.refStore, recStore := t.recStore, fillNext := t.fillNext } := by
  rw [h.mbuf]
  exact h

/-- While a macroblock is in MBUF, only the stores can differ. -/
theorem SameSpecified.sameButStores {s t : State} (h : SameSpecified s t) (hstage : s.stage ≠ .empty) :
    SameButStores s t := by
  rw [SameButStores, ← h.mbuf hstage]
  exact h.registers

theorem SameSpecified.with_port {s t : State} (h : SameSpecified s t) (rest : List HostOp) :
    SameSpecified { s with port := rest } { t with port := rest } := by
  obtain ⟨m, e, b, ref, rc, n, rfl⟩ := h.exists_contents
  exact ⟨rfl, h.mbuf, h.edge, h.sb, h.refCells, h.recCells⟩

/-- While no prediction is under way, EDGE and SB may differ in any way (U2). -/
theorem sameSpecified_of_unpredicted {s t : State}
    (hregisters : t = { s with
      mbuf := t.mbuf, edge := t.edge, sb := t.sb, refStore := t.refStore, recStore := t.recStore, fillNext := t.fillNext })
    (hmbuf : s.stage ≠ .empty → t.mbuf = s.mbuf) (hstage : s.stage.predicted = false)
    (href : s.phase = .run → t.refStore.cells = s.refStore.cells)
    (hrec : s.phase = .run → t.recStore.cells = s.recStore.cells) : SameSpecified s t :=
  ⟨hregisters, hmbuf, fun _ _ _ _ hpred => by simp [hstage] at hpred, fun _ _ _ _ hpred => by simp [hstage] at hpred,
    href, hrec⟩

/-- Out of RUN only the registers, and MBUF unless STAGE is EMPTY, must agree. -/
theorem sameSpecified_of_not_run {s t : State}
    (hregisters : t = { s with
      mbuf := t.mbuf, edge := t.edge, sb := t.sb, refStore := t.refStore, recStore := t.recStore, fillNext := t.fillNext })
    (hmbuf : s.stage ≠ .empty → t.mbuf = s.mbuf) (hphase : s.phase ≠ .run) : SameSpecified s t :=
  ⟨hregisters, hmbuf, fun hrun => absurd hrun hphase, fun hrun => absurd hrun hphase, fun hrun => absurd hrun hphase,
    fun hrun => absurd hrun hphase⟩

theorem SameSpecified.raiseFault {s t : State} (h : SameSpecified s t) (code : ErrCode) (w : Word) :
    SameSpecified (raiseFault code w s) (raiseFault code w t) := by
  obtain ⟨m, e, b, ref, rc, n, rfl⟩ := h.exists_contents
  exact sameSpecified_of_not_run rfl h.mbuf (by simp)

/-- The checks read specified registers only (R237). -/
theorem SameSpecified.checksOf {s t : State} (h : SameSpecified s t) (i : Instr) : checksOf i t = checksOf i s := by
  rw [h.registers]
  cases i <;> rfl

/-! The commands on a macroblock -/

/-- LOAD_MB reads CUR, which is specified (R211). -/
theorem SameSpecified.loadMacroblock {s t : State} (h : SameSpecified s t) (pic : Picture) :
    SameSpecified (loadMacroblock pic s) (loadMacroblock pic t) := by
  obtain ⟨m, e, b, ref, rc, n, rfl⟩ := h.exists_contents
  exact sameSpecified_of_unpredicted rfl (fun _ => rfl) rfl (by simpa using h.refCells) (by simpa using h.recCells)

/-- The commands from FDCT to IDCT. -/
def loopCommands : List Instr := [.fdct, .quant, .emit, .dequant, .idct]

theorem loopFrame_of_effect {i : Instr} {s t : State} (h : Effect i s t) (hi : i ∈ loopCommands) :
    LoopFrame s t ∧ s.stage.predicted = true := by
  cases i with
  | emit =>
    obtain ⟨-, hstage, rfl⟩ := h
    exact ⟨rfl, hstage ▸ rfl⟩
  | fdct | idct =>
    obtain ⟨-, hstage, rfl⟩ := h
    exact ⟨by rw [LoopFrame, setMbufSat_frame], hstage ▸ rfl⟩
  | quant =>
    obtain ⟨-, hstage, rfl⟩ := h
    refine ⟨?_, hstage ▸ rfl⟩
    split
    · rw [LoopFrame, setMbuf_frame]
    · rfl
  | dequant =>
    obtain ⟨-, hstage, rfl⟩ := h
    refine ⟨?_, hstage ▸ rfl⟩
    split
    · rw [LoopFrame, setMbufSat_frame]
    · rfl
  | nop | setDim | setWin | setQp | setIint | setFeat | setOvh | start | beginFrame | loadMb | install | intraPred
  | intraRecon | mcPred | mcRecon | reset => simp [loopCommands] at hi

/-- From FDCT to IDCT the words are computed from MBUF and the registers alone. -/
theorem SameButStores.loopCommand {i : Instr} {s t s' : State} (h : SameButStores s t) (he : Effect i s s')
    (hi : i ∈ loopCommands) : ∃ t', Effect i t t' ∧ SameButStores s' t' := by
  obtain ⟨e, b, ref, rc, n, rfl⟩ := h.exists_stores
  cases i with
  | emit | fdct | idct =>
    obtain ⟨hopen, hstage, rfl⟩ := he
    exact ⟨_, ⟨hopen, hstage, rfl⟩, rfl⟩
  | quant | dequant =>
    obtain ⟨hopen, hstage, rfl⟩ := he
    refine ⟨_, ⟨hopen, hstage, rfl⟩, ?_⟩
    have hen : enQ { s with edge := e, sb := b, refStore := ref, recStore := rc, fillNext := n } = enQ s := rfl
    rw [hen]
    cases enQ s <;> rfl
  | nop | setDim | setWin | setQp | setIint | setFeat | setOvh | start | beginFrame | loadMb | install | intraPred
  | intraRecon | mcPred | mcRecon | reset => simp [loopCommands] at hi

/-- From FDCT to IDCT the stores are kept, so what they agree in they agree in afterwards. -/
theorem SameSpecified.loopCommand {i : Instr} {s t s' : State} (h : SameSpecified s t) (he : Effect i s s')
    (hi : i ∈ loopCommands) : ∃ t', Effect i t t' ∧ SameSpecified s' t' := by
  obtain ⟨hs, hstage⟩ := loopFrame_of_effect he hi
  have hstores := h.sameButStores fun hempty => by simp [hempty, Stage.predicted] at hstage
  obtain ⟨t', het, hsame⟩ := hstores.loopCommand he hi
  obtain ⟨ht, -⟩ := loopFrame_of_effect het hi
  refine ⟨t', het, hsame.registers, fun _ => hsame.mbuf, ?_, ?_, ?_, ?_⟩ <;> rw [hs, ht]
  · exact fun hphase hopen hftype hen _ => h.edge hphase hopen hftype hen hstage
  · exact fun hphase hopen hftype hen _ => h.sb hphase hopen hftype hen hstage
  · exact h.refCells
  · exact h.recCells

/-- INTRA_PRED gathers the same edges, so it chooses the same mode and leaves the same residuals (R120). -/
theorem SameSpecified.intraPredict {s t : State} (h : SameSpecified s t) (hc : CoverageInv s) (hopen : FrameIsOpen s)
    (hftype : s.ftype = .intra) (hstage : s.stage = .raw) (hmb : s.mbidx.toNat < nmb s) :
    SameSpecified (intraPredict s) (intraPredict t) := by
  have hneighbours : SameNeighbours s t :=
    ⟨by rw [h.registers], by rw [h.registers], h.recCells hopen.1, hmb, hc.recCovers hopen.1 hopen.2⟩
  have hedge := hneighbours.gatherEdge
  have hsame : SameButStores (Machine.intraPredict s) (Machine.intraPredict t) := by
    obtain ⟨e, b, ref, rc, n, rfl⟩ := (h.sameButStores (by simp [hstage])).exists_stores
    rw [SameButStores, Machine.intraPredict, Machine.intraPredict, hedge]
    rfl
  exact ⟨hsame.registers, fun _ => hsame.mbuf, fun _ _ _ _ _ => by rw [intraPredict_edge, intraPredict_edge, hedge],
    fun _ _ hpred => by simp [hftype] at hpred, by simpa using h.refCells, by simpa using h.recCells⟩

/-- MC_PRED gathers the same window, so it finds the same vectors and leaves the same residuals (R140). -/
theorem SameSpecified.motionPredict {s t : State} (h : SameSpecified s t) (hc : CoverageInv s) (hopen : FrameIsOpen s)
    (hvalid : s.refValid = true) (hftype : s.ftype = .predicted) (hstage : s.stage = .raw)
    (hmb : s.mbidx.toNat < nmb s) :
    SameSpecified (motionSubtract (motionSearch { s with sb := gatherSb s, sbValid := true }))
      (motionSubtract (motionSearch { t with sb := gatherSb t, sbValid := true })) := by
  have hstores := h.sameButStores (by simp [hstage])
  have href : SameReference s t := sameReference_of_covered (h.refCells hopen.1) (hc.refCovers hopen.1 hvalid)
  have hcells := href.gatherSb_cells hstores hmb
  have hgathered : SameMotion { s with sb := gatherSb s, sbValid := true } { t with sb := gatherSb t, sbValid := true } :=
    sameMotion_of_gathered (by rw [SameButStores, hstores]) hmb rfl hcells href
  have hsame := hgathered.motionSearch.motionSubtract (vectorsReach_motionSearch _)
  exact ⟨hsame.registers, fun _ => hsame.mbuf, fun _ _ hintra => by simp [hftype] at hintra,
    fun _ _ _ _ _ => by simpa using hcells, by simpa using h.refCells, by simpa using h.recCells⟩

/-- A reconstruct command stores the same words at the same place (R83). -/
theorem sameSpecified_finishMacroblock {u v : State} (h : SameButStores u v)
    (href : v.refStore.cells = u.refStore.cells) (hrec : v.recStore.cells = u.recStore.cells) :
    SameSpecified (finishMacroblock u) (finishMacroblock v) := by
  have hstored : (storeMacroblock v).cells = (storeMacroblock u).cells := by
    simp only [storeMacroblock, planes, List.foldl_cons, List.foldl_nil, storePlane_cells, hrec]
    rw [h]
    rfl
  obtain ⟨e, b, ref, rc, n, rfl⟩ := h.exists_stores
  exact sameSpecified_of_unpredicted rfl (fun _ => rfl) rfl (fun _ => href) fun _ => hstored

/-- INTRA_RECON reads EDGE only with EN_INTRA = 1 (R129). -/
theorem SameSpecified.intraReconstruct {s t : State} (h : SameSpecified s t) (hopen : FrameIsOpen s)
    (hftype : s.ftype = .intra) (hstage : s.stage = .ires) :
    SameButStores (intraReconstruct s) (intraReconstruct t) := by
  obtain ⟨e, b, ref, rc, n, rfl⟩ := (h.sameButStores (by simp [hstage])).exists_stores
  cases hen : enIntra s with
  | true =>
    obtain rfl : e = s.edge := h.edge hopen.1 hopen.2 hftype hen (hstage ▸ rfl)
    rfl
  | false =>
    have hent : enIntra { s with edge := e, sb := b, refStore := ref, recStore := rc, fillNext := n } = false := hen
    rw [SameButStores, Machine.intraReconstruct, Machine.intraReconstruct, hen, hent]
    rfl

/-- MC_RECON reads SB and REF only with EN_MC = 1, where they were gathered (R158). -/
theorem SameSpecified.motionReconstruct {s t : State} (h : SameSpecified s t) (hs : RunInv s) (hopen : FrameIsOpen s)
    (hftype : s.ftype = .predicted) (hstage : s.stage = .ires) (hmb : s.mbidx.toNat < nmb s) :
    SameButStores (motionReconstruct s) (motionReconstruct t) := by
  have hstores := h.sameButStores (by simp [hstage])
  have hpredicted : s.stage.predicted = true := by rw [hstage]; rfl
  refine sameButStores_motionReconstruct hstores fun hen => ?_
  obtain ⟨-, hgathered, hvec⟩ := hs.datapath.windowGathered hopen.1 hopen.2 hftype hen hpredicted
  have hvalid := hs.sequencer.predictedHasRef hopen.1 hopen.2 hftype
  exact ⟨sameMotion_of_gathered hstores hmb hgathered (h.sb hopen.1 hopen.2 hftype hen hpredicted)
    (sameReference_of_covered (h.refCells hopen.1) (hs.coverage.refCovers hopen.1 hvalid)), hvec⟩

/-! The step -/

/-- Every effect: the same command has its effect on the other state too, and the results agree again. -/
theorem SameSpecified.effect {i : Instr} {s t s' : State} (h : SameSpecified s t) (hs : RunInv s) (he : Effect i s s') :
    ∃ t', Effect i t t' ∧ SameSpecified s' t' := by
  obtain ⟨m, e, b, ref, rc, n, rfl⟩ := h.exists_contents
  cases i with
  | nop => cases he; exact ⟨_, rfl, h⟩
  | setDim | setWin | setQp | setIint | setFeat | setOvh =>
    obtain ⟨hphase, rfl⟩ := he
    exact ⟨_, ⟨hphase, rfl⟩, sameSpecified_of_not_run rfl h.mbuf (by simp [hphase])⟩
  | start =>
    obtain ⟨hphase, hlegal, rfl⟩ := he
    obtain ⟨-, hstage, -⟩ := hs.sequencer.configIdle hphase
    exact ⟨_, ⟨hphase, hlegal, rfl⟩,
      sameSpecified_of_unpredicted rfl h.mbuf (by simp [hstage, Stage.predicted]) (fun _ => rfl) fun _ => rfl⟩
  | beginFrame =>
    obtain ⟨hready, ⟨hsrc, rfl⟩ | ⟨pic, rest, hsrc, hshape, rfl⟩⟩ := he
    · exact ⟨_, ⟨hready, .inl ⟨hsrc, rfl⟩⟩, rfl, h.mbuf, h.edge, h.sb, h.refCells, h.recCells⟩
    · exact ⟨_, ⟨hready, .inr ⟨pic, rest, hsrc, hshape, rfl⟩⟩,
        sameSpecified_of_unpredicted rfl (fun hne => absurd rfl hne) rfl h.refCells h.recCells⟩
  | loadMb =>
    obtain ⟨hopen, hstage, hmb, pic, hcur, hshape, rfl⟩ := he
    exact ⟨_, ⟨hopen, hstage, hmb, pic, hcur, hshape, rfl⟩, h.loadMacroblock pic⟩
  | install =>
    obtain ⟨hopen, hall, rfl⟩ := he
    exact ⟨_, ⟨hopen, hall, rfl⟩, sameSpecified_of_unpredicted rfl (fun hne => absurd rfl hne) rfl
      (fun _ => h.recCells hopen.1) fun _ => rfl⟩
  | reset =>
    cases he
    exact ⟨_, rfl, sameSpecified_of_not_run rfl (fun hne => absurd (resetEngine_stage s) hne) (by simp)⟩
  | emit | fdct | idct | quant | dequant => exact h.loopCommand he (by simp [loopCommands])
  | intraPred =>
    obtain ⟨hopen, hftype, hstage, ⟨hen, hmb, rfl⟩ | ⟨hen, rfl⟩⟩ := he
    · exact ⟨_, ⟨hopen, hftype, hstage, .inl ⟨hen, hmb, rfl⟩⟩, h.intraPredict hs.coverage hopen hftype hstage hmb⟩
    · obtain rfl : m = s.mbuf := h.mbuf (by simp [hstage])
      exact ⟨_, ⟨hopen, hftype, hstage, .inr ⟨hen, rfl⟩⟩, rfl, fun _ => rfl,
        fun _ _ _ hon => absurd (hen.symm.trans hon) (by decide),
        fun _ _ hpred => absurd (hftype.symm.trans hpred) (by decide), h.refCells, h.recCells⟩
  | mcPred =>
    obtain ⟨hopen, hftype, hstage, ⟨hen, hmb, rfl⟩ | ⟨hen, rfl⟩⟩ := he
    · have hvalid := hs.sequencer.predictedHasRef hopen.1 hopen.2 hftype
      exact ⟨_, ⟨hopen, hftype, hstage, .inl ⟨hen, hmb, rfl⟩⟩,
        h.motionPredict hs.coverage hopen hvalid hftype hstage hmb⟩
    · obtain rfl : m = s.mbuf := h.mbuf (by simp [hstage])
      exact ⟨_, ⟨hopen, hftype, hstage, .inr ⟨hen, rfl⟩⟩, rfl, fun _ => rfl,
        fun _ _ hintra => absurd (hftype.symm.trans hintra) (by decide),
        fun _ _ _ hon => absurd (hen.symm.trans hon) (by decide), h.refCells, h.recCells⟩
  | intraRecon =>
    obtain ⟨hopen, hftype, hstage, hmb, rfl⟩ := he
    exact ⟨_, ⟨hopen, hftype, hstage, hmb, rfl⟩, sameSpecified_finishMacroblock
      (h.intraReconstruct hopen hftype hstage) (h.refCells hopen.1) (h.recCells hopen.1)⟩
  | mcRecon =>
    obtain ⟨hopen, hftype, hstage, hmb, hvec, rfl⟩ := he
    exact ⟨_, ⟨hopen, hftype, hstage, hmb, hvec, rfl⟩, sameSpecified_finishMacroblock
      (h.motionReconstruct hs hopen hftype hstage hmb) (h.refCells hopen.1) (h.recCells hopen.1)⟩

/-- A command that is ignored, faults or has its effect in one state does so in the other. -/
theorem SameSpecified.exec {i : Instr} {s t s' : State} (h : SameSpecified s t) (hs : RunInv s)
    (he : exec i s = .next s') : ∃ t', exec i t = .next t' ∧ SameSpecified s' t' := by
  have hphase : t.phase = s.phase := by rw [h.registers]
  by_cases hhalt : s.phase = .halt ∧ i ≠ .reset
  · obtain ⟨hhalt, hi⟩ := hhalt
    rw [exec_of_halt hi hhalt] at he
    cases he
    exact ⟨t, exec_of_halt hi (hphase.trans hhalt), h⟩
  cases hchecks : firstFailed (Machine.checksOf i s) with
  | none =>
    obtain ⟨t', ht, hsame⟩ := h.effect hs (effect_of_checks_pass hs.sequencer hs.datapath hchecks he)
    exact ⟨t', exec_of_effect ht, hsame⟩
  | some code =>
    have hi : i ≠ .reset := by rintro rfl; simp [Machine.checksOf] at hchecks
    have hrunning : s.phase ≠ .halt := fun hp => hhalt ⟨hp, hi⟩
    rw [exec_of_firstFailed hrunning hchecks, ← raiseFault_frame] at he
    cases he
    exact ⟨_, exec_of_firstFailed (hphase ▸ hrunning) (h.checksOf i ▸ hchecks), h.raiseFault code (encode i)⟩

/-- A command word, legal or not (R57, R104, R241). -/
theorem SameSpecified.cmdWrite {w : Word} {s t s' : State} (h : SameSpecified s t) (hs : RunInv s)
    (he : cmdWrite w s = .next s') : ∃ t', cmdWrite w t = .next t' ∧ SameSpecified s' t' := by
  have hphase : t.phase = s.phase := by rw [h.registers]
  cases hw : decode w with
  | ok i =>
    rw [cmdWrite_ok hw] at he ⊢
    exact h.exec hs he
  | error x =>
    rw [cmdWrite_error hw] at he ⊢
    rw [hphase]
    split at he
    · next hhalt =>
      cases he
      exact ⟨t, if_pos hhalt, h⟩
    · next hrunning =>
      cases he
      exact ⟨_, if_neg hrunning, h.raiseFault .illegal w⟩

/-- Settles O60: `SameSpecified` is a simulation. The two ports hold the same operation, the checks and the decoder read
specified registers only, and each command's effect reads an unspecified content only where it then does not matter. -/
theorem unspecifiedContentsNeverMatter : Obligations.UnspecifiedContentsNeverMatter := by
  intro s t hs _ h s' hstep
  have hport : t.port = s.port := by rw [h.registers]
  cases hop : s.port with
  | nil =>
    rw [emptyPortWaits s hop] at hstep
    cases hstep
    exact ⟨t, emptyPortWaits t (hport.trans hop), h⟩
  | cons op rest =>
    have hrest := h.with_port rest
    cases op with
    | hardReset =>
      rw [step_hardReset hop] at hstep
      rw [step_hardReset (hport.trans hop)]
      exact hrest.exec (i := .reset) (hs.with_port rest) hstep
    | cmdWrite w =>
      rw [step_cmdWrite hop] at hstep
      rw [step_cmdWrite (hport.trans hop)]
      exact hrest.cmdWrite (hs.with_port rest) hstep

end Sys2Proof.Machine
end
